-- ==== Sys2Proof/Word.lean ====
section
/-! DEFINITION. The word types of the block (10_state.md R23, 20_memory.md R57, 30_encoding.md R70–R76). -/

namespace Sys2Proof

/-- A record byte or a byte operand (R57, R76). -/
abbrev Byte := BitVec 8

/-- The carrier of a duration, timestamp or time in nanoseconds, u64 (R57, R76); TS_WIDTH of R8 bounds its values. -/
abbrev Nanos := BitVec 64

/-- A timing-list entry in microseconds, u32 (R57, R85). -/
abbrev Micros := BitVec 32

/-- The request header, format H (R71). -/
abbrev Header := BitVec 32

/-- A logical command word, format L (R74). -/
abbrev CommandWord := BitVec 16

/-- A command record, format R (R75). -/
abbrev Record := BitVec 24

/-- A wire code, an opcode or a fault code: 4 bits (R29, R71, R131). -/
abbrev Nibble := BitVec 4

/-- The carrier of the edge counter, u32 (R27); EC_WIDTH of R8 bounds its values. -/
abbrev Count := BitVec 32

end Sys2Proof
end

