-- ==== Sys2Proof/Config.lean ====
section
/-! DEFINITION. The implementation parameters of 00_scope.md R8 and the wire-code tables `CODES` of
41_command_model.md R131, as a configuration record whose defaults are the values this hardware takes. -/

namespace Sys2Proof

/-- `CODES` (R131). Marked PRESUMED in log 8: the values the spec's table labels GK come from general
knowledge of the protocol family, not from the source (93_implementation_defined.md G1, U13). -/
structure Codes where
  /-- `FLAGS_BYTE`: source scenario A. -/
  flagsByte : Byte := 0xB2#8
  /-- `STATE_ON`: source scenario A. -/
  stateOn : Nibble := 0xF#4
  /-- `STATE_OFF`: GK. -/
  stateOff : Nibble := 0xB#4
  /-- `FAN_OFF`: GK. -/
  fanOff : Nibble := 0x7#4
  /-- `TEMP_OFF`, the code of the off sentinel: GK. -/
  tempOff : Nibble := 0xE#4
  /-- `FAN_CODE(Auto)`: GK. -/
  fanAuto : Nibble := 0xB#4
  /-- `FAN_CODE(Low)`: GK. -/
  fanLow : Nibble := 0x9#4
  /-- `FAN_CODE(Medium)`: GK. -/
  fanMedium : Nibble := 0x5#4
  /-- `FAN_CODE(High)`: source scenario A. -/
  fanHigh : Nibble := 0x3#4
  /-- `MODE_CODE(Cool)`: source scenario A. -/
  modeCool : Nibble := 0x0#4
  /-- `MODE_CODE(Dry)`, also the code of FanOnly: GK. -/
  modeDry : Nibble := 0x4#4
  /-- `MODE_CODE(Auto)`: GK. -/
  modeAuto : Nibble := 0x8#4
  /-- `MODE_CODE(Heat)`: GK. -/
  modeHeat : Nibble := 0xC#4
  /-- `TEMP_CODE` on 17..30, degree and code: 22 from scenario A, the rest GK. -/
  tempTable : List (Nat × Nibble) :=
    [(17, 0x0#4), (18, 0x1#4), (19, 0x3#4), (20, 0x2#4), (21, 0x6#4), (22, 0x7#4), (23, 0x5#4),
     (24, 0x4#4), (25, 0xC#4), (26, 0xD#4), (27, 0x9#4), (28, 0x8#4), (29, 0xA#4), (30, 0xB#4)]
deriving DecidableEq, Repr

/-- The parameters of R8. Band limits, the idle window and the tick period are in ns, nominal
durations, gap and separator in µs. -/
structure Config where
  /-- `ZERO_LO`, `ZERO_HI`: the open band for Zero. -/
  zeroLo : Nat := 350000
  zeroHi : Nat := 650000
  /-- `ONE_LO`, `ONE_HI`: the open band for One. -/
  oneLo : Nat := 1350000
  oneHi : Nat := 1650000
  /-- `PRE_LO`, `PRE_HI`: the open band for Preamble. -/
  preLo : Nat := 4000000
  preHi : Nat := 6000000
  /-- `NOM_ZERO_US`, `NOM_ONE_US`, `NOM_PRE_US`: the nominal symbols. -/
  nomZeroUs : Nat := 503
  nomOneUs : Nat := 1582
  nomPreUs : Nat := 4400
  /-- `GAP_US`: the inter-symbol gap. -/
  gapUs : Nat := 576
  /-- `SEP_US`: the separator between the two repetitions. -/
  sepUs : Nat := 5000
  /-- `IDLE_NS`: the quiet period before a flush. -/
  idleNs : Nat := 100000000
  /-- `TICK_PERIOD_NS`: the platform idle-check period, a property of the timer agent (R233). -/
  tickPeriodNs : Nat := 50000000
  /-- `PENDING_CAP`: the capacity of the pending accumulator, in pulses. -/
  pendingCap : Nat := 256
  /-- `TS_WIDTH`: the width of durations and timestamps, in bits. They are carried as `Nanos`, of 64 bits, so a
  width up to 64 is represented (log 7). -/
  tsWidth : Nat := 64
  /-- `EC_WIDTH`: the width of the saturating `edge_count`, in bits. It is carried as `Count`, of 32 bits, so a
  width up to 32 is represented (log 7). -/
  ecWidth : Nat := 32
  /-- `FLAGS_BYTE` and `CODES`. -/
  codes : Codes := {}
deriving DecidableEq, Repr

/-- The configuration of this hardware: every parameter at R8's default. -/
def Config.hw : Config := {}

/-- The largest value of `edge_count`, at which it saturates: 2^EC_WIDTH − 1 (R8, R27). -/
abbrev Config.edgeCountMax (c : Config) : Nat := 2 ^ c.ecWidth - 1

end Sys2Proof
end

