-- ==== Sys2Proof/Syntax.lean ====
section
/-! DEFINITION. Pulses, logical commands, requests and the instruction type: one constructor of `Instr`
per row of spec/opcode_table.json (30_encoding.md R70–R77). -/

namespace Sys2Proof

/-- A pulse category (R73, R100). -/
inductive Category where
  | zero | one | preamble | invalid
deriving DecidableEq, Repr

/-- One pulse: its category and its duration in ns, as measured or nominal (R73, R100). -/
structure Pulse where
  cat : Category
  dur : Nanos
deriving DecidableEq, Repr

/-- Format P as bits: the 2-bit category code and the duration (R73). -/
structure FormatP where
  cat : BitVec 2
  dur : Nanos
deriving DecidableEq, Repr

/-- The logical modes (R74, R130); FanOnly is a mode of its own. -/
inductive Mode where
  | cool | heat | dry | auto | fanOnly
deriving DecidableEq, Repr

/-- The fan speeds (R74, R130). -/
inductive Fan where
  | auto | low | medium | high
deriving DecidableEq, Repr

/-- A logical command (R130): power (true = on), mode, fan and degrees 0..31. -/
structure Command where
  power : Bool
  mode : Mode
  fan : Fan
  deg : BitVec 5
deriving DecidableEq, Repr

/-- The two edge types, header bit `e` (R71). -/
inductive EdgeType where
  | rising | falling
deriving DecidableEq, Repr

/-- The sixteen values of the header field `op` (R77). -/
inductive Opcode where
  | status | classify | p2b | b2p | encode | decode | assemble | timing
  | validate | checksum | f2r | edge | tick | abort | lineFault | reserved
deriving DecidableEq, Repr

/-- An operand bundle (R72). Its shape is the one its header selects; a bundle of another shape is no
operand of that header (log 3). -/
inductive Bundle where
  /-- No operand: STATUS, ABORT, LINE_FAULT. -/
  | none
  /-- A u64: the duration of CLASSIFY, the timestamp of EDGE, the time of TICK. -/
  | nanos (t : Nanos)
  /-- The vector operand `pv`: pulses of format P, in sequence order. -/
  | pulses (pv : List FormatP)
  /-- The byte of B2P. -/
  | byte (b : Byte)
  /-- The format-L word of ENCODE. -/
  | command (c : CommandWord)
  /-- The format-R word of DECODE, ASSEMBLE and TIMING. -/
  | record (r : Record)
deriving DecidableEq, Repr

/-- A request: a 32-bit header and its operand bundle (R70). -/
structure Request where
  header : Header
  operands : Bundle
deriving DecidableEq, Repr

/-- A decoded request with a legal header, or with the reserved opcode; one constructor per row of
spec/opcode_table.json. -/
inductive Instr where
  /-- STATUS (R200). -/
  | status
  /-- CLASSIFY (R102). -/
  | classify (d : Nanos)
  /-- P2B (R106). -/
  | p2b (pv : List Pulse)
  /-- B2P (R108). -/
  | b2p (b : Byte)
  /-- ENCODE (R133). -/
  | encode (c : CommandWord)
  /-- DECODE (R136). -/
  | decode (r : Record)
  /-- ASSEMBLE (R161). -/
  | assemble (r : Record)
  /-- TIMING (R166). -/
  | timing (r : Record)
  /-- VALIDATE (R168). -/
  | validate (pv : List Pulse)
  /-- CHECKSUM (R170). -/
  | checksum (pv : List Pulse)
  /-- F2R (R172). -/
  | f2r (pv : List Pulse)
  /-- EDGE (R191). -/
  | edge (e : EdgeType) (ts : Nanos)
  /-- TICK (R196). -/
  | tick (now : Nanos)
  /-- ABORT (R198). -/
  | abort
  /-- LINE_FAULT (R199). -/
  | lineFault
  /-- Opcode 0xF (R80): header bits 31 to 4 and the operands, whatever they are. -/
  | reserved (rest : BitVec 28) (operands : Bundle)
deriving DecidableEq, Repr

/-- The opcode of an instruction (R77). -/
def Instr.opcode : Instr → Opcode
  | .status => .status
  | .classify _ => .classify
  | .p2b _ => .p2b
  | .b2p _ => .b2p
  | .encode _ => .encode
  | .decode _ => .decode
  | .assemble _ => .assemble
  | .timing _ => .timing
  | .validate _ => .validate
  | .checksum _ => .checksum
  | .f2r _ => .f2r
  | .edge _ _ => .edge
  | .tick _ => .tick
  | .abort => .abort
  | .lineFault => .lineFault
  | .reserved _ _ => .reserved

end Sys2Proof
end

