-- ==== Sys2Proof/WellFormed.lean ====
section
/-! DEFINITION. The checks: well-formed instructions and operand bundles (30_encoding.md R71, R72, R79)
and the constraints on a configuration (00_scope.md R8, 41_command_model.md R138). -/

namespace Sys2Proof

/-- The largest vector length the header's 16-bit field `n` can carry (R71, R79). -/
abbrev maxVector : Nat := 65535

/-- An instruction the header can encode: a vector operand has at most 65535 pulses (R79). -/
def Instr.wf : Instr → Bool
  | .p2b pv => decide (pv.length ≤ maxVector)
  | .validate pv => decide (pv.length ≤ maxVector)
  | .checksum pv => decide (pv.length ≤ maxVector)
  | .f2r pv => decide (pv.length ≤ maxVector)
  | .status | .classify _ | .b2p _ | .encode _ | .decode _ | .assemble _ | .timing _
  | .edge _ _ | .tick _ | .abort | .lineFault | .reserved _ _ => true

/-- Whether a bundle has the shape R72 gives to opcode `op` with vector length `n`. Opcode 0xF takes
whatever comes (R80, R83). -/
def Bundle.fits (op : Opcode) (n : Nat) : Bundle → Bool
  | .none => match op with
    | .status | .abort | .lineFault | .reserved => true
    | _ => false
  | .nanos _ => match op with
    | .classify | .edge | .tick | .reserved => true
    | _ => false
  | .pulses pv => match op with
    | .p2b | .validate | .checksum | .f2r => decide (pv.length = n)
    | .reserved => true
    | _ => false
  | .byte _ => match op with
    | .b2p | .reserved => true
    | _ => false
  | .command _ => match op with
    | .encode | .reserved => true
    | _ => false
  | .record _ => match op with
    | .decode | .assemble | .timing | .reserved => true
    | _ => false

/-- Whether an instruction's durations and times fit TS_WIDTH bits (R8, R72: an operand of the width the parameter
gives; every operand does at the default, 64). Opcode 0xF takes whatever comes. -/
def Instr.inWidth (c : Config) : Instr → Bool
  | .classify d => decide (d.toNat < 2 ^ c.tsWidth)
  | .p2b pv | .validate pv | .checksum pv | .f2r pv => pv.all fun p => decide (p.dur.toNat < 2 ^ c.tsWidth)
  | .edge _ ts => decide (ts.toNat < 2 ^ c.tsWidth)
  | .tick now => decide (now.toNat < 2 ^ c.tsWidth)
  | .status | .b2p _ | .encode _ | .decode _ | .assemble _ | .timing _ | .abort | .lineFault
  | .reserved _ _ => true

/-- R8: the bands do not overlap, and each nominal duration lies inside its own band. -/
abbrev Config.bandsOk (c : Config) : Prop :=
  c.zeroHi ≤ c.oneLo ∧ c.oneHi ≤ c.preLo ∧
  (c.zeroLo < c.nomZeroUs * 1000 ∧ c.nomZeroUs * 1000 < c.zeroHi) ∧
  (c.oneLo < c.nomOneUs * 1000 ∧ c.nomOneUs * 1000 < c.oneHi) ∧
  (c.preLo < c.nomPreUs * 1000 ∧ c.nomPreUs * 1000 < c.preHi)

/-- The widths of R30 and R57 hold the parameters: the carriers of log 7 hold TS_WIDTH and EC_WIDTH bits, a duration
the band limits, u32 the timing entries, 16 bits the pending count; an edge can be counted and a pulse be kept
(DEDUCED, log 9). -/
abbrev Config.widthsOk (c : Config) : Prop :=
  c.tsWidth ≤ 64 ∧ (1 ≤ c.ecWidth ∧ c.ecWidth ≤ 32) ∧ c.preHi ≤ 2 ^ c.tsWidth ∧
  c.nomZeroUs < 2 ^ 32 ∧ c.nomOneUs < 2 ^ 32 ∧ c.nomPreUs < 2 ^ 32 ∧
  c.gapUs < 2 ^ 32 ∧ c.sepUs < 2 ^ 32 ∧ (1 ≤ c.pendingCap ∧ c.pendingCap ≤ 65535)

/-- R138: what a table that replaces the default `CODES` must keep. That every code is in 0..15 is its
type. The last line is the source's scenario A. -/
abbrev Codes.ok (c : Codes) : Prop :=
  c.tempTable.map (·.1) = List.range' 17 14 ∧
  (c.tempTable.map (·.2)).Nodup ∧
  c.tempOff ∉ c.tempTable.map (·.2) ∧
  [c.modeCool, c.modeHeat, c.modeDry, c.modeAuto].Nodup ∧
  [c.fanAuto, c.fanLow, c.fanMedium, c.fanHigh].Nodup ∧
  c.stateOn ≠ c.stateOff ∧
  (c.flagsByte = 0xB2#8 ∧ c.fanHigh = 0x3#4 ∧ c.stateOn = 0xF#4 ∧ c.modeCool = 0x0#4 ∧
    c.tempTable.lookup 22 = some 0x7#4)

/-- A configuration the spec admits (R8, R138). -/
abbrev Config.ok (c : Config) : Prop :=
  c.bandsOk ∧ c.widthsOk ∧ c.codes.ok

end Sys2Proof
end

