-- ==== Sys2Proof/Decode.lean ====
section
/-! DEFINITION. Request decoding, total on any header and operand bundle and rejecting by name, the
encoder written from the same tables, and the opcode table itself (30_encoding.md R70–R83). -/

namespace Sys2Proof

/-! ### Codes -/

/-- The `op` field of an opcode (R77). -/
def Opcode.code : Opcode → Nibble
  | .status => 0x0#4
  | .classify => 0x1#4
  | .p2b => 0x2#4
  | .b2p => 0x3#4
  | .encode => 0x4#4
  | .decode => 0x5#4
  | .assemble => 0x6#4
  | .timing => 0x7#4
  | .validate => 0x8#4
  | .checksum => 0x9#4
  | .f2r => 0xA#4
  | .edge => 0xB#4
  | .tick => 0xC#4
  | .abort => 0xD#4
  | .lineFault => 0xE#4
  | .reserved => 0xF#4

/-- The opcode an `op` field selects (R77); total, since 0xF is the reserved one. -/
def Opcode.ofCode (c : Nibble) : Opcode :=
  match c.toNat with
  | 0x0 => .status
  | 0x1 => .classify
  | 0x2 => .p2b
  | 0x3 => .b2p
  | 0x4 => .encode
  | 0x5 => .decode
  | 0x6 => .assemble
  | 0x7 => .timing
  | 0x8 => .validate
  | 0x9 => .checksum
  | 0xA => .f2r
  | 0xB => .edge
  | 0xC => .tick
  | 0xD => .abort
  | 0xE => .lineFault
  | _ => .reserved

/-- The category code of format P (R73). -/
def Category.code : Category → BitVec 2
  | .zero => 0b00#2
  | .one => 0b01#2
  | .preamble => 0b10#2
  | .invalid => 0b11#2

/-- The category of a 2-bit code; all four are legal (R73). -/
def Category.ofCode (c : BitVec 2) : Category :=
  match c.toNat with
  | 0 => .zero
  | 1 => .one
  | 2 => .preamble
  | _ => .invalid

/-- A format-P pulse read as a pulse (R73). -/
def FormatP.toPulse (p : FormatP) : Pulse := ⟨Category.ofCode p.cat, p.dur⟩

/-- A pulse as format P (R73). -/
def Pulse.toFormatP (p : Pulse) : FormatP := ⟨p.cat.code, p.dur⟩

/-- Header bit `e` of an edge type (R71): 0 rising, 1 falling. -/
def EdgeType.bit : EdgeType → Bool
  | .rising => false
  | .falling => true

/-- The edge type of header bit `e` (R71). -/
def EdgeType.ofBit : Bool → EdgeType
  | false => .rising
  | true => .falling

/-! ### Header fields (R71) -/

/-- `op`, bits 3 to 0. -/
def Header.op (h : Header) : Nibble := h.extractLsb' 0 4
/-- `e`, bit 4. -/
def Header.e (h : Header) : Bool := h.getLsbD 4
/-- `rsv`, bits 15 to 5. -/
def Header.rsv (h : Header) : BitVec 11 := h.extractLsb' 5 11
/-- `n`, bits 31 to 16. -/
def Header.n (h : Header) : BitVec 16 := h.extractLsb' 16 16
/-- Bits 31 to 4, all but the opcode. -/
def Header.rest (h : Header) : BitVec 28 := h.extractLsb' 4 28

/-- The opcode a header selects (R77). -/
def Header.opcode (h : Header) : Opcode := Opcode.ofCode h.op

/-- The opcodes with a vector operand (R71: P2B, VALIDATE, CHECKSUM, F2R). -/
def Opcode.isVector : Opcode → Bool
  | .p2b | .validate | .checksum | .f2r => true
  | .status | .classify | .b2p | .encode | .decode | .assemble | .timing
  | .edge | .tick | .abort | .lineFault | .reserved => false

/-! ### The decoder -/

/-- Why a request is rejected: the three header checks of R83 in their order, each of which raises
ILLEGAL_ENCODING, and an operand bundle that does not have the shape R72 gives the header (log 3). -/
inductive DecodeError where
  /-- `rsv` is not 0 (R78). -/
  | reservedBits
  /-- `e` is set outside EDGE (R78). -/
  | edgeBit
  /-- `n` is not 0 outside the vector opcodes (R78). -/
  | countBits
  /-- The bundle does not have the header's shape (R72). -/
  | bundleShape
deriving DecidableEq, Repr

/-- Reads an instruction that has no operand (R72). -/
def Bundle.expectNone (k : Instr) : Bundle → Except DecodeError Instr
  | .none => .ok k
  | _ => .error .bundleShape

/-- Reads a u64 operand (R72). -/
def Bundle.expectNanos (k : Nanos → Instr) : Bundle → Except DecodeError Instr
  | .nanos t => .ok (k t)
  | _ => .error .bundleShape

/-- Reads the `n` pulses of a vector operand (R72, R73). -/
def Bundle.expectPulses (n : Nat) (k : List Pulse → Instr) : Bundle → Except DecodeError Instr
  | .pulses pv => if pv.length = n then .ok (k (pv.map FormatP.toPulse)) else .error .bundleShape
  | _ => .error .bundleShape

/-- Reads a byte operand (R72). -/
def Bundle.expectByte (k : Byte → Instr) : Bundle → Except DecodeError Instr
  | .byte b => .ok (k b)
  | _ => .error .bundleShape

/-- Reads a format-L operand (R72). -/
def Bundle.expectCommand (k : CommandWord → Instr) : Bundle → Except DecodeError Instr
  | .command c => .ok (k c)
  | _ => .error .bundleShape

/-- Reads a format-R operand (R72). -/
def Bundle.expectRecord (k : Record → Instr) : Bundle → Except DecodeError Instr
  | .record r => .ok (k r)
  | _ => .error .bundleShape

/-- The operands of a request whose header passed the checks of R83: the shape is the opcode's (R72). -/
def decodeOperands (h : Header) (b : Bundle) : Except DecodeError Instr :=
  match h.opcode with
  | .status => b.expectNone .status
  | .classify => b.expectNanos .classify
  | .p2b => b.expectPulses h.n.toNat .p2b
  | .b2p => b.expectByte .b2p
  | .encode => b.expectCommand .encode
  | .decode => b.expectRecord .decode
  | .assemble => b.expectRecord .assemble
  | .timing => b.expectRecord .timing
  | .validate => b.expectPulses h.n.toNat .validate
  | .checksum => b.expectPulses h.n.toNat .checksum
  | .f2r => b.expectPulses h.n.toNat .f2r
  | .edge => b.expectNanos (.edge (EdgeType.ofBit h.e))
  | .tick => b.expectNanos .tick
  | .abort => b.expectNone .abort
  | .lineFault => b.expectNone .lineFault
  | .reserved => .ok (.reserved h.rest b)

/-- The header checks of R83, in its order; opcode 0xF comes before them and passes (it raises
ILLEGAL_OP when it executes). -/
def checkHeader (h : Header) : Option DecodeError :=
  if h.opcode = .reserved then none
  else if h.rsv ≠ 0#11 then some .reservedBits
  else if h.opcode ≠ .edge ∧ h.e = true then some .edgeBit
  else if h.opcode.isVector = false ∧ h.n ≠ 0#16 then some .countBits
  else none

/-- The decoder (R83): the header checks, then the operands. -/
def decode (r : Request) : Except DecodeError Instr :=
  match checkHeader r.header with
  | some e => .error e
  | none => decodeOperands r.header r.operands

/-! ### The encoder -/

/-- A header of format H with `rsv = 0` (R71). -/
def mkHeader (op : Opcode) (e : Bool) (n : Nat) : Header :=
  BitVec.ofNat 16 n ++ 0#11 ++ BitVec.ofBool e ++ op.code

/-- The request that carries an instruction (R70–R77). -/
def encode : Instr → Request
  | .status => ⟨mkHeader .status false 0, .none⟩
  | .classify d => ⟨mkHeader .classify false 0, .nanos d⟩
  | .p2b pv => ⟨mkHeader .p2b false pv.length, .pulses (pv.map Pulse.toFormatP)⟩
  | .b2p b => ⟨mkHeader .b2p false 0, .byte b⟩
  | .encode c => ⟨mkHeader .encode false 0, .command c⟩
  | .decode r => ⟨mkHeader .decode false 0, .record r⟩
  | .assemble r => ⟨mkHeader .assemble false 0, .record r⟩
  | .timing r => ⟨mkHeader .timing false 0, .record r⟩
  | .validate pv => ⟨mkHeader .validate false pv.length, .pulses (pv.map Pulse.toFormatP)⟩
  | .checksum pv => ⟨mkHeader .checksum false pv.length, .pulses (pv.map Pulse.toFormatP)⟩
  | .f2r pv => ⟨mkHeader .f2r false pv.length, .pulses (pv.map Pulse.toFormatP)⟩
  | .edge e ts => ⟨mkHeader .edge e.bit 0, .nanos ts⟩
  | .tick now => ⟨mkHeader .tick false 0, .nanos now⟩
  | .abort => ⟨mkHeader .abort false 0, .none⟩
  | .lineFault => ⟨mkHeader .lineFault false 0, .none⟩
  | .reserved rest b => ⟨rest ++ Opcode.reserved.code, b⟩

/-! ### The opcode table -/

/-- One row of spec/opcode_table.json: a header `h` is the row's when `h &&& mask = pattern`. -/
structure OpcodeRow where
  opcode : Opcode
  mask : Header
  pattern : Header
deriving DecidableEq, Repr

/-- The match and mask columns of spec/opcode_table.json (R78), in its order. -/
def opcodeTable : List OpcodeRow :=
  [⟨.status, 0xFFFFFFFF#32, 0x00000000#32⟩,
   ⟨.classify, 0xFFFFFFFF#32, 0x00000001#32⟩,
   ⟨.p2b, 0x0000FFFF#32, 0x00000002#32⟩,
   ⟨.b2p, 0xFFFFFFFF#32, 0x00000003#32⟩,
   ⟨.encode, 0xFFFFFFFF#32, 0x00000004#32⟩,
   ⟨.decode, 0xFFFFFFFF#32, 0x00000005#32⟩,
   ⟨.assemble, 0xFFFFFFFF#32, 0x00000006#32⟩,
   ⟨.timing, 0xFFFFFFFF#32, 0x00000007#32⟩,
   ⟨.validate, 0x0000FFFF#32, 0x00000008#32⟩,
   ⟨.checksum, 0x0000FFFF#32, 0x00000009#32⟩,
   ⟨.f2r, 0x0000FFFF#32, 0x0000000A#32⟩,
   ⟨.edge, 0xFFFFFFEF#32, 0x0000000B#32⟩,
   ⟨.tick, 0xFFFFFFFF#32, 0x0000000C#32⟩,
   ⟨.abort, 0xFFFFFFFF#32, 0x0000000D#32⟩,
   ⟨.lineFault, 0xFFFFFFFF#32, 0x0000000E#32⟩,
   ⟨.reserved, 0x0000000F#32, 0x0000000F#32⟩]

/-- Whether a header is a row's. -/
def OpcodeRow.holds (row : OpcodeRow) (h : Header) : Bool := h &&& row.mask = row.pattern

/-! ### Words of the opcode table -/

/-- The all-zero operand bundle of the shape a header selects (R72). -/
def zeroBundle (h : Header) : Bundle :=
  match h.opcode with
  | .status | .abort | .lineFault | .reserved => .none
  | .classify | .edge | .tick => .nanos 0#64
  | .p2b | .validate | .checksum | .f2r => .pulses (List.replicate h.n.toNat ⟨0#2, 0#64⟩)
  | .b2p => .byte 0#8
  | .encode => .command 0#16
  | .decode | .assemble | .timing => .record 0#24

/-- The request whose bits, numbered as the opcode table numbers them, are the low `nbits` bits of `w`:
the header is the first 32 bits, and operands beyond them are zero (log 2). -/
def tableRequest (nbits w : Nat) : Request :=
  let h : Header := BitVec.ofNat 32 (w % 2 ^ nbits)
  ⟨h, zeroBundle h⟩

/-- The instruction the decoder reads from a word of the opcode table; none where it rejects it. -/
def decodeTableWord (nbits w : Nat) : Option Instr :=
  (decode (tableRequest nbits w)).toOption

end Sys2Proof
end

