-- ==== Sys2Proof/Machine/State.lean ====
section
/-! DEFINITION. The state as plain data: the block's record of 10_state.md R23, the observation of R32, the
configuration and the request stream, which no step writes (R8, R35; log 1), and the agents' own fields (R20). -/

namespace Sys2Proof.Machine

/-- The receive loop's state (R28). -/
inductive RunState where
  | running | aborted | lineFailed
deriving DecidableEq, Repr

/-- The fatal-fault causes of R222 that are raised; codes 7 to 15 never are. -/
inductive FaultCause where
  | illegalOp | illegalEncoding | badLength | notABit | unmappedTemp | nonmonotonicTs
deriving DecidableEq, Repr

/-- A response's status (R84). -/
inductive Status where
  | ok | absent | stopped | faulted
deriving DecidableEq, Repr

/-- A response's result (R85). -/
inductive Result where
  /-- None: EDGE, TICK, ABORT, LINE_FAULT, and every status but OK. -/
  | none
  /-- STATUS's u32. -/
  | word (w : BitVec 32)
  /-- CLASSIFY's pulse. -/
  | pulse (p : Pulse)
  /-- P2B's u8. -/
  | byte (b : Byte)
  /-- The pulses of B2P, ASSEMBLE and VALIDATE. -/
  | pulses (pv : List Pulse)
  /-- The u24 record of ENCODE and F2R. -/
  | record (r : Record)
  /-- DECODE's format-L word. -/
  | command (c : CommandWord)
  /-- TIMING's u32 entries in µs. -/
  | timing (l : List Micros)
  /-- CHECKSUM's bit. -/
  | bit (b : Bool)
deriving DecidableEq, Repr

/-- A response (R84). -/
structure Response where
  status : Status
  result : Result
deriving DecidableEq, Repr

/-- A burst event (R197). -/
structure Burst where
  pulses : List Pulse
  ovf : Bool
deriving DecidableEq, Repr

/-- What the edge source delivers (R20(c), R234): an edge with its timestamp, or its line failure. -/
inductive LineEvent where
  | edge (e : EdgeType) (ts : Nanos)
  | failure
deriving DecidableEq, Repr

/-- What the host does at its turn (R20(b)): one request, or one stage of a pseudo-operation. The stages
after the first are put in front of the host's tasks by the stage before them (log 12). -/
inductive HostTask where
  /-- One request. -/
  | request (r : Request)
  /-- SEND (R87): ENCODE, then TIMING of its result. -/
  | send (c : CommandWord)
  /-- RECEIVE_CHECK (R88): VALIDATE, then CHECKSUM, F2R and DECODE. -/
  | receiveCheck (pv : List Pulse)
  /-- RECEIVE_CHECK after VALIDATE answered the frame `f`: CHECKSUM. -/
  | receiveChecksum (f : List Pulse)
  /-- RECEIVE_CHECK after CHECKSUM of `f` answered 1: F2R. -/
  | receiveRecord (f : List Pulse)
  /-- RECEIVE_CHECK after F2R answered `r`: DECODE. -/
  | receiveDecode (r : Record)
  /-- The host takes the next burst of `out` it has not taken, and runs RECEIVE_CHECK on its pulses (R20(b), R231;
  log 18). -/
  | acceptBurst
deriving DecidableEq, Repr

/-- One place of the merged request stream (R7, R20, R59): a request, the reset input (which is no request,
R250), or the turn of an agent, whose next request is accepted there. -/
inductive Arrival where
  | request (r : Request)
  | reset
  | host
  | edgeSource
  | timer
deriving DecidableEq, Repr

/-- The machine's state. -/
structure State where
  /-- `last_edge_time` (R24). -/
  lastEdgeTime : Nanos
  /-- `pending` (R25), oldest first. -/
  pending : List Pulse
  /-- `pending_ovf` (R26). -/
  pendingOvf : Bool
  /-- `edge_count` (R27). -/
  edgeCount : Count
  /-- `run_state` (R28). -/
  runState : RunState
  /-- `fault_cause` (R29); 0 is no fault. -/
  faultCause : Nibble
  /-- `fault_op` (R29). -/
  faultOp : Nibble
  /-- `out` (R32): every burst emitted, oldest first. -/
  out : List Burst
  /-- Every response given, oldest first (R32, R84; log 4). -/
  responses : List Response
  /-- The configuration: the parameters of R8 and the tables of R131. No step writes it (R31, R35). -/
  cfg : Config
  /-- The merged request stream, from its first place on (R7, R59). Input: no step writes it (R35). -/
  stream : List Arrival
  /-- The place of the stream that comes next (R22: a model may number requests by their position, which no
  operation reads or changes; log 1). -/
  position : Nat
  /-- What the host is yet to do (log 1). -/
  hostTasks : List HostTask
  /-- How many bursts of `out` the host has taken (R20(b), R231; log 18). -/
  burstsTaken : Nat
  /-- What the edge source is yet to deliver (log 1). -/
  lineEvents : List LineEvent
  /-- The time in ns of the platform timer's next TICK (R233; log 5). -/
  timerNext : Nat
deriving DecidableEq, Repr

/-- The state after reset of a block built with a configuration: the block's record as R34 gives it. The histories
are empty and nothing is yet to be requested; the timer's first TICK is one period away (logs 1, 4, 5, 18). -/
def State.resetAt (cfg : Config) : State where
  lastEdgeTime := 0#64
  pending := []
  pendingOvf := false
  edgeCount := 0#32
  runState := .running
  faultCause := 0#4
  faultOp := 0#4
  out := []
  responses := []
  cfg := cfg
  stream := []
  position := 0
  hostTasks := []
  burstsTaken := 0
  lineEvents := []
  timerNext := cfg.tickPeriodNs

/-- The state after reset of this hardware, every parameter at its default (R8). -/
def State.reset : State := State.resetAt Config.hw

/-- The requests yet to be served: the stream from the next place on. -/
def State.remaining (s : State) : List Arrival := s.stream.drop s.position

/-- The state in which the next place of the stream is being served. -/
def State.advance (s : State) : State := { s with position := s.position + 1 }

/-- Stops the block does not have: its own fatal faults (R221) are next states. -/
inductive Fault where
  /-- Raised by serving a request whose operand bundle does not have the shape R72 gives its legal header, or a
  duration or time wider than TS_WIDTH: the interface carries no such request, and the spec says nothing of it
  (log 3). Safe. -/
  | bundleShape
deriving DecidableEq, Repr

/-- What the model has no meaning for. -/
inductive Refusal where
  /-- An instruction whose arm of `exec` has no meaning yet; no arm is one. Safe. -/
  | notModelled (mnemonic : String)
  /-- Raised at the timer's turn when its time no longer fits TS_WIDTH bits: the wrap of the clock is
  outside the model (R260, 93_implementation_defined.md U15; log 6). Safe. -/
  | clockWrap
deriving DecidableEq, Repr

end Sys2Proof.Machine
end

