-- ==== Sys2Proof/Machine/Operands.lean ====
section
/-! DEFINITION. Operand and result formats: the logical command word (format L), the record (format R) and
the response codes (30_encoding.md R74, R75, R82, R84; 20_memory.md R52–R55). -/

namespace Sys2Proof

/-! ### Format L (R74) -/

/-- The mode field of format L (R74). -/
def Mode.code : Mode → BitVec 3
  | .cool => 0#3
  | .heat => 1#3
  | .dry => 2#3
  | .auto => 3#3
  | .fanOnly => 4#3

/-- The mode of a format-L field; 5, 6 and 7 are illegal (R74). -/
def Mode.ofCode (m : BitVec 3) : Option Mode :=
  match m.toNat with
  | 0 => some .cool
  | 1 => some .heat
  | 2 => some .dry
  | 3 => some .auto
  | 4 => some .fanOnly
  | _ => none

/-- The fan field of format L (R74). -/
def Fan.code : Fan → BitVec 2
  | .auto => 0#2
  | .low => 1#2
  | .medium => 2#2
  | .high => 3#2

/-- The fan speed of a format-L field (R74). -/
def Fan.ofCode (f : BitVec 2) : Fan :=
  match f.toNat with
  | 0 => .auto
  | 1 => .low
  | 2 => .medium
  | _ => .high

/-- A logical command as a format-L word, its reserved bits 0 (R74). -/
def packCommand (c : Command) : CommandWord :=
  0#5 ++ c.deg ++ c.fan.code ++ c.mode.code ++ BitVec.ofBool c.power

/-- A format-L word read as a logical command; none when its mode is 5, 6 or 7 or a reserved bit is set
(R74, R82). -/
def unpackCommand (w : CommandWord) : Option Command :=
  if w.extractLsb' 11 5 ≠ 0#5 then none
  else (Mode.ofCode (w.extractLsb' 1 3)).map fun m =>
    ⟨w.getLsbD 0, m, Fan.ofCode (w.extractLsb' 4 2), w.extractLsb' 6 5⟩

/-! ### Format R (R75, R52, R54, R55) -/

/-- A record from its three bytes; `flags` is the most significant and first on the wire (R52, R54). -/
def mkRecord (flags fanAndState tempAndMode : Byte) : Record := flags ++ fanAndState ++ tempAndMode

/-- `flags`, bits 23 to 16. -/
def Record.flags (r : Record) : Byte := r.extractLsb' 16 8
/-- `fan_and_state`, bits 15 to 8. -/
def Record.fanAndState (r : Record) : Byte := r.extractLsb' 8 8
/-- `temp_and_mode`, bits 7 to 0. -/
def Record.tempAndMode (r : Record) : Byte := r.extractLsb' 0 8

/-- The fan code, bits 15 to 12. -/
def Record.fanCode (r : Record) : Nibble := r.extractLsb' 12 4
/-- The state code, bits 11 to 8. -/
def Record.stateCode (r : Record) : Nibble := r.extractLsb' 8 4
/-- The temperature code, bits 7 to 4 (R55, conflict C1). -/
def Record.tempCode (r : Record) : Nibble := r.extractLsb' 4 4
/-- The mode code, bits 3 to 0 (R55, conflict C1). -/
def Record.modeCode (r : Record) : Nibble := r.extractLsb' 0 4

/-- The record's bytes in wire order (R52). -/
def Record.bytes (r : Record) : List Byte := [r.flags, r.fanAndState, r.tempAndMode]

namespace Machine

/-! ### Response and state codes -/

/-- The 2-bit status code of a response (R84). -/
def Status.code : Status → BitVec 2
  | .ok => 0#2
  | .absent => 1#2
  | .stopped => 2#2
  | .faulted => 3#2

/-- The code of `run_state` (R28, R30). -/
def RunState.code : RunState → BitVec 2
  | .running => 0#2
  | .aborted => 1#2
  | .lineFailed => 2#2

/-- The code of a fault cause (R222). -/
def FaultCause.code : FaultCause → Nibble
  | .illegalOp => 1#4
  | .illegalEncoding => 2#4
  | .badLength => 3#4
  | .notABit => 4#4
  | .unmappedTemp => 5#4
  | .nonmonotonicTs => 6#4

end Machine

end Sys2Proof
end

