-- ==== Sys2Proof/Machine/Flags.lean ====
section
/-! DEFINITION. The STATUS word, the block's only flag register and a read-only view (10_state.md R30).
The block has no condition codes (R33). -/

namespace Sys2Proof.Machine

/-- Whether a fatal fault is recorded (R29). -/
def State.faulted (s : State) : Bool := s.faultCause != 0#4

/-- Whether an edge has been seen since reset (R27, R30). -/
def State.seenEdge (s : State) : Bool := s.edgeCount != 0#32

/-- The STATUS word (R30), its fields from bit 31 down: `pending_count`, reserved 0, `fault_op`, `seen_edge`,
`pending_ovf`, `run_state`, `fault_cause`, `faulted`. -/
def State.statusWord (s : State) : BitVec 32 :=
  BitVec.ofNat 16 s.pending.length ++ 0#3 ++ s.faultOp ++ BitVec.ofBool s.seenEdge ++
    BitVec.ofBool s.pendingOvf ++ s.runState.code ++ s.faultCause ++ BitVec.ofBool s.faulted

end Sys2Proof.Machine
end

