-- ==== Sys2Proof/Machine/Ops.lean ====
section
/-! DEFINITION. The named operations over the state that every meaning is written with: responding, raising
a fatal fault, the accumulator's accesses, and reset (00_scope.md R12). -/

namespace Sys2Proof.Machine

/-- `respond(status, result)`: the one response of the request (R12, R70, R84). -/
def State.respond (s : State) (status : Status) (result : Result) : State :=
  { s with responses := s.responses ++ [⟨status, result⟩] }

/-- `raise Fault(cause)`: records the cause and the opcode of the faulting request, answers FAULTED and
changes nothing else (R221, R225). There is no return from a fault but reset (R227). -/
def State.raise (s : State) (cause : FaultCause) (op : Opcode) : State :=
  { s with faultCause := cause.code, faultOp := op.code }.respond .faulted .none

/-- Every request but STATUS: answered FAULTED with no effect while a fault is recorded (R83, R226),
otherwise served as `f` says. -/
def State.unlessFaulted (s : State) (f : State → State) : State :=
  if s.faulted then s.respond .faulted .none else f s

/-- Ends a request that computes a result or raises a fault (R12). -/
def State.answer (s : State) (op : Opcode) : Except FaultCause Result → State
  | .ok r => s.respond .ok r
  | .error c => s.raise c op

/-- `append(p)`: adds a pulse to the end of `pending`, or drops it and sets `pending_ovf` when the
accumulator holds `PENDING_CAP` pulses (R194). -/
def State.append (s : State) (p : Pulse) : State :=
  if s.pending.length < s.cfg.pendingCap then { s with pending := s.pending ++ [p] }
  else { s with pendingOvf := true }

/-- Marks an edge as processed: `last_edge_time` and the saturating `edge_count` (R24, R27, R191). -/
def State.markEdge (s : State) (ts : Nanos) : State :=
  { s with
    lastEdgeTime := ts
    edgeCount := BitVec.ofNat 32 (min (s.edgeCount.toNat + 1) s.cfg.edgeCountMax) }

/-- A flush: emits the burst, then empties the accumulator and clears its overflow bit (R196, R197). -/
def State.flush (s : State) : State :=
  { s with out := s.out ++ [⟨s.pending, s.pendingOvf⟩], pending := [], pendingOvf := false }

/-- Ends the receive loop, from Running only (R28, R198, R199). -/
def State.endLoop (s : State) (ended : RunState) : State :=
  if s.runState = .running then { s with runState := ended } else s

/-- The reset input (R250): every field of the block's record at its reset value (R34). `out` stays as it is,
`pending` is discarded without a burst, and the responses given, the input and the agents are not touched (log 16). -/
def State.applyReset (s : State) : State :=
  { s with
    lastEdgeTime := (State.resetAt s.cfg).lastEdgeTime
    pending := (State.resetAt s.cfg).pending
    pendingOvf := (State.resetAt s.cfg).pendingOvf
    edgeCount := (State.resetAt s.cfg).edgeCount
    runState := (State.resetAt s.cfg).runState
    faultCause := (State.resetAt s.cfg).faultCause
    faultOp := (State.resetAt s.cfg).faultOp }

end Sys2Proof.Machine
end

