-- ==== Sys2Proof/Machine/CommandModel.lean ====
section
/-! DEFINITION. The command model: ENCODE and DECODE (41_command_model.md). -/

namespace Sys2Proof.Machine

/-- `MODE_CODE(m)` (R131): FanOnly is encoded as Dry. -/
def modeCode (k : Codes) : Mode → Nibble
  | .cool => k.modeCool
  | .heat => k.modeHeat
  | .dry => k.modeDry
  | .auto => k.modeAuto
  | .fanOnly => k.modeDry

/-- `FAN_CODE(f)` (R131). -/
def fanCode (k : Codes) : Fan → Nibble
  | .auto => k.fanAuto
  | .low => k.fanLow
  | .medium => k.fanMedium
  | .high => k.fanHigh

/-- `TEMP_CODE(d)` on its domain 0 and 17..30; none elsewhere (R131). -/
def tempCode (k : Codes) (d : Nat) : Option Nibble :=
  if d = 0 then some k.tempOff else k.tempTable.lookup d

/-- The temperature code of a command that is on: forced off for FanOnly, otherwise looked up, and
UNMAPPED_TEMP outside the table's domain (R132). -/
def onTempCode (k : Codes) (c : Command) : Except FaultCause Nibble :=
  if c.mode = .fanOnly then .ok k.tempOff
  else match tempCode k c.deg.toNat with
    | some t => .ok t
    | none => .error .unmappedTemp

/-- `enc(c)` (R132). -/
def enc (k : Codes) (c : Command) : Except FaultCause Record :=
  if c.power = false then
    .ok (mkRecord k.flagsByte (k.fanOff ++ k.stateOff) (k.tempOff ++ modeCode k c.mode))
  else
    (onTempCode k c).map fun t =>
      mkRecord k.flagsByte (fanCode k c.fan ++ k.stateOn) (t ++ modeCode k c.mode)

/-- `MODE_OF(m)` (R134); FanOnly is never its value. -/
def modeOf (k : Codes) (m : Nibble) : Option Mode :=
  if m = k.modeCool then some .cool
  else if m = k.modeHeat then some .heat
  else if m = k.modeDry then some .dry
  else if m = k.modeAuto then some .auto
  else none

/-- `FAN_OF(f)` (R134). -/
def fanOf (k : Codes) (f : Nibble) : Option Fan :=
  if f = k.fanAuto then some .auto
  else if f = k.fanLow then some .low
  else if f = k.fanMedium then some .medium
  else if f = k.fanHigh then some .high
  else none

/-- `DEG_OF(t)` (R134). -/
def degOf (k : Codes) (t : Nibble) : Option Nat :=
  match k.tempTable.find? fun row => row.2 = t with
  | some row => some row.1
  | none => if t = k.tempOff then some 0 else none

/-- The FanOnly convention of R135. -/
def isFanOnly (k : Codes) (r : Record) : Bool :=
  decide (Record.tempCode r = k.tempOff ∧ Record.modeCode r = k.modeDry)

/-- `dec(r)` (R135): the state code decides the power, the flags byte is not examined, and the result is
none if any component is. -/
def dec (k : Codes) (r : Record) : Option Command :=
  if Record.stateCode r = k.stateOff then
    (if isFanOnly k r then some .fanOnly else modeOf k (Record.modeCode r)).map fun m =>
      ⟨false, m, .auto, 0#5⟩
  else if Record.stateCode r = k.stateOn then
    match fanOf k (Record.fanCode r) with
    | none => none
    | some f =>
      if isFanOnly k r then some ⟨true, .fanOnly, f, 0#5⟩
      else match modeOf k (Record.modeCode r), degOf k (Record.tempCode r) with
        | some m, some d => some ⟨true, m, f, BitVec.ofNat 5 d⟩
        | _, _ => none
  else none

/-- ENCODE's result (R133): ILLEGAL_ENCODING of the operand comes before UNMAPPED_TEMP. -/
def encodeWord (k : Codes) (w : CommandWord) : Except FaultCause Record :=
  match unpackCommand w with
  | none => .error .illegalEncoding
  | some c => enc k c

/-- ENCODE (R133). -/
def execEncode (c : CommandWord) (s : State) : Host.Outcome State Fault Refusal :=
  .next (s.unlessFaulted fun s => s.answer .encode ((encodeWord s.cfg.codes c).map .record))

/-- DECODE (R136): an unmapped code is ABSENT, not a fault. -/
def execDecode (r : Record) (s : State) : Host.Outcome State Fault Refusal :=
  .next (s.unlessFaulted fun s =>
    match dec s.cfg.codes r with
    | some c => s.respond .ok (.command (packCommand c))
    | none => s.respond .absent .none)

end Sys2Proof.Machine
end

