-- ==== Sys2Proof/Machine/PulseBit.lean ====
section
/-! DEFINITION. The pulse classifier and the bit/byte codec: CLASSIFY, P2B, B2P (40_pulse_bit.md). -/

namespace Sys2Proof.Machine

/-- The category of a duration: three open bands, Invalid elsewhere (R101). -/
def classifyCategory (cfg : Config) (d : Nat) : Category :=
  if cfg.zeroLo < d ∧ d < cfg.zeroHi then .zero
  else if cfg.oneLo < d ∧ d < cfg.oneHi then .one
  else if cfg.preLo < d ∧ d < cfg.preHi then .preamble
  else .invalid

/-- `classify(d)` (R101): total, and the measured duration is kept. -/
def classify (cfg : Config) (d : Nanos) : Pulse := ⟨classifyCategory cfg d.toNat, d⟩

/-- Whether a pulse carries a bit (R73, R100). -/
def isBit (p : Pulse) : Bool :=
  match p.cat with
  | .zero | .one => true
  | .preamble | .invalid => false

/-- `bit(p)` (R104): the bit of a bit pulse; NOT_A_BIT for a Preamble or Invalid pulse. -/
def bit (p : Pulse) : Except FaultCause Bool :=
  match p.cat with
  | .zero => .ok false
  | .one => .ok true
  | .preamble | .invalid => .error .notABit

/-- The bits of a sequence, every pulse checked before any bit is used; the lowest-indexed pulse that is no
bit pulse raises NOT_A_BIT (R105, R169, R171, R224). -/
def bits (s : List Pulse) : Except FaultCause (List Bool) := s.mapM bit

/-- A byte from its bits, the first of them the most significant (R53, R105). -/
def packBits (bs : List Bool) : Byte :=
  BitVec.ofNat 8 (bs.foldl (fun acc b => 2 * acc + b.toNat) 0)

/-- `chunks8(s)` (R11): consecutive 8-element slices of a sequence whose length is a multiple of 8. -/
def chunks8 {α : Type} : List α → List (List α)
  | a :: b :: c :: d :: e :: f :: g :: h :: rest => [a, b, c, d, e, f, g, h] :: chunks8 rest
  | _ => []

/-- The bytes of a pulse sequence, chunk by chunk (R169, R171). The caller has checked that its length is
a multiple of 8. -/
def packBytes (s : List Pulse) : Except FaultCause (List Byte) :=
  (bits s).map fun bs => (chunks8 bs).map packBits

/-- `p2b(s)` (R105): the length first, then the pulses. -/
def p2b (s : List Pulse) : Except FaultCause Byte :=
  if s.length ≠ 8 then .error .badLength else (bits s).map packBits

/-- The nominal bit pulse of a bit: µs scaled to ns (R107). -/
def nominalPulse (cfg : Config) (b : Bool) : Pulse :=
  if b then ⟨.one, BitVec.ofNat 64 (cfg.nomOneUs * 1000)⟩
  else ⟨.zero, BitVec.ofNat 64 (cfg.nomZeroUs * 1000)⟩

/-- `b2p(b)` (R107): pulse i carries bit 7 − i. -/
def b2p (cfg : Config) (b : Byte) : List Pulse :=
  (List.range 8).map fun i => nominalPulse cfg (b.getLsbD (7 - i))

/-- CLASSIFY (R102). -/
def execClassify (d : Nanos) (s : State) : Host.Outcome State Fault Refusal :=
  .next (s.unlessFaulted fun s => s.respond .ok (.pulse (classify s.cfg d)))

/-- P2B (R106). -/
def execP2b (pv : List Pulse) (s : State) : Host.Outcome State Fault Refusal :=
  .next (s.unlessFaulted fun s => s.answer .p2b ((p2b pv).map .byte))

/-- B2P (R108). -/
def execB2p (b : Byte) (s : State) : Host.Outcome State Fault Refusal :=
  .next (s.unlessFaulted fun s => s.respond .ok (.pulses (b2p s.cfg b)))

end Sys2Proof.Machine
end

