-- ==== Sys2Proof/Machine/EdgeDecoder.lean ====
section
/-! DEFINITION. The edge batching decoder and the status register: EDGE, TICK, ABORT, LINE_FAULT, STATUS
(43_edge_decoder.md), and the reserved opcode (30_encoding.md R80). -/

namespace Sys2Proof.Machine

/-- The interval from the most recent edge of either type to `ts`, exact (R193). -/
def State.interval (s : State) (ts : Nanos) : Nanos :=
  BitVec.ofNat 64 (ts.toNat - s.lastEdgeTime.toNat)

/-- The pulse an edge yields: a falling edge that is not the first edge seen yields one (R191, R192, R195). -/
def State.edgePulse (s : State) (e : EdgeType) (ts : Nanos) : Option Pulse :=
  if e = .falling ∧ s.seenEdge = true then some (classify s.cfg (s.interval ts)) else none

/-- An edge processed while Running with a timestamp in order (R191). -/
def State.processEdge (s : State) (e : EdgeType) (ts : Nanos) : State :=
  match s.edgePulse e ts with
  | some p => (s.append p).markEdge ts
  | none => s.markEdge ts

/-- Whether the quiet period after the last edge is over and there is something to deliver; exact arithmetic,
strict comparison (R196). -/
def State.flushDue (s : State) (now : Nanos) : Bool :=
  decide (0 < s.pending.length ∧ s.lastEdgeTime.toNat + s.cfg.idleNs < now.toNat)

/-- EDGE (R191): `run_state` is checked before the timestamp (R224). -/
def execEdge (e : EdgeType) (ts : Nanos) (s : State) : Host.Outcome State Fault Refusal :=
  .next (s.unlessFaulted fun s =>
    if s.runState ≠ .running then s.respond .stopped .none
    else if ts.toNat < s.lastEdgeTime.toNat then s.raise .nonmonotonicTs .edge
    else (s.processEdge e ts).respond .ok .none)

/-- TICK (R196). -/
def execTick (now : Nanos) (s : State) : Host.Outcome State Fault Refusal :=
  .next (s.unlessFaulted fun s =>
    if s.runState ≠ .running then s.respond .stopped .none
    else (if s.flushDue now then s.flush else s).respond .ok .none)

/-- ABORT (R198): `pending` is kept and not delivered. -/
def execAbort (s : State) : Host.Outcome State Fault Refusal :=
  .next (s.unlessFaulted fun s => (s.endLoop .aborted).respond .ok .none)

/-- LINE_FAULT (R199): a recoverable error, not a fatal fault (R228). -/
def execLineFault (s : State) : Host.Outcome State Fault Refusal :=
  .next (s.unlessFaulted fun s => (s.endLoop .lineFailed).respond .ok .none)

/-- STATUS (R200): the one request that is served while faulted (R83, R226). -/
def execStatus (s : State) : Host.Outcome State Fault Refusal :=
  .next (s.respond .ok (.word s.statusWord))

/-- Opcode 0xF (R80): raises ILLEGAL_OP and has no other effect, whatever the other header bits and the
operands are. -/
def execReserved (_rest : BitVec 28) (_operands : Bundle) (s : State) :
    Host.Outcome State Fault Refusal :=
  .next (s.unlessFaulted fun s => s.raise .illegalOp .reserved)

end Sys2Proof.Machine
end

