-- ==== Sys2Proof/Machine/FrameCodec.lean ====
section
/-! DEFINITION. The frame codec and checksum validator: ASSEMBLE, TIMING, VALIDATE, CHECKSUM, F2R
(42_frame_codec.md). -/

namespace Sys2Proof.Machine

/-- FRAME_PULSES (R9). -/
abbrev framePulses : Nat := 48

/-- CAPTURE_BITS (R9). -/
abbrev captureBits : Nat := 96

/-- `assemble(r)` (R160): each byte in wire order, then its complement. -/
def assemble (cfg : Config) (r : Record) : List Pulse :=
  (Record.bytes r).flatMap fun b => b2p cfg b ++ b2p cfg (~~~b)

/-- `us(p)` (R163): the nominal duration in µs. R163 never applies it to an Invalid pulse, so that has none. -/
def us (cfg : Config) (p : Pulse) : Option Micros :=
  match p.cat with
  | .one => some (BitVec.ofNat 32 cfg.nomOneUs)
  | .zero => some (BitVec.ofNat 32 cfg.nomZeroUs)
  | .preamble => some (BitVec.ofNat 32 cfg.nomPreUs)
  | .invalid => none

/-- GAP_US as a timing entry. -/
def gap (cfg : Config) : Micros := BitVec.ofNat 32 cfg.gapUs

/-- `rep(fr)` (R164): two preamble pulses and a gap, then every symbol followed by a gap. -/
def rep (cfg : Config) (fr : List Pulse) : List Micros :=
  [BitVec.ofNat 32 cfg.nomPreUs, BitVec.ofNat 32 cfg.nomPreUs, gap cfg] ++
    fr.flatMap fun p => match us cfg p with
      | some u => [u, gap cfg]
      | none => []

/-- `timing(r)` (R165): two repetitions with one separator between them, and nothing after. -/
def timing (cfg : Config) (r : Record) : List Micros :=
  rep cfg (assemble cfg r) ++ [BitVec.ofNat 32 cfg.sepUs] ++ rep cfg (assemble cfg r)

/-- `validate(s)` (R167): keep the bit pulses, require 96 of them, compare the halves' categories, answer the
first half with its captured durations. -/
def validate (s : List Pulse) : Option (List Pulse) :=
  let b := s.filter isBit
  if b.length ≠ captureBits then none
  else
    let h1 := b.take framePulses
    let h2 := b.drop framePulses
    if h1.map (·.cat) = h2.map (·.cat) then some h1 else none

/-- `byte[2i] == ~byte[2i+1]` for the byte pairs of a frame (R169). -/
def pairsComplement : List Byte → Bool
  | [] => true
  | b :: c :: rest => b == ~~~c && pairsComplement rest
  | [_] => false

/-- `checksum(f)` (R169): length, then pulses, then the inversion property. -/
def checksum (f : List Pulse) : Except FaultCause Bool :=
  if f.length ≠ framePulses then .error .badLength else (packBytes f).map pairsComplement

/-- The record of 3 bytes, or of the non-inverted ones of 6 (R171). A capture that passed F2R's length check has
3 or 6 bytes; for another number of bytes the length fault of R171 is the answer. -/
def recordOfBytes : List Byte → Except FaultCause Record
  | [f, a, t] => .ok (mkRecord f a t)
  | [f, _, a, _, t, _] => .ok (mkRecord f a t)
  | _ => .error .badLength

/-- `f2r(s)` (R171): length, then every pulse of every chunk, then the non-inverted bytes. -/
def f2r (s : List Pulse) : Except FaultCause Record :=
  if s.length ≠ 24 ∧ s.length ≠ framePulses then .error .badLength
  else match packBytes s with
    | .ok bs => recordOfBytes bs
    | .error c => .error c

/-- ASSEMBLE (R161). -/
def execAssemble (r : Record) (s : State) : Host.Outcome State Fault Refusal :=
  .next (s.unlessFaulted fun s => s.respond .ok (.pulses (assemble s.cfg r)))

/-- TIMING (R166). -/
def execTiming (r : Record) (s : State) : Host.Outcome State Fault Refusal :=
  .next (s.unlessFaulted fun s => s.respond .ok (.timing (timing s.cfg r)))

/-- VALIDATE (R168): a malformed capture is ABSENT, not a fault. -/
def execValidate (pv : List Pulse) (s : State) : Host.Outcome State Fault Refusal :=
  .next (s.unlessFaulted fun s =>
    match validate pv with
    | some f => s.respond .ok (.pulses f)
    | none => s.respond .absent .none)

/-- CHECKSUM (R170): a false result is not a fault. -/
def execChecksum (pv : List Pulse) (s : State) : Host.Outcome State Fault Refusal :=
  .next (s.unlessFaulted fun s => s.answer .checksum ((checksum pv).map .bit))

/-- F2R (R172). -/
def execF2r (pv : List Pulse) (s : State) : Host.Outcome State Fault Refusal :=
  .next (s.unlessFaulted fun s => s.answer .f2r ((f2r pv).map .record))

end Sys2Proof.Machine
end

