-- ==== Sys2Proof/Machine/Dispatch.lean ====
section
/-! DEFINITION. Which meaning each instruction has: one arm per constructor of `Instr`. -/

namespace Sys2Proof.Machine

def exec (i : Instr) (s : State) : Host.Outcome State Fault Refusal :=
  match i with
  | .status => Sys2Proof.Machine.execStatus s
  | .classify d => Sys2Proof.Machine.execClassify d s
  | .p2b pv => Sys2Proof.Machine.execP2b pv s
  | .b2p b => Sys2Proof.Machine.execB2p b s
  | .encode c => Sys2Proof.Machine.execEncode c s
  | .decode r => Sys2Proof.Machine.execDecode r s
  | .assemble r => Sys2Proof.Machine.execAssemble r s
  | .timing r => Sys2Proof.Machine.execTiming r s
  | .validate pv => Sys2Proof.Machine.execValidate pv s
  | .checksum pv => Sys2Proof.Machine.execChecksum pv s
  | .f2r pv => Sys2Proof.Machine.execF2r pv s
  | .edge e ts => Sys2Proof.Machine.execEdge e ts s
  | .tick now => Sys2Proof.Machine.execTick now s
  | .abort => Sys2Proof.Machine.execAbort s
  | .lineFault => Sys2Proof.Machine.execLineFault s
  | .reserved rest operands => Sys2Proof.Machine.execReserved rest operands s

end Sys2Proof.Machine
end

