-- ==== Sys2Proof/Machine/Agents.lean ====
section
/-! DEFINITION. Serving a request, and the turns of the agents that issue requests: the host, the edge source
and the platform timer (10_state.md R20, 30_encoding.md R83, R87, R88). -/

namespace Sys2Proof.Machine

/-- A request the decoder rejects (R83): while faulted it is answered as every request is then, STATUS by its
all-zero header (log 11); otherwise the header checks raise ILLEGAL_ENCODING with the header's opcode. A bundle of
another shape or width than a legal header selects is no request (log 3). -/
def rejectRequest (e : DecodeError) (r : Request) (s : State) : Host.Outcome State Fault Refusal :=
  if s.faulted then
    if r.header = 0#32 then execStatus s else .next (s.respond .faulted .none)
  else match e with
    | .reservedBits | .edgeBit | .countBits => .next (s.raise .illegalEncoding (Header.opcode r.header))
    | .bundleShape => .fault .bundleShape

/-- Serves one request: decode it, then run the instruction or reject it (R83). An instruction whose durations or
times are wider than TS_WIDTH is no request (log 3). -/
def serve (r : Request) (s : State) : Host.Outcome State Fault Refusal :=
  match decode r with
  | .ok i => if i.inWidth s.cfg then exec i s else rejectRequest .bundleShape r s
  | .error e => rejectRequest e r s

/-- The request a host task issues: the stages of SEND and RECEIVE_CHECK (R87, R88). Taking a burst issues none. -/
def HostTask.issue : HostTask → Option Request
  | .request r => some r
  | .send c => some (encode (.encode c))
  | .receiveCheck pv => some (encode (.validate pv))
  | .receiveChecksum f => some (encode (.checksum f))
  | .receiveRecord f => some (encode (.f2r f))
  | .receiveDecode r => some (encode (.decode r))
  | .acceptBurst => none

/-- What the host does next, given its task and the response to it. SEND goes on to TIMING only if ENCODE
answered OK (R87); RECEIVE_CHECK drops the burst on ABSENT or a checksum of 0 (R88). DESIGN CHOICE (log 12): R88
does not say what the host does when a stage of RECEIVE_CHECK is answered FAULTED, because the block was faulted
before it or another agent's request faulted it between the stages; the pipeline then ends, and no further stage
is issued. -/
def HostTask.next : HostTask → Response → List HostTask
  | .send _, ⟨.ok, .record r⟩ => [.request (encode (.timing r))]
  | .receiveCheck _, ⟨.ok, .pulses f⟩ => [.receiveChecksum f]
  | .receiveChecksum f, ⟨.ok, .bit true⟩ => [.receiveRecord f]
  | .receiveRecord _, ⟨.ok, .record r⟩ => [.receiveDecode r]
  | _, _ => []

/-- The host reads the response to its task and puts what follows in front of its tasks (log 12). -/
def State.continueHost (s : State) (t : HostTask) : State :=
  match s.responses.getLast? with
  | some resp => { s with hostTasks := t.next resp ++ s.hostTasks }
  | none => s

/-- The host takes the oldest burst it has not taken, and RECEIVE_CHECK of its pulses comes before its other tasks,
`rest` (R20(b), R88, R231). While there is none the host waits with this task (log 18). -/
def State.takeBurst (s : State) (rest : List HostTask) : State :=
  match s.out[s.burstsTaken]? with
  | some b => { s with burstsTaken := s.burstsTaken + 1, hostTasks := .receiveCheck b.pulses :: rest }
  | none => s

/-- The host's turn: it issues the request of its first task, or takes a burst. With no task it issues none
(log 14). -/
def hostTurn (s : State) : Host.Outcome State Fault Refusal :=
  match s.hostTasks with
  | [] => .next s
  | t :: rest =>
    match t.issue with
    | none => .next (s.takeBurst rest)
    | some r =>
      match serve r { s with hostTasks := rest } with
      | .next s' => .next (s'.continueHost t)
      | .fault f => .fault f
      | .refused r => .refused r

/-- The request of a line event (R234): an edge as EDGE, a line failure as LINE_FAULT. -/
def LineEvent.issue : LineEvent → Request
  | .edge e ts => encode (.edge e ts)
  | .failure => encode .lineFault

/-- The edge source's turn: its next event, if any (R20(c)). -/
def edgeSourceTurn (s : State) : Host.Outcome State Fault Refusal :=
  match s.lineEvents with
  | [] => .next s
  | v :: rest => serve v.issue { s with lineEvents := rest }

/-- The platform timer's turn (R20(d), R233): a TICK at its time, and the next one a period later. A time that
does not fit TS_WIDTH bits is outside the model (R260, U15; log 6). -/
def timerTurn (s : State) : Host.Outcome State Fault Refusal :=
  if 2 ^ s.cfg.tsWidth ≤ s.timerNext then .refused .clockWrap
  else
    serve (encode (.tick (BitVec.ofNat 64 s.timerNext)))
      { s with timerNext := s.timerNext + s.cfg.tickPeriodNs }

/-- One place of the merged stream: a request or an agent's turn, or the reset input between requests
(R7, R20, R250). -/
def arrive (a : Arrival) (s : State) : Host.Outcome State Fault Refusal :=
  match a with
  | .request r => serve r s
  | .reset => .next s.applyReset
  | .host => hostTurn s
  | .edgeSource => edgeSourceTurn s
  | .timer => timerTurn s

end Sys2Proof.Machine
end

