-- ==== Sys2Proof/Machine/Step.lean ====
section
/-! DEFINITION. One step: the block takes the next place of the merged request stream and serves it atomically
(00_scope.md R7, 20_memory.md R57, R59). -/

namespace Sys2Proof.Machine

/-- One step: the next place of the stream is served. With nothing left in the stream the block holds its state
(60_exceptions.md R237). -/
def step (s : State) : Host.Outcome State Fault Refusal :=
  match s.remaining with
  | [] => .next s
  | a :: _ => arrive a s.advance

/-- The state whose very next step serves the request of an opcode-table word: the request stands at the next place
of the stream, before what was there, and stands for the requester that issues it (log 2). -/
def State.withFetchWord (s : State) (nbits w : Nat) : State :=
  let served := s.stream.take s.position
  { s with stream := served ++ .request (tableRequest nbits w) :: s.remaining, position := served.length }

end Sys2Proof.Machine
end

