-- ==== Sys2Proof/Machine/Assembler.lean ====
section
/-! DEFINITION. The textual form of the request stream (30_encoding.md R86), with the pseudo-operations SEND and
RECEIVE_CHECK (R87, R88): a line is read as one task of the host. What R86 leaves open of the layout is in log 13. -/

namespace Sys2Proof.Machine

/-- The tokens of a line. -/
inductive Token where
  | word (cs : List Char)
  | quoted (cs : List Char)
  | comma | lbracket | rbracket | lparen | rparen | colon | plus
deriving DecidableEq, Repr

/-- The token of a punctuation character. -/
def symbolToken (c : Char) : Option Token :=
  if c = ',' then some .comma
  else if c = '[' then some .lbracket
  else if c = ']' then some .rbracket
  else if c = '(' then some .lparen
  else if c = ')' then some .rparen
  else if c = ':' then some .colon
  else if c = '+' then some .plus
  else none

/-- The double quote character. -/
def quoteChar : Char := Char.ofNat 34

/-- The pending word, read in reverse, as a token. -/
def endWord (cur : List Char) : List Token :=
  if cur = [] then [] else [.word cur.reverse]

/-- Splits a line into tokens; `cur` is the word being read, reversed, and `inQuote` tells whether it is
quoted. None on a character that no token holds, or an unclosed quote. -/
def lex (cur : List Char) (inQuote : Bool) : List Char → Option (List Token)
  | [] => if inQuote then none else some (endWord cur)
  | c :: cs =>
    if inQuote then
      if c = quoteChar then (lex [] false cs).map (.quoted cur.reverse :: ·)
      else lex (c :: cur) true cs
    else if c = quoteChar then (lex [] true cs).map (endWord cur ++ ·)
    else if c.isAlphanum || c = '_' then lex (c :: cur) false cs
    else if c = ' ' || c = '\t' || c = '\r' then (lex [] false cs).map (endWord cur ++ ·)
    else match symbolToken c with
      | some t => (lex [] false cs).map (endWord cur ++ t :: ·)
      | none => none

/-- The value of a digit in a base. -/
def digit (base : Nat) (c : Char) : Option Nat :=
  let v :=
    if '0' ≤ c ∧ c ≤ '9' then c.toNat - 48
    else if 'a' ≤ c ∧ c ≤ 'f' then c.toNat - 87
    else if 'A' ≤ c ∧ c ≤ 'F' then c.toNat - 55
    else base
  if v < base then some v else none

/-- A nonempty digit string in a base, `_` separating digits. -/
def digits (base : Nat) (cs : List Char) : Option Nat :=
  match (cs.filter (· ≠ '_')).mapM (digit base) with
  | some (d :: ds) => some ((d :: ds).foldl (fun acc v => base * acc + v) 0)
  | _ => none

/-- A number: decimal, `0x` hex or `0b` binary (R86). -/
def number : List Char → Option Nat
  | '0' :: 'x' :: cs => digits 16 cs
  | '0' :: 'b' :: cs => digits 2 cs
  | cs => digits 10 cs

/-- A number that fits an operand of `w` bits (R72). -/
def operand (w : Nat) (cs : List Char) : Option (BitVec w) :=
  match number cs with
  | some v => if v < 2 ^ w then some (BitVec.ofNat w v) else none
  | none => none

/-- The category letters of R86. -/
def categoryOf (cs : List Char) : Option Category :=
  if cs = ['Z'] then some .zero
  else if cs = ['O'] then some .one
  else if cs = ['P'] then some .preamble
  else if cs = ['I'] then some .invalid
  else none

/-- The duration of a pulse written without one (R86). -/
def defaultDuration (cfg : Config) : Category → Nanos
  | .zero => BitVec.ofNat 64 (cfg.nomZeroUs * 1000)
  | .one => BitVec.ofNat 64 (cfg.nomOneUs * 1000)
  | .preamble => BitVec.ofNat 64 (cfg.nomPreUs * 1000)
  | .invalid => 0#64

/-- A pulse from its letter and its optional duration (R86). -/
def pulseOf (cfg : Config) (letter : List Char) (dur : Option (List Char)) : Option Pulse :=
  match categoryOf letter, dur with
  | some c, none => some ⟨c, defaultDuration cfg c⟩
  | some c, some d => (operand 64 d).map fun d => ⟨c, d⟩
  | none, _ => none

/-- Puts a parsed pulse in front of the pulses parsed after it. -/
def consPulse (p : Option Pulse) (r : Option (List Pulse × List Token)) :
    Option (List Pulse × List Token) :=
  match p, r with
  | some p, some (ps, rest) => some (p :: ps, rest)
  | _, _ => none

/-- The pulses of a nonempty bracketed list, up to its closing bracket. -/
def pulseItems (cfg : Config) : List Token → Option (List Pulse × List Token)
  | .word p :: .comma :: r => consPulse (pulseOf cfg p none) (pulseItems cfg r)
  | .word p :: .rbracket :: r => consPulse (pulseOf cfg p none) (some ([], r))
  | .word p :: .lparen :: .word d :: .rparen :: .comma :: r =>
    consPulse (pulseOf cfg p (some d)) (pulseItems cfg r)
  | .word p :: .lparen :: .word d :: .rparen :: .rbracket :: r =>
    consPulse (pulseOf cfg p (some d)) (some ([], r))
  | _ => none

/-- The bit pulses of a bit string, the first character first on the wire; spaces are skipped (R86). -/
def bitString (cfg : Config) (cs : List Char) : Option (List Pulse) :=
  (cs.filter (· ≠ ' ')).mapM fun c =>
    if c = '0' then some (nominalPulse cfg false)
    else if c = '1' then some (nominalPulse cfg true)
    else none

/-- One bracketed list or bit string. -/
def pulseAtom (cfg : Config) : List Token → Option (List Pulse × List Token)
  | .lbracket :: .rbracket :: r => some ([], r)
  | .lbracket :: r => pulseItems cfg r
  | .word ['b', 'i', 't', 's'] :: .quoted cs :: r => (bitString cfg cs).map (·, r)
  | _ => none

/-- `<pulses>`: lists and bit strings joined by `++` (R11, R86), to the end of the line; at most `fuel` of
them, which the caller sets to the line's length. -/
def pulseSequence (cfg : Config) : Nat → List Token → Option (List Pulse)
  | 0, _ => none
  | fuel + 1, ts =>
    match pulseAtom cfg ts with
    | some (ps, []) => some ps
    | some (ps, .plus :: .plus :: r) => (pulseSequence cfg fuel r).map (ps ++ ·)
    | _ => none

/-- `<pulses>` of at most 65535 pulses, the most a header can count (R79). -/
def pulsesOperand (cfg : Config) (ts : List Token) : Option (List Pulse) :=
  match pulseSequence cfg (ts.length + 1) ts with
  | some ps => if ps.length ≤ maxVector then some ps else none
  | none => none

/-- One byte of a record written in wire order, in hex without a marker (R86). -/
def hexByte (cs : List Char) : Option Byte :=
  match digits 16 cs with
  | some v => if v < 256 then some (BitVec.ofNat 8 v) else none
  | none => none

/-- `<rec>`: a 24-bit number, or three bytes in wire order (R86). -/
def recordOperand : List Token → Option Record
  | [.word cs] => operand 24 cs
  | [.word f, .colon, .word a, .colon, .word t] =>
    match hexByte f, hexByte a, hexByte t with
    | some f, some a, some t => some (mkRecord f a t)
    | _, _, _ => none
  | _ => none

/-- The power keywords. -/
def powerOf (cs : List Char) : Option Bool :=
  if cs = "on".toList then some true
  else if cs = "off".toList then some false
  else none

/-- The mode keywords; `fan` is FanOnly (R86). -/
def modeKeyword (cs : List Char) : Option Mode :=
  if cs = "cool".toList then some .cool
  else if cs = "heat".toList then some .heat
  else if cs = "dry".toList then some .dry
  else if cs = "auto".toList then some .auto
  else if cs = "fan".toList then some .fanOnly
  else none

/-- The fan keywords. -/
def fanKeyword (cs : List Char) : Option Fan :=
  if cs = "auto".toList then some .auto
  else if cs = "low".toList then some .low
  else if cs = "medium".toList then some .medium
  else if cs = "high".toList then some .high
  else none

/-- The four fields of ENCODE and SEND as a format-L word. -/
def commandOperand : List Token → Option CommandWord
  | [.word p, .comma, .word m, .comma, .word f, .comma, .word d] =>
    match powerOf p, modeKeyword m, fanKeyword f, operand 5 d with
    | some p, some m, some f, some d => some (packCommand ⟨p, m, f, d⟩)
    | _, _, _, _ => none
  | _ => none

/-- The edge type keywords. -/
def edgeKeyword (cs : List Char) : Option EdgeType :=
  if cs = "rise".toList then some .rising
  else if cs = "fall".toList then some .falling
  else none

/-- The fields of EDGE. -/
def edgeOperands : List Token → Option Instr
  | [.word e, .comma, .word t] =>
    match edgeKeyword e, operand 64 t with
    | some e, some t => some (.edge e t)
    | _, _ => none
  | _ => none

/-- A line that takes one number of `w` bits. -/
def numberOperand (w : Nat) : List Token → Option (BitVec w)
  | [.word cs] => operand w cs
  | _ => none

/-- A line that takes no operand. -/
def noOperand (i : Instr) : List Token → Option Instr
  | [] => some i
  | _ => none

/-- The instruction of a mnemonic and its operand tokens (R86). -/
def parseInstr (cfg : Config) (mnemonic : List Char) (ts : List Token) : Option Instr :=
  if mnemonic = "STATUS".toList then noOperand .status ts
  else if mnemonic = "CLASSIFY".toList then (numberOperand 64 ts).map .classify
  else if mnemonic = "P2B".toList then (pulsesOperand cfg ts).map .p2b
  else if mnemonic = "B2P".toList then (numberOperand 8 ts).map .b2p
  else if mnemonic = "ENCODE".toList then (commandOperand ts).map .encode
  else if mnemonic = "DECODE".toList then (recordOperand ts).map .decode
  else if mnemonic = "ASSEMBLE".toList then (recordOperand ts).map .assemble
  else if mnemonic = "TIMING".toList then (recordOperand ts).map .timing
  else if mnemonic = "VALIDATE".toList then (pulsesOperand cfg ts).map .validate
  else if mnemonic = "CHECKSUM".toList then (pulsesOperand cfg ts).map .checksum
  else if mnemonic = "F2R".toList then (pulsesOperand cfg ts).map .f2r
  else if mnemonic = "EDGE".toList then edgeOperands ts
  else if mnemonic = "TICK".toList then (numberOperand 64 ts).map .tick
  else if mnemonic = "ABORT".toList then noOperand .abort ts
  else if mnemonic = "LINE_FAULT".toList then noOperand .lineFault ts
  else none

/-- The task of a tokenised line: a pseudo-operation (R87, R88) or one request. -/
def parseTokens (cfg : Config) : List Token → Option HostTask
  | .word m :: ts =>
    if m = "SEND".toList then (commandOperand ts).map .send
    else if m = "RECEIVE_CHECK".toList then (pulsesOperand cfg ts).map .receiveCheck
    else (parseInstr cfg m ts).map fun i => .request (encode i)
  | _ => none

/-- One line of the textual form, as a task of the host (R86). -/
def parseLine (cfg : Config) (line : List Char) : Option HostTask :=
  match lex [] false line with
  | some ts => parseTokens cfg ts
  | none => none

/-- The lines of a text. -/
def splitLines : List Char → List (List Char)
  | [] => [[]]
  | c :: cs =>
    if c = '\n' then [] :: splitLines cs
    else match splitLines cs with
      | l :: ls => (c :: l) :: ls
      | [] => [[c]]

/-- A text, one request per line (R86); blank lines are skipped. -/
def parseText (cfg : Config) (text : List Char) : Option (List HostTask) :=
  ((splitLines text).filter fun l => l.any fun c => c ≠ ' ' ∧ c ≠ '\t' ∧ c ≠ '\r').mapM (parseLine cfg)

end Sys2Proof.Machine
end

