-- ==== Sys2Proof/Safety.lean ====
section
/-! DEFINITION. What a good state and a good run are, in the terms statements use: the invariant of the block's
record, the duties of the edge source, and what the decoder has delivered. -/

namespace Sys2Proof.Machine

/-- The next state of an outcome, if it is one. -/
def nextState? : Host.Outcome State Fault Refusal → Option State
  | .next s => some s
  | .fault _ => none
  | .refused _ => none

/-- The block is healthy: no fatal fault is recorded (R29). -/
abbrev State.healthy (s : State) : Prop := s.faultCause = 0#4

/-- The pairs of fault cause and opcode that `raise` can record (R222, R223); no fault goes with opcode 0 (R29). -/
def faultPairOk (cause op : Nibble) : Bool :=
  match cause.toNat with
  | 0 => op == 0#4
  | 1 => op == 0xF#4
  | 2 => op != 0xF#4
  | 3 | 4 => op == 0x2#4 || op == 0x9#4 || op == 0xA#4
  | 5 => op == 0x4#4
  | 6 => op == 0xB#4
  | _ => false

/-- A pulse whose category is the one its duration classifies as (R101, R193). -/
def measured (cfg : Config) (p : Pulse) : Bool := p == classify cfg p.dur

/-- A burst as the decoder emits it: not empty, within capacity, full if a pulse was dropped, and of measured
pulses (R201). -/
def Burst.ok (cfg : Config) (b : Burst) : Bool :=
  !b.pulses.isEmpty && decide (b.pulses.length ≤ cfg.pendingCap) &&
    (!b.ovf || decide (b.pulses.length = cfg.pendingCap)) && b.pulses.all (measured cfg)

/-- The invariant of the machine: an admitted configuration, the block's record and output as it allows them, and
the places of the stream and of `out` that come next. -/
structure State.Inv (s : State) : Prop where
  /-- The configuration is one the spec admits (R8, R138; its widths by log 9). -/
  admitted : s.cfg.ok
  /-- `pending` never exceeds its capacity (R25). -/
  withinCap : s.pending.length ≤ s.cfg.pendingCap
  /-- `pending_ovf` is set only while the accumulator is full (R26, R194, R196). -/
  ovfFull : s.pendingOvf = true → s.pending.length = s.cfg.pendingCap
  /-- Before the first edge nothing is pending and no time is recorded (R27, R192, R34). -/
  unseenEmpty : s.edgeCount = 0#32 → s.pending = [] ∧ s.lastEdgeTime = 0#64
  /-- `edge_count` is within EC_WIDTH bits (R8, R27). -/
  countFits : s.edgeCount.toNat ≤ s.cfg.edgeCountMax
  /-- `last_edge_time` is within TS_WIDTH bits (R8, R24). -/
  timeFits : s.lastEdgeTime.toNat < 2 ^ s.cfg.tsWidth
  /-- Every pending pulse is a measured one, within TS_WIDTH bits (R8, R193, R194). -/
  pendingMeasured : ∀ p ∈ s.pending, measured s.cfg p = true ∧ p.dur.toNat < 2 ^ s.cfg.tsWidth
  /-- The fault register holds a pair that the fault table allows (R29, R222, R223). -/
  faultPair : faultPairOk s.faultCause s.faultOp = true
  /-- Every emitted burst is one the decoder may emit (R201). -/
  burstsOk : ∀ b ∈ s.out, Burst.ok s.cfg b = true
  /-- The host has taken only bursts that were emitted (R231; log 18). -/
  takenEmitted : s.burstsTaken ≤ s.out.length
  /-- The next place is in the stream or at its end (R22; log 1). -/
  placeInStream : s.position ≤ s.stream.length

/-- Every pulse the decoder has taken up and still holds or has delivered, in order (R201). -/
def State.delivered (s : State) : List Pulse := s.out.flatMap (·.pulses) ++ s.pending

/-- The edge source's duty (R252(c), R260): its timestamps from `t` on do not decrease. -/
def lineOrdered (t : Nat) : List LineEvent → Bool
  | [] => true
  | .edge _ ts :: rest => decide (t ≤ ts.toNat) && lineOrdered ts.toNat rest
  | .failure :: rest => lineOrdered t rest

/-- The pulses a list of edges yields after an edge at time `last` (R191, R193, R195): one for every falling edge, the
classified interval since the edge before it. -/
def edgePulses (cfg : Config) (last : Nat) : List (EdgeType × Nanos) → List Pulse
  | [] => []
  | (.rising, ts) :: rest => edgePulses cfg ts.toNat rest
  | (.falling, ts) :: rest =>
    classify cfg (BitVec.ofNat 64 (ts.toNat - last)) :: edgePulses cfg ts.toNat rest

/-- Timestamps from `last` on that do not decrease. -/
def edgesOrdered (last : Nat) : List (EdgeType × Nanos) → Bool
  | [] => true
  | (_, ts) :: rest => decide (last ≤ ts.toNat) && edgesOrdered ts.toNat rest

/-- The time of edge i of a transmission of record `r` whose first edge is at `t0` ns: the entries of the timing list
before it, in µs, have passed (95_test_vectors.md program P3). -/
def transmissionTime (cfg : Config) (r : Record) (t0 i : Nat) : Nat :=
  t0 + 1000 * (((timing cfg r).map (·.toNat)).take i).sum

/-- The 200 edges of a transmission with the polarity of 95_test_vectors.md program P3: the line falls at the start of
each even-indexed entry of the timing list and rises at the start of each odd-indexed one, and after the last. -/
def transmissionEdges (cfg : Config) (r : Record) (t0 : Nat) : List (EdgeType × Nanos) :=
  (List.range 200).map fun i =>
    (if i % 2 = 0 then .falling else .rising, BitVec.ofNat 64 (transmissionTime cfg r t0 i))

end Sys2Proof.Machine
end

