-- ==== Sys2Proof/Certificates/Slice0/Obligations.lean ====
section
/-! DEFINITION. The statements for the provers. Each names the rule of spec/ it formalises; one that rests on a choice
of the model says so and names the log entry. -/

open Sys2Proof Sys2Proof.Machine

/-! ### The request interface -/

/-- R7, R59, R83: serving the request at the next place of the stream is running the instruction it decodes to, at the
state that has moved on to the place after it; a request the interface carries has operands within TS_WIDTH bits (R8,
log 3). The second clause says the same of a word of the opcode table placed by `withFetchWord` (log 2), which changes
only where the stream stands. -/
def Obligations.StepRunsDecodedInstruction : Prop :=
  (∀ (s : State) (r : Request) (rest : List Arrival) (i : Instr),
    s.remaining = .request r :: rest → decode r = .ok i → i.inWidth s.cfg = true →
      step s = exec i s.advance) ∧
  (∀ (s u : State) (nbits w : Nat) (i : Instr),
    u = (s.withFetchWord nbits w).advance → decodeTableWord nbits w = some i →
      step (s.withFetchWord nbits w) = exec i u ∧ u.remaining = s.remaining ∧
        u = { s with stream := u.stream, position := u.position })

/-- R237: while no request arrives the block holds its state, however many steps pass. -/
def Obligations.IdleBlockHoldsState : Prop :=
  ∀ (s : State) (k : Nat), s.remaining = [] → Host.Core.run core k s = .next s

/-- R20, R83, R233, R234 and the model's form of the agents' turns (logs 1, 3, 5, 6, 14): at its turn the edge source issues
its next edge as EDGE or its line failure as LINE_FAULT, the timer issues TICK at its time and moves on by one period, and
the host issues its next request, which is served as R83 says whether it decodes or not; an agent with nothing to issue
issues nothing. -/
def Obligations.AgentsIssueTheirRequests : Prop :=
  ∀ (s : State) (rest : List Arrival),
    (s.remaining = .edgeSource :: rest →
      (s.lineEvents = [] → step s = .next s.advance) ∧
      (∀ e ts more, s.lineEvents = .edge e ts :: more → ts.toNat < 2 ^ s.cfg.tsWidth →
        step s = exec (.edge e ts) { s.advance with lineEvents := more }) ∧
      (∀ e ts more, s.lineEvents = .edge e ts :: more → 2 ^ s.cfg.tsWidth ≤ ts.toNat → s.faultCause = 0#4 →
        step s = .fault .bundleShape) ∧
      (∀ more, s.lineEvents = .failure :: more →
        step s = exec .lineFault { s.advance with lineEvents := more })) ∧
    (s.remaining = .timer :: rest →
      (s.timerNext < 2 ^ s.cfg.tsWidth →
        step s = exec (.tick (BitVec.ofNat 64 s.timerNext))
          { s.advance with timerNext := s.timerNext + s.cfg.tickPeriodNs }) ∧
      (2 ^ s.cfg.tsWidth ≤ s.timerNext → step s = .refused .clockWrap)) ∧
    (s.remaining = .host :: rest →
      (s.hostTasks = [] → step s = .next s.advance) ∧
      ∀ (r : Request) (more : List HostTask) (u : State),
        s.hostTasks = .request r :: more → u = { s.advance with hostTasks := more } →
        (∀ i, decode r = .ok i → i.inWidth s.cfg = true → step s = exec i u) ∧
        (s.faultCause = 0#4 → checkHeader r.header ≠ none → step s = .next { u with
          faultCause := 2#4
          faultOp := r.header.extractLsb' 0 4
          responses := u.responses ++ [⟨.faulted, .none⟩] }) ∧
        (s.faultCause = 0#4 → checkHeader r.header = none →
          (r.operands.fits (Header.opcode r.header) (Header.n r.header).toNat = false ∨
            ∃ i, decode r = .ok i ∧ i.inWidth s.cfg = false) →
          step s = .fault .bundleShape) ∧
        (s.faultCause ≠ 0#4 → r.header = 0#32 → step s = .next { u with
          responses := u.responses ++ [⟨.ok, .word u.statusWord⟩] }) ∧
        (s.faultCause ≠ 0#4 → r.header ≠ 0#32 → step s = .next { u with
          responses := u.responses ++ [⟨.faulted, .none⟩] }))

/-- 10_state.md section 1 (the host consumes bursts) and 60_exceptions.md section 4, in the model's form (log 18): at its
turn a host whose next task is to take a burst takes the oldest burst of `out` it has not taken, and RECEIVE_CHECK of its
pulses becomes its next task; with no such burst it waits with that task. Nothing else takes a burst, so bursts are taken
in the order they were emitted and each at most once. -/
def Obligations.HostTakesBurstsInOrder : Prop :=
  (∀ (s : State) (rest : List Arrival) (more : List HostTask),
    s.remaining = .host :: rest → s.hostTasks = .acceptBurst :: more →
      (∀ b : Burst, s.out[s.burstsTaken]? = some b → step s = .next { s.advance with
        burstsTaken := s.burstsTaken + 1
        hostTasks := .receiveCheck b.pulses :: more }) ∧
      (s.out.length ≤ s.burstsTaken → step s = .next s.advance)) ∧
  (∀ s t : State, step s = .next t → t.burstsTaken ≠ s.burstsTaken →
    t.burstsTaken = s.burstsTaken + 1 ∧ t.burstsTaken ≤ s.out.length ∧
      ∃ (rest : List Arrival) (more : List HostTask),
        s.remaining = .host :: rest ∧ s.hostTasks = .acceptBurst :: more)

/-- R35: the configuration and the request stream are input, which no step writes. -/
def Obligations.InputIsNeverWritten : Prop :=
  ∀ s t : State, step s = .next t → t.cfg = s.cfg ∧ t.stream = s.stream

/-- R70 to R77: decoding the encoding of a well-formed instruction gives it back, every operand at every value. -/
def Obligations.DecodeInvertsEncode : Prop :=
  ∀ i : Instr, i.wf = true → decode (encode i) = .ok i

/-- R70 to R77: a request that decodes is the encoding of its instruction, so no bit of it is dropped, and that
instruction is well formed. -/
def Obligations.EncodeInvertsDecode : Prop :=
  ∀ (r : Request) (i : Instr), decode r = .ok i → i.wf = true ∧ encode i = r

/-- R77, R78: a header passes the header checks with a given opcode exactly when it has that opcode's match and mask
pattern in opcode_table.json, and no header is in two rows. -/
def Obligations.LegalHeadersAreTheTables : Prop :=
  (∀ (h : Header) (row : OpcodeRow), row ∈ opcodeTable →
    (h &&& row.mask = row.pattern ↔ checkHeader h = none ∧ (h.extractLsb' 0 4 : BitVec 4) = row.opcode.code)) ∧
  opcodeTable.Pairwise (fun a b => ∀ h : Header, ¬ (h &&& a.mask = a.pattern ∧ h &&& b.mask = b.pattern))

/-- R77: words written out bit by bit from the table's encodings decode to the instructions they stand for. -/
def Obligations.WrittenWordsDecode : Prop :=
  decode ⟨0b00000000000000000000000000000000#32, .none⟩ = .ok .status ∧
  decode ⟨0b00000000000000000000000000000001#32, .nanos 503000#64⟩ = .ok (.classify 503000#64) ∧
  decode ⟨0b00000000000000000000000000000100#32, .command 0x05B1#16⟩ = .ok (.encode 0x05B1#16) ∧
  decode ⟨0b00000000000000000000000000000111#32, .record 0xB23F70#24⟩ = .ok (.timing 0xB23F70#24) ∧
  decode ⟨0b00000000000000010000000000001000#32, .pulses [⟨0b10#2, 7#64⟩]⟩ =
    .ok (.validate [⟨.preamble, 7#64⟩]) ∧
  decode ⟨0b00000000000000000000000000011011#32, .nanos 9#64⟩ = .ok (.edge .falling 9#64) ∧
  decode ⟨0b00000000000000000000000000001110#32, .none⟩ = .ok .lineFault

/-- 30_encoding.md section 3 (R83's order): the decoding of a request, as one step does it. The operand bundle of the last
clause has the shape the header selects (R72); a bundle of another shape is `BundleOfAnotherShapeStops`. That an operand
wider than TS_WIDTH stops there is the model's choice (log 3, DESIGN CHOICE), not R83's. -/
def Obligations.RequestChecksInOrder : Prop :=
  ∀ (s t : State) (r : Request) (rest : List Arrival) (op : Nibble),
    s.remaining = .request r :: rest → t = s.advance → op = r.header.extractLsb' 0 4 →
    (t.faultCause ≠ 0#4 → op = 0x0#4 → r.header.extractLsb' 4 28 = 0#28 →
      step s = .next { t with responses := t.responses ++ [⟨.ok, .word t.statusWord⟩] }) ∧
    (t.faultCause ≠ 0#4 → ¬ (op = 0x0#4 ∧ r.header.extractLsb' 4 28 = 0#28) →
      step s = .next { t with responses := t.responses ++ [⟨.faulted, .none⟩] }) ∧
    (t.faultCause = 0#4 → op = 0xF#4 →
      step s = .next { t with
        faultCause := 1#4, faultOp := op, responses := t.responses ++ [⟨.faulted, .none⟩] }) ∧
    (t.faultCause = 0#4 → op ≠ 0xF#4 →
      (r.header.extractLsb' 5 11 ≠ 0#11 ∨
        (op ≠ 0xB#4 ∧ r.header.getLsbD 4 = true) ∨
        (op ≠ 0x2#4 ∧ op ≠ 0x8#4 ∧ op ≠ 0x9#4 ∧ op ≠ 0xA#4 ∧ r.header.extractLsb' 16 16 ≠ 0#16)) →
      step s = .next { t with
        faultCause := 2#4, faultOp := op, responses := t.responses ++ [⟨.faulted, .none⟩] }) ∧
    (t.faultCause = 0#4 → op ≠ 0xF#4 →
      r.header.extractLsb' 5 11 = 0#11 → (op ≠ 0xB#4 → r.header.getLsbD 4 = false) →
      (op ≠ 0x2#4 → op ≠ 0x8#4 → op ≠ 0x9#4 → op ≠ 0xA#4 → r.header.extractLsb' 16 16 = 0#16) →
      r.operands.fits (Header.opcode r.header) (Header.n r.header).toNat = true →
      ∃ i : Instr, decode r = .ok i ∧ i.opcode.code = op ∧
        (i.inWidth s.cfg = true → step s = exec i t) ∧
        (i.inWidth s.cfg = false → step s = .fault .bundleShape))

/-- The model's choice (log 3): a healthy block stops on a legal header whose operand bundle does not have the shape R72
gives it, or has a duration or time wider than TS_WIDTH; no such request exists on the interface. -/
def Obligations.BundleOfAnotherShapeStops : Prop :=
  ∀ (s : State) (r : Request) (rest : List Arrival),
    s.remaining = .request r :: rest → s.faultCause = 0#4 → checkHeader r.header = none →
    (r.operands.fits (Header.opcode r.header) (Header.n r.header).toNat = false ∨
      ∃ i, decode r = .ok i ∧ i.inWidth s.cfg = false) →
      step s = .fault .bundleShape

/-- R70, R84, R85: every request is answered with exactly one response, appended to those before it, and a response whose
status is not OK has no result. Every instruction completes. -/
def Obligations.OneResponsePerRequest : Prop :=
  ∀ (i : Instr) (s : State), ∃ (t : State) (resp : Response),
    exec i s = .next t ∧ t.responses = s.responses ++ [resp] ∧
      (resp.status ≠ .ok → resp.result = .none)

/-! ### Faults -/

/-- R80: opcode 0xF raises ILLEGAL_OP, whatever the other bits and the operands are, and has no other effect. -/
def Obligations.ReservedOpcodeRaisesIllegalOp : Prop :=
  ∀ (s : State) (h : Header) (b : Bundle), s.faultCause = 0#4 → h.extractLsb' 0 4 = 0xF#4 →
    decode ⟨h, b⟩ = .ok (.reserved (h.extractLsb' 4 28) b) ∧
    exec (.reserved (h.extractLsb' 4 28) b) s = .next { s with
      faultCause := 1#4, faultOp := 0xF#4, responses := s.responses ++ [⟨.faulted, .none⟩] }

/-- R226: while faulted, STATUS answers the status word, whose bit 0 is 1, and every other request answers FAULTED with no
effect, so no burst is emitted and edges are lost. -/
def Obligations.FaultedBlockServesOnlyStatus : Prop :=
  ∀ (s : State), s.faultCause ≠ 0#4 →
    (s.statusWord.getLsbD 0 = true ∧
      exec .status s = .next { s with responses := s.responses ++ [⟨.ok, .word s.statusWord⟩] }) ∧
    (∀ i : Instr, i ≠ .status →
      exec i s = .next { s with responses := s.responses ++ [⟨.faulted, .none⟩] })

/-- R227: the only exit from a fault is reset, which clears it together with every other field of the block's record;
any other step keeps the fault and that record. -/
def Obligations.OnlyResetClearsFault : Prop :=
  ∀ (s t : State), s.faultCause ≠ 0#4 → step s = .next t →
    (∀ rest, s.remaining = .reset :: rest →
      t.faultCause = 0#4 ∧ t.faultOp = 0#4 ∧ t.lastEdgeTime = 0#64 ∧ t.pending = [] ∧
        t.pendingOvf = false ∧ t.edgeCount = 0#32 ∧ t.runState = .running ∧ t.out = s.out) ∧
    ((∀ rest, s.remaining ≠ .reset :: rest) →
      t.faultCause = s.faultCause ∧ t.faultOp = s.faultOp ∧ t.lastEdgeTime = s.lastEdgeTime ∧
        t.pending = s.pending ∧ t.pendingOvf = s.pendingOvf ∧ t.edgeCount = s.edgeCount ∧
        t.runState = s.runState ∧ t.out = s.out)

/-- R225: fault entry saves only `fault_cause` and `fault_op`; the faulting request changes no other state and answers
FAULTED, and after it no request but STATUS executes. -/
def Obligations.FaultEntryIsPrecise : Prop :=
  ∀ (s t : State) (r : Request) (rest : List Arrival),
    s.remaining = .request r :: rest → s.faultCause = 0#4 → step s = .next t → t.faultCause ≠ 0#4 →
      t = { s.advance with
        faultCause := t.faultCause
        faultOp := r.header.extractLsb' 0 4
        responses := s.responses ++ [⟨.faulted, .none⟩] } ∧
      ∀ i : Instr, i ≠ .status → exec i t = .next { t with responses := t.responses ++ [⟨.faulted, .none⟩] }

/-- R222, R223: which decoded requests raise which cause, and under which condition; a header that breaks R78 is the other
source of cause 2. The codes are of a table R138 admits. -/
def Obligations.FaultCauseTable : Prop :=
  ∀ (i : Instr) (s t : State), s.cfg.codes.ok → s.faultCause = 0#4 → exec i s = .next t →
    t.faultCause.toNat ≤ 6 ∧
    (t.faultCause = 1#4 ↔ i.opcode = .reserved) ∧
    (t.faultCause = 2#4 ↔ ∃ c : CommandWord, i = .encode c ∧
      (5 ≤ (c.extractLsb' 1 3 : BitVec 3).toNat ∨ c.extractLsb' 11 5 ≠ 0#5)) ∧
    (t.faultCause = 3#4 ↔ ∃ pv : List Pulse,
      (i = .p2b pv ∧ pv.length ≠ 8) ∨ (i = .checksum pv ∧ pv.length ≠ 48) ∨
        (i = .f2r pv ∧ pv.length ≠ 24 ∧ pv.length ≠ 48)) ∧
    (t.faultCause = 4#4 ↔ ∃ pv : List Pulse,
      (∃ p ∈ pv, p.cat = .preamble ∨ p.cat = .invalid) ∧
        ((i = .p2b pv ∧ pv.length = 8) ∨ (i = .checksum pv ∧ pv.length = 48) ∨
          (i = .f2r pv ∧ (pv.length = 24 ∨ pv.length = 48)))) ∧
    (t.faultCause = 5#4 ↔ ∃ (m : Mode) (f : Fan) (d : BitVec 5),
      i = .encode (packCommand ⟨true, m, f, d⟩) ∧ m ≠ .fanOnly ∧ d.toNat ≠ 0 ∧
        ¬ (17 ≤ d.toNat ∧ d.toNat ≤ 30)) ∧
    (t.faultCause = 6#4 ↔ ∃ (e : EdgeType) (ts : Nanos),
      i = .edge e ts ∧ s.runState = .running ∧ ts.toNat < s.lastEdgeTime.toNat)

/-! ### Status -/

/-- R30, R200: STATUS answers the status word, changes nothing else, and is served in every state; the word's fields. -/
def Obligations.StatusWordLayout : Prop :=
  decode ⟨0x00000000#32, .none⟩ = .ok .status ∧
  ∀ s : State, ∃ w : BitVec 32,
    exec .status s = .next { s with responses := s.responses ++ [⟨.ok, .word w⟩] } ∧
    (w.getLsbD 0 = true ↔ s.faultCause ≠ 0#4) ∧
    w.extractLsb' 1 4 = s.faultCause ∧
    w.extractLsb' 5 2 = (if s.runState = .running then 0#2 else if s.runState = .aborted then 1#2 else 2#2) ∧
    w.getLsbD 7 = s.pendingOvf ∧
    (w.getLsbD 8 = true ↔ s.edgeCount ≠ 0#32) ∧
    w.extractLsb' 9 4 = s.faultOp ∧
    w.extractLsb' 13 3 = 0#3 ∧
    (s.pending.length ≤ 65535 → (w.extractLsb' 16 16 : BitVec 16).toNat = s.pending.length)

/-! ### Pulse classifier and bit/byte codec -/

/-- R101, R102: CLASSIFY answers the measured duration with its category, the bands open at both ends; the last clause gives
the limits as numbers, for the hardware's parameters (R8). -/
def Obligations.ClassifyAnswersBand : Prop :=
  ∀ (s : State) (d : Nanos) (c : Category), s.faultCause = 0#4 →
    c = (if s.cfg.zeroLo < d.toNat ∧ d.toNat < s.cfg.zeroHi then .zero
      else if s.cfg.oneLo < d.toNat ∧ d.toNat < s.cfg.oneHi then .one
      else if s.cfg.preLo < d.toNat ∧ d.toNat < s.cfg.preHi then .preamble
      else .invalid) →
    decode ⟨0x00000001#32, .nanos d⟩ = .ok (.classify d) ∧
    exec (.classify d) s = .next { s with responses := s.responses ++ [⟨.ok, .pulse ⟨c, d⟩⟩] } ∧
    (s.cfg = Config.hw →
      c = (if 350000 < d.toNat ∧ d.toNat < 650000 then .zero
        else if 1350000 < d.toNat ∧ d.toNat < 1650000 then .one
        else if 4000000 < d.toNat ∧ d.toNat < 6000000 then .preamble
        else .invalid))

/-- 40_pulse_bit.md section 2 ("The result is Invalid exactly on the union of ..."): for every configuration whose bands
R8 admits, a duration is Invalid exactly between and outside the bands, and at most one band holds it. -/
def Obligations.BandsAreDisjoint : Prop :=
  ∀ (cfg : Config) (d : Nanos), cfg.bandsOk →
    ((classify cfg d).cat = .invalid ↔
      d.toNat ≤ cfg.zeroLo ∨ (cfg.zeroHi ≤ d.toNat ∧ d.toNat ≤ cfg.oneLo) ∨
        (cfg.oneHi ≤ d.toNat ∧ d.toNat ≤ cfg.preLo) ∨ cfg.preHi ≤ d.toNat) ∧
    ((classify cfg d).cat = .zero ↔ cfg.zeroLo < d.toNat ∧ d.toNat < cfg.zeroHi) ∧
    ((classify cfg d).cat = .one ↔ cfg.oneLo < d.toNat ∧ d.toNat < cfg.oneHi) ∧
    ((classify cfg d).cat = .preamble ↔ cfg.preLo < d.toNat ∧ d.toNat < cfg.preHi)

/-- R105, R106: P2B packs eight bit pulses, the first into bit 7, and ignores durations; another length raises BAD_LENGTH
before any pulse is looked at, and a Preamble or Invalid pulse raises NOT_A_BIT. -/
def Obligations.P2bPacksFirstPulseHighest : Prop :=
  ∀ (s : State) (pv : List Pulse), s.faultCause = 0#4 →
    (pv.length = 8 → decode ⟨0x00080002#32, .pulses (pv.map Pulse.toFormatP)⟩ = .ok (.p2b pv)) ∧
    (pv.length = 8 → (∀ p ∈ pv, p.cat = .zero ∨ p.cat = .one) →
      ∃ b : Byte,
        (∀ (i : Nat) (p : Pulse), pv[i]? = some p → (b.getLsbD (7 - i) = true ↔ p.cat = .one)) ∧
        exec (.p2b pv) s = .next { s with responses := s.responses ++ [⟨.ok, .byte b⟩] }) ∧
    (pv.length ≠ 8 → exec (.p2b pv) s = .next { s with
      faultCause := 3#4, faultOp := 0x2#4, responses := s.responses ++ [⟨.faulted, .none⟩] }) ∧
    (pv.length = 8 → (∃ p ∈ pv, p.cat = .preamble ∨ p.cat = .invalid) →
      exec (.p2b pv) s = .next { s with
        faultCause := 4#4, faultOp := 0x2#4, responses := s.responses ++ [⟨.faulted, .none⟩] })

/-- R107, R108: B2P answers eight nominal bit pulses, pulse i carrying bit 7 − i, its duration in ns. -/
def Obligations.B2pAnswersNominalPulses : Prop :=
  ∀ (s : State) (b : Byte), s.faultCause = 0#4 →
    decode ⟨0x00000003#32, .byte b⟩ = .ok (.b2p b) ∧
    ∃ pv : List Pulse,
      exec (.b2p b) s = .next { s with responses := s.responses ++ [⟨.ok, .pulses pv⟩] } ∧
      pv.length = 8 ∧
      ∀ i, i < 8 → pv[i]? = some
        (if b.getLsbD (7 - i) = true then ⟨.one, BitVec.ofNat 64 (s.cfg.nomOneUs * 1000)⟩
          else ⟨.zero, BitVec.ofNat 64 (s.cfg.nomZeroUs * 1000)⟩)

/-- 40_pulse_bit.md section 3 (round trip): for every configuration R8 admits, packing the unpacked byte gives it back, a
packed sequence of bit pulses unpacks to the same categories, and every pulse of an unpacked byte classifies as itself. -/
def Obligations.BytesSurviveThePulses : Prop :=
  ∀ (cfg : Config), cfg.bandsOk → cfg.widthsOk →
    (∀ b : Byte, p2b (b2p cfg b) = .ok b) ∧
    (∀ pv : List Pulse, pv.length = 8 → (∀ p ∈ pv, p.cat = .zero ∨ p.cat = .one) →
      ∃ b : Byte, p2b pv = .ok b ∧ (b2p cfg b).map (·.cat) = pv.map (·.cat)) ∧
    (∀ (b : Byte) (p : Pulse), p ∈ b2p cfg b → classify cfg p.dur = p)

/-! ### Command model -/

/-- R74: format L. A packed command has its fields at the places of the table, unpacking inverts packing both ways, and
exactly the words with mode 5, 6 or 7 or a reserved bit set are no command. -/
def Obligations.CommandWordFields : Prop :=
  (∀ c : Command, unpackCommand (packCommand c) = some c ∧
    (packCommand c).getLsbD 0 = c.power ∧
    (packCommand c).extractLsb' 1 3 =
      (if c.mode = .cool then 0#3 else if c.mode = .heat then 1#3 else if c.mode = .dry then 2#3
        else if c.mode = .auto then 3#3 else 4#3) ∧
    (packCommand c).extractLsb' 4 2 =
      (if c.fan = .auto then 0#2 else if c.fan = .low then 1#2 else if c.fan = .medium then 2#2 else 3#2) ∧
    (packCommand c).extractLsb' 6 5 = c.deg ∧ (packCommand c).extractLsb' 11 5 = 0#5) ∧
  (∀ w c, unpackCommand w = some c → packCommand c = w) ∧
  (∀ w : CommandWord, unpackCommand w = none ↔
    5 ≤ (w.extractLsb' 1 3 : BitVec 3).toNat ∨ w.extractLsb' 11 5 ≠ 0#5)

/-- R132, R133: ENCODE. An illegal word raises ILLEGAL_ENCODING; off ignores fan and degrees; FanOnly forces the off
temperature; otherwise the degree is looked up, and UNMAPPED_TEMP is raised outside 0 and 17..30. The codes are
the block's (R131), of a table R138 admits. -/
def Obligations.EncodeBuildsRecord : Prop :=
  ∀ (s : State) (k : Codes), s.faultCause = 0#4 → k = s.cfg.codes → k.ok →
    (∀ w : CommandWord, decode ⟨0x00000004#32, .command w⟩ = .ok (.encode w)) ∧
    (∀ w : CommandWord, (5 ≤ (w.extractLsb' 1 3 : BitVec 3).toNat ∨ w.extractLsb' 11 5 ≠ 0#5) →
      exec (.encode w) s = .next { s with
        faultCause := 2#4, faultOp := 0x4#4, responses := s.responses ++ [⟨.faulted, .none⟩] }) ∧
    (∀ (m : Mode) (f : Fan) (d : BitVec 5),
      exec (.encode (packCommand ⟨false, m, f, d⟩)) s = .next { s with
        responses := s.responses ++
          [⟨.ok, .record (k.flagsByte ++ k.fanOff ++ k.stateOff ++ k.tempOff ++ modeCode k m)⟩] }) ∧
    (∀ (f : Fan) (d : BitVec 5),
      exec (.encode (packCommand ⟨true, .fanOnly, f, d⟩)) s = .next { s with
        responses := s.responses ++
          [⟨.ok, .record (k.flagsByte ++ fanCode k f ++ k.stateOn ++ k.tempOff ++ k.modeDry)⟩] }) ∧
    (∀ (m : Mode) (f : Fan) (d : BitVec 5) (t : Nibble), m ≠ .fanOnly →
      ((d.toNat = 0 ∧ t = k.tempOff) ∨ (d.toNat, t) ∈ k.tempTable) →
      exec (.encode (packCommand ⟨true, m, f, d⟩)) s = .next { s with
        responses := s.responses ++
          [⟨.ok, .record (k.flagsByte ++ fanCode k f ++ k.stateOn ++ t ++ modeCode k m)⟩] }) ∧
    (∀ (m : Mode) (f : Fan) (d : BitVec 5), m ≠ .fanOnly → d.toNat ≠ 0 →
      ¬ (17 ≤ d.toNat ∧ d.toNat ≤ 30) →
      exec (.encode (packCommand ⟨true, m, f, d⟩)) s = .next { s with
        faultCause := 5#4, faultOp := 0x4#4, responses := s.responses ++ [⟨.faulted, .none⟩] })

/-- R131's source-fixed part, scenario A (95_test_vectors.md W7): for every table R138 admits, on/Cool/High/22 encodes to
B2 3F 70, whose frame passes the checksum; ENCODE 0x05B1 answers that record. -/
def Obligations.ScenarioA : Prop :=
  (∀ (cfg : Config), cfg.codes.ok →
    enc cfg.codes ⟨true, .cool, .high, 22#5⟩ = .ok 0xB23F70#24 ∧
    checksum (assemble cfg 0xB23F70#24) = .ok true) ∧
  (∀ s : State, s.cfg.codes.ok → s.faultCause = 0#4 → exec (.encode 0x05B1#16) s = .next { s with
    responses := s.responses ++ [⟨.ok, .record 0xB23F70#24⟩] })

/-- R134, R135, R136: DECODE. The state code decides the power, the flags byte is not examined, an off record reports fan
Auto and degree 0, Dry with the off temperature is FanOnly, and any unmapped code is ABSENT. The codes are the
block's (R131), of a table R138 admits. -/
def Obligations.DecodeReadsRecord : Prop :=
  ∀ (s : State) (k : Codes) (r : Record) (fc sc tc mc : Nibble) (fanOnly : Prop),
    s.faultCause = 0#4 → k = s.cfg.codes → k.ok →
    fc = r.extractLsb' 12 4 → sc = r.extractLsb' 8 4 → tc = r.extractLsb' 4 4 → mc = r.extractLsb' 0 4 →
    (fanOnly ↔ tc = k.tempOff ∧ mc = k.modeDry) →
    decode ⟨0x00000005#32, .record r⟩ = .ok (.decode r) ∧
    (sc = k.stateOff → fanOnly → exec (.decode r) s = .next { s with
      responses := s.responses ++ [⟨.ok, .command (packCommand ⟨false, .fanOnly, .auto, 0#5⟩)⟩] }) ∧
    (∀ m : Mode, sc = k.stateOff → ¬ fanOnly → m ≠ .fanOnly → modeCode k m = mc →
      exec (.decode r) s = .next { s with
        responses := s.responses ++ [⟨.ok, .command (packCommand ⟨false, m, .auto, 0#5⟩)⟩] }) ∧
    (∀ f : Fan, sc = k.stateOn → fanOnly → fanCode k f = fc → exec (.decode r) s = .next { s with
      responses := s.responses ++ [⟨.ok, .command (packCommand ⟨true, .fanOnly, f, 0#5⟩)⟩] }) ∧
    (∀ (m : Mode) (f : Fan) (d : BitVec 5), sc = k.stateOn → ¬ fanOnly → fanCode k f = fc →
      m ≠ .fanOnly → modeCode k m = mc →
      ((d.toNat = 0 ∧ tc = k.tempOff) ∨ (d.toNat, tc) ∈ k.tempTable) →
      exec (.decode r) s = .next { s with
        responses := s.responses ++ [⟨.ok, .command (packCommand ⟨true, m, f, d⟩)⟩] }) ∧
    (((sc ≠ k.stateOff ∧ sc ≠ k.stateOn) ∨
        (sc = k.stateOff ∧ ¬ fanOnly ∧ ∀ m : Mode, m ≠ .fanOnly → modeCode k m ≠ mc) ∨
        (sc = k.stateOn ∧ ∀ f : Fan, fanCode k f ≠ fc) ∨
        (sc = k.stateOn ∧ ¬ fanOnly ∧ ((∀ m : Mode, m ≠ .fanOnly → modeCode k m ≠ mc) ∨
          (tc ≠ k.tempOff ∧ ∀ d : Nat, (d, tc) ∉ k.tempTable)))) →
      exec (.decode r) s = .next { s with responses := s.responses ++ [⟨.absent, .none⟩] })

/-- 41_command_model.md section 2 (round trip and ambiguity): for every table R138 admits, a command that is on comes back
from its record, with the exceptions the spec names, and an off command comes back in its canonical form. -/
def Obligations.CommandsSurviveTheRecord : Prop :=
  ∀ (k : Codes), k.ok →
    (∀ (m : Mode) (f : Fan) (d : BitVec 5), m ≠ .fanOnly → 17 ≤ d.toNat → d.toNat ≤ 30 →
      ∃ r : Record, enc k ⟨true, m, f, d⟩ = .ok r ∧ dec k r = some ⟨true, m, f, d⟩) ∧
    (∀ (m : Mode) (f : Fan), m ≠ .fanOnly → m ≠ .dry →
      ∃ r : Record, enc k ⟨true, m, f, 0#5⟩ = .ok r ∧ dec k r = some ⟨true, m, f, 0#5⟩) ∧
    (∀ (f : Fan), ∃ r : Record,
      enc k ⟨true, .dry, f, 0#5⟩ = .ok r ∧ dec k r = some ⟨true, .fanOnly, f, 0#5⟩) ∧
    (∀ (f : Fan) (d : BitVec 5), ∃ r : Record,
      enc k ⟨true, .fanOnly, f, d⟩ = .ok r ∧ dec k r = some ⟨true, .fanOnly, f, 0#5⟩) ∧
    (∀ (m : Mode) (f : Fan) (d : BitVec 5), ∃ r : Record, enc k ⟨false, m, f, d⟩ = .ok r ∧
      dec k r = some ⟨false, (if m = .dry then .fanOnly else m), .auto, 0#5⟩)

/-! ### Frame codec -/

/-- R160, R161: ASSEMBLE answers the 48 nominal pulses of the record's bytes in wire order, each byte followed by its
complement, most significant bit first. -/
def Obligations.AssembleAnswersFrame : Prop :=
  ∀ (s : State) (r : Record) (zero one : Pulse), s.faultCause = 0#4 →
    zero = ⟨.zero, BitVec.ofNat 64 (s.cfg.nomZeroUs * 1000)⟩ → one = ⟨.one, BitVec.ofNat 64 (s.cfg.nomOneUs * 1000)⟩ →
    decode ⟨0x00000006#32, .record r⟩ = .ok (.assemble r) ∧
    ∃ pv : List Pulse,
      exec (.assemble r) s = .next { s with responses := s.responses ++ [⟨.ok, .pulses pv⟩] } ∧
      pv.length = 48 ∧
      ∀ j i, j < 3 → i < 8 →
        pv[16 * j + i]? = some (if r.getLsbD (23 - (8 * j + i)) = true then one else zero) ∧
        pv[16 * j + 8 + i]? = some (if r.getLsbD (23 - (8 * j + i)) = true then zero else one)

/-- 42_frame_codec.md section 1 (frame invariants): for every configuration and record the frame has 24 One and 24 Zero
pulses, passes the checksum, and gives the record back. -/
def Obligations.FramesCarryTheirRecord : Prop :=
  ∀ (cfg : Config) (r : Record),
    (assemble cfg r).countP (fun p => p.cat = .one) = 24 ∧
    (assemble cfg r).countP (fun p => p.cat = .zero) = 24 ∧
    (assemble cfg r).length = 48 ∧
    checksum (assemble cfg r) = .ok true ∧
    f2r (assemble cfg r) = .ok r

/-- R163, R164, R165, R166: TIMING answers 199 entries, index by index as the rule lists them, which sum to 24 symbols of each
bit and the framing in both repetitions: 179_128 µs for the hardware's parameters. -/
def Obligations.TimingListEntries : Prop :=
  ∀ (s : State) (r : Record), s.faultCause = 0#4 →
    decode ⟨0x00000007#32, .record r⟩ = .ok (.timing r) ∧
    ∃ l : List Micros,
      exec (.timing r) s = .next { s with responses := s.responses ++ [⟨.ok, .timing l⟩] } ∧
      l.length = 199 ∧
      l[0]? = some (BitVec.ofNat 32 s.cfg.nomPreUs) ∧ l[1]? = some (BitVec.ofNat 32 s.cfg.nomPreUs) ∧
      l[2]? = some (BitVec.ofNat 32 s.cfg.gapUs) ∧
      (∀ (k : Nat) (p : Pulse), (assemble s.cfg r)[k]? = some p →
        l[3 + 2 * k]? = some (BitVec.ofNat 32 (if p.cat = .one then s.cfg.nomOneUs else s.cfg.nomZeroUs)) ∧
        l[4 + 2 * k]? = some (BitVec.ofNat 32 s.cfg.gapUs)) ∧
      l[99]? = some (BitVec.ofNat 32 s.cfg.sepUs) ∧
      (∀ j, j < 99 → l[100 + j]? = l[j]?) ∧
      (s.cfg.widthsOk → (l.map (·.toNat)).sum =
        2 * (2 * s.cfg.nomPreUs + s.cfg.gapUs + 24 * s.cfg.nomOneUs + 24 * s.cfg.nomZeroUs + 48 * s.cfg.gapUs) +
          s.cfg.sepUs) ∧
      (s.cfg = Config.hw → (l.map (·.toNat)).sum = 179128)

/-- R167, R168: VALIDATE keeps the bit pulses, requires 96 of them and equal categories in both halves, and answers the
first half with its captured durations; otherwise ABSENT, never a fault. -/
def Obligations.ValidateTrimsCapture : Prop :=
  ∀ (s : State) (pv b : List Pulse), s.faultCause = 0#4 →
    b = pv.filter (fun p => decide (p.cat = .zero ∨ p.cat = .one)) →
    (pv.length ≤ 65535 →
      decode ⟨BitVec.ofNat 32 (pv.length * 65536 + 8), .pulses (pv.map Pulse.toFormatP)⟩ =
        .ok (.validate pv)) ∧
    (b.length = 96 →
      (∀ i p q, i < 48 → b[i]? = some p → b[i + 48]? = some q → p.cat = q.cat) →
      exec (.validate pv) s = .next { s with responses := s.responses ++ [⟨.ok, .pulses (b.take 48)⟩] }) ∧
    ((b.length ≠ 96 ∨ ∃ i p q, i < 48 ∧ b[i]? = some p ∧ b[i + 48]? = some q ∧ p.cat ≠ q.cat) →
      exec (.validate pv) s = .next { s with responses := s.responses ++ [⟨.absent, .none⟩] })

/-- R169, R170: CHECKSUM answers 1 exactly when every bit of each odd byte differs from the bit of the byte before it;
another length raises BAD_LENGTH first, a Preamble or Invalid pulse NOT_A_BIT. -/
def Obligations.ChecksumComparesComplements : Prop :=
  ∀ (s : State) (pv : List Pulse), s.faultCause = 0#4 →
    (pv.length = 48 → decode ⟨0x00300009#32, .pulses (pv.map Pulse.toFormatP)⟩ = .ok (.checksum pv)) ∧
    (pv.length = 48 → (∀ p ∈ pv, p.cat = .zero ∨ p.cat = .one) →
      ∃ v : Bool,
        (v = true ↔ ∀ j i p q, j < 3 → i < 8 →
          pv[16 * j + i]? = some p → pv[16 * j + 8 + i]? = some q → p.cat ≠ q.cat) ∧
        exec (.checksum pv) s = .next { s with responses := s.responses ++ [⟨.ok, .bit v⟩] }) ∧
    (pv.length ≠ 48 → exec (.checksum pv) s = .next { s with
      faultCause := 3#4, faultOp := 0x9#4, responses := s.responses ++ [⟨.faulted, .none⟩] }) ∧
    (pv.length = 48 → (∃ p ∈ pv, p.cat = .preamble ∨ p.cat = .invalid) →
      exec (.checksum pv) s = .next { s with
        faultCause := 4#4, faultOp := 0x9#4, responses := s.responses ++ [⟨.faulted, .none⟩] })

/-- R171, R172: F2R answers the record of the non-inverted bytes, from 24 or from 48 pulses, without checking complements;
another length raises BAD_LENGTH first, a Preamble or Invalid pulse anywhere NOT_A_BIT. -/
def Obligations.F2rTakesPlainBytes : Prop :=
  ∀ (s : State) (pv : List Pulse), s.faultCause = 0#4 →
    (pv.length = 24 → decode ⟨0x0018000A#32, .pulses (pv.map Pulse.toFormatP)⟩ = .ok (.f2r pv)) ∧
    (pv.length = 48 → decode ⟨0x0030000A#32, .pulses (pv.map Pulse.toFormatP)⟩ = .ok (.f2r pv)) ∧
    (∀ w : Nat, (pv.length = 24 ∧ w = 8) ∨ (pv.length = 48 ∧ w = 16) →
      (∀ p ∈ pv, p.cat = .zero ∨ p.cat = .one) →
      ∃ r : Record,
        (∀ j i p, j < 3 → i < 8 → pv[w * j + i]? = some p →
          (r.getLsbD (23 - (8 * j + i)) = true ↔ p.cat = .one)) ∧
        exec (.f2r pv) s = .next { s with responses := s.responses ++ [⟨.ok, .record r⟩] }) ∧
    (pv.length ≠ 24 → pv.length ≠ 48 → exec (.f2r pv) s = .next { s with
      faultCause := 3#4, faultOp := 0xA#4, responses := s.responses ++ [⟨.faulted, .none⟩] }) ∧
    (pv.length = 24 ∨ pv.length = 48 → (∃ p ∈ pv, p.cat = .preamble ∨ p.cat = .invalid) →
      exec (.f2r pv) s = .next { s with
        faultCause := 4#4, faultOp := 0xA#4, responses := s.responses ++ [⟨.faulted, .none⟩] })

/-- 42_frame_codec.md section 5 (acceptance gate): on a frame that VALIDATE returns neither CHECKSUM nor F2R faults, and
if the checksum holds the frame's categories are those of the frame its record assembles to. -/
def Obligations.ValidatedFramesNeverFault : Prop :=
  ∀ (cfg : Config) (pv f : List Pulse), validate pv = some f →
    f.length = 48 ∧ (∀ p ∈ f, p.cat = .zero ∨ p.cat = .one) ∧ f.Sublist pv ∧
    ∃ (v : Bool) (r : Record), checksum f = .ok v ∧ f2r f = .ok r ∧
      (v = true ↔ f.map (·.cat) = (assemble cfg r).map (·.cat))

/-! ### Edge batching decoder -/

/-- R191 to R195: EDGE. Stopped outside Running; a timestamp below the last edge's raises NONMONOTONIC_TS; otherwise the edge
is marked, and a falling edge that is not the first edge appends the classified interval, or sets the overflow bit when
PENDING_CAP pulses are pending. -/
def Obligations.EdgeMarksAndAppends : Prop :=
  ∀ (s marked : State) (ts : Nanos), s.faultCause = 0#4 →
    marked = { s with
      lastEdgeTime := ts
      edgeCount := BitVec.ofNat 32 (min (s.edgeCount.toNat + 1) (2 ^ s.cfg.ecWidth - 1))
      responses := s.responses ++ [⟨.ok, .none⟩] } →
    decode ⟨0x0000000B#32, .nanos ts⟩ = .ok (.edge .rising ts) ∧
    decode ⟨0x0000001B#32, .nanos ts⟩ = .ok (.edge .falling ts) ∧
    (∀ e : EdgeType, s.runState ≠ .running →
      exec (.edge e ts) s = .next { s with responses := s.responses ++ [⟨.stopped, .none⟩] }) ∧
    (∀ e : EdgeType, s.runState = .running → ts.toNat < s.lastEdgeTime.toNat →
      exec (.edge e ts) s = .next { s with
        faultCause := 6#4, faultOp := 0xB#4, responses := s.responses ++ [⟨.faulted, .none⟩] }) ∧
    (s.runState = .running → s.lastEdgeTime.toNat ≤ ts.toNat →
      exec (.edge .rising ts) s = .next marked ∧
      (s.edgeCount = 0#32 → exec (.edge .falling ts) s = .next marked) ∧
      (s.edgeCount ≠ 0#32 → s.pending.length < s.cfg.pendingCap →
        exec (.edge .falling ts) s = .next { marked with
          pending := s.pending ++
            [classify s.cfg (BitVec.ofNat 64 (ts.toNat - s.lastEdgeTime.toNat))] }) ∧
      (s.edgeCount ≠ 0#32 → s.cfg.pendingCap ≤ s.pending.length →
        exec (.edge .falling ts) s = .next { marked with pendingOvf := true }))

/-- R196, R197: TICK. Stopped outside Running; if pulses are pending and the time exceeds the last edge's by more than
IDLE_NS, exactly one burst is emitted and the accumulator cleared; otherwise nothing changes. -/
def Obligations.TickFlushesAfterQuiet : Prop :=
  ∀ (s : State) (now : Nanos), s.faultCause = 0#4 →
    decode ⟨0x0000000C#32, .nanos now⟩ = .ok (.tick now) ∧
    (s.runState ≠ .running →
      exec (.tick now) s = .next { s with responses := s.responses ++ [⟨.stopped, .none⟩] }) ∧
    (s.runState = .running → s.pending ≠ [] → s.lastEdgeTime.toNat + s.cfg.idleNs < now.toNat →
      exec (.tick now) s = .next { s with
        out := s.out ++ [⟨s.pending, s.pendingOvf⟩]
        pending := []
        pendingOvf := false
        responses := s.responses ++ [⟨.ok, .none⟩] }) ∧
    (s.runState = .running → (s.pending = [] ∨ now.toNat ≤ s.lastEdgeTime.toNat + s.cfg.idleNs) →
      exec (.tick now) s = .next { s with responses := s.responses ++ [⟨.ok, .none⟩] })

/-- R198: ABORT ends a running loop and changes nothing else; elsewhere it changes nothing. -/
def Obligations.AbortStopsTheLoop : Prop :=
  ∀ (s : State), s.faultCause = 0#4 →
    decode ⟨0x0000000D#32, .none⟩ = .ok .abort ∧
    (s.runState = .running → exec .abort s = .next { s with
      runState := .aborted, responses := s.responses ++ [⟨.ok, .none⟩] }) ∧
    (s.runState ≠ .running →
      exec .abort s = .next { s with responses := s.responses ++ [⟨.ok, .none⟩] })

/-- R199: LINE_FAULT fails a running loop, no fatal fault, and changes nothing else; elsewhere it changes nothing. -/
def Obligations.LineFaultFailsTheLoop : Prop :=
  ∀ (s : State), s.faultCause = 0#4 →
    decode ⟨0x0000000E#32, .none⟩ = .ok .lineFault ∧
    (s.runState = .running → exec .lineFault s = .next { s with
      runState := .lineFailed, responses := s.responses ++ [⟨.ok, .none⟩] }) ∧
    (s.runState ≠ .running →
      exec .lineFault s = .next { s with responses := s.responses ++ [⟨.ok, .none⟩] })

/-- R28: only ABORT and LINE_FAULT change `run_state`, and only from Running; reset returns it to Running; EDGE and TICK act
only in Running. -/
def Obligations.RunStateLeavesRunningOnly : Prop :=
  (∀ (i : Instr) (s t : State), exec i s = .next t → t.runState ≠ s.runState →
    s.runState = .running ∧
      ((i = .abort ∧ t.runState = .aborted) ∨ (i = .lineFault ∧ t.runState = .lineFailed))) ∧
  (∀ (s t : State) (rest : List Arrival), s.remaining = .reset :: rest → step s = .next t →
    t.runState = .running) ∧
  (∀ (i : Instr) (s t : State), (i.opcode = .edge ∨ i.opcode = .tick) → s.runState ≠ .running →
    exec i s = .next t → t = { s with responses := t.responses })

/-- R24, R27: only an EDGE processed while Running moves `last_edge_time` and `edge_count`; it writes its timestamp and adds
one, saturating, so an edge once seen stays seen until reset. The widths are those log 9 asks for. -/
def Obligations.OnlyEdgesMoveTheEdgeRecord : Prop :=
  ∀ (i : Instr) (s t : State), s.cfg.widthsOk → exec i s = .next t →
    ((t.lastEdgeTime = s.lastEdgeTime ∧ t.edgeCount = s.edgeCount) ∨
      ∃ (e : EdgeType) (ts : Nanos), i = .edge e ts ∧ s.runState = .running ∧ s.faultCause = 0#4 ∧
        s.lastEdgeTime.toNat ≤ ts.toNat ∧ t.lastEdgeTime = ts ∧
        t.edgeCount.toNat = min (s.edgeCount.toNat + 1) (2 ^ s.cfg.ecWidth - 1)) ∧
    (s.edgeCount ≠ 0#32 → t.edgeCount ≠ 0#32)

/-- R51: exactly three accesses reach the accumulator. A step leaves it, appends one pulse at its end, or clears it, at a flush
(which reads the whole of it in order) or at reset. -/
def Obligations.AccumulatorAccesses : Prop :=
  ∀ (s t : State), step s = .next t →
    (t.pending = s.pending ∧ t.out = s.out) ∨
    (∃ p : Pulse, t.pending = s.pending ++ [p] ∧ t.out = s.out) ∨
    (t.pending = [] ∧ s.pending ≠ [] ∧ t.out = s.out ++ [⟨s.pending, s.pendingOvf⟩]) ∨
    (t.pending = [] ∧ t.out = s.out ∧ ∃ rest, s.remaining = .reset :: rest)

/-- R32 for `out`, and the model's choice for the responses, which are kept whole in a list of their own (log 4, DESIGN CHOICE)
that reset leaves as it is (log 16, DEDUCED): both only grow, by every step, reset included. -/
def Obligations.ObservationOnlyGrows : Prop :=
  ∀ (s t : State), step s = .next t →
    (∃ bs : List Burst, t.out = s.out ++ bs ∧ bs.length ≤ 1) ∧
    (∃ rs : List Response, t.responses = s.responses ++ rs ∧ rs.length ≤ 1)

/-- 43_edge_decoder.md section 5 (what a burst holds): over any run without reset, the pulses emitted so far followed by
the pending ones only grow at the end, so the kept pulses stay in order and each is emitted at most once; and a falling edge
that yields a pulse while the accumulator has room keeps it. A pulse that finds the accumulator full is dropped (R194), and
one that is pending when the loop ends is not emitted (R198). -/
def Obligations.PulsesAreDeliveredInOrder : Prop :=
  (∀ (n : Nat) (s t : State), (∀ a ∈ s.remaining, a ≠ .reset) → Host.Core.run core n s = .next t →
    ∃ ps : List Pulse, t.delivered = s.delivered ++ ps ∧ ps.length ≤ n) ∧
  (∀ (s : State) (ts : Nanos),
    s.faultCause = 0#4 → s.runState = .running → s.edgeCount ≠ 0#32 →
    s.lastEdgeTime.toNat ≤ ts.toNat → s.pending.length < s.cfg.pendingCap →
      ∃ t : State, exec (.edge .falling ts) s = .next t ∧
        t.delivered = s.delivered ++
          [classify s.cfg (BitVec.ofNat 64 (ts.toNat - s.lastEdgeTime.toNat))])

/-- R58: the eleven pure requests change no state unless they raise a fault, and repeating one with the same operands gives
the same response. -/
def Obligations.PureRequestsRepeat : Prop :=
  ∀ (i : Instr) (s t : State),
    i.opcode ∈ [Opcode.status, .classify, .p2b, .b2p, .encode, .decode, .assemble, .timing, .validate,
      .checksum, .f2r] →
    exec i s = .next t → t.faultCause = s.faultCause →
      ∃ resp : Response, t = { s with responses := s.responses ++ [resp] } ∧
        exec i t = .next { t with responses := t.responses ++ [resp] }

/-- 92_eei_decisions.md D34: a codec request answers the same in any two healthy states of one configuration, whatever the
decoder holds. -/
def Obligations.CodecIgnoresDecoder : Prop :=
  ∀ (i : Instr) (s u : State),
    i.opcode ∈ [Opcode.classify, .p2b, .b2p, .encode, .decode, .assemble, .timing, .validate, .checksum, .f2r] →
    s.cfg = u.cfg → s.faultCause = 0#4 → u.faultCause = 0#4 →
      ∃ (resp : Response) (a b : State), exec i s = .next a ∧ exec i u = .next b ∧
        a.responses = s.responses ++ [resp] ∧ b.responses = u.responses ++ [resp] ∧
        a.faultCause = b.faultCause

/-- R230: a TICK and an EDGE ready at the same time, more than IDLE_NS after the last edge, in both orders. Tick first: the
pending burst is flushed and the edge's pulse, Invalid for the hardware's parameters, begins the next one. Edge first: that
pulse joins the old burst and no flush happens at that tick. -/
def Obligations.TickAndEdgeTieBothOrders : Prop :=
  ∀ (s : State) (now : Nanos) (tick edge : Arrival) (p : Pulse) (after : State),
    s.faultCause = 0#4 → s.runState = .running → s.edgeCount ≠ 0#32 → s.pending ≠ [] →
    s.cfg.widthsOk → s.pending.length < s.cfg.pendingCap → now.toNat < 2 ^ s.cfg.tsWidth →
    s.lastEdgeTime.toNat + s.cfg.idleNs < now.toNat →
    tick = .request (encode (.tick now)) → edge = .request (encode (.edge .falling now)) →
    p = classify s.cfg (BitVec.ofNat 64 (now.toNat - s.lastEdgeTime.toNat)) →
    after = { s with
      lastEdgeTime := now
      edgeCount := BitVec.ofNat 32 (min (s.edgeCount.toNat + 1) (2 ^ s.cfg.ecWidth - 1))
      responses := s.responses ++ [⟨.ok, .none⟩, ⟨.ok, .none⟩]
      position := 2 } →
    Host.Core.run core 2 { s with stream := [tick, edge], position := 0 } = .next { after with
      stream := [tick, edge]
      out := s.out ++ [⟨s.pending, s.pendingOvf⟩]
      pending := [p]
      pendingOvf := false } ∧
    Host.Core.run core 2 { s with stream := [edge, tick], position := 0 } = .next { after with
      stream := [edge, tick]
      pending := s.pending ++ [p] } ∧
    (s.cfg = Config.hw → p.cat = .invalid)

/-- 43_edge_decoder.md section 5 (idle-flush timing), with the timer agent issuing TICK once a period (log 5): while no edge
comes, pulses pending at the last edge are flushed exactly once, by the first tick more than IDLE_NS after it, and not
before; the latency is at most one period more. -/
def Obligations.QuietPeriodFlushesOnce : Prop :=
  ∀ (s : State) (limit period : Nat),
    s.faultCause = 0#4 → s.runState = .running → s.pending ≠ [] → s.cfg.widthsOk →
    limit = s.lastEdgeTime.toNat + s.cfg.idleNs → period = s.cfg.tickPeriodNs → 0 < period →
    (∀ k : Nat, s.remaining = List.replicate k .timer → s.timerNext + k * period ≤ 2 ^ s.cfg.tsWidth →
      ∃ t : State, Host.Core.run core k s = .next t ∧
        ((∀ j, j < k → s.timerNext + j * period ≤ limit) → t.out = s.out ∧ t.pending = s.pending) ∧
        ((∃ j, j < k ∧ limit < s.timerNext + j * period) →
          t.out = s.out ++ [⟨s.pending, s.pendingOvf⟩] ∧ t.pending = [])) ∧
    (s.timerNext ≤ limit + period →
      ∃ j : Nat, limit < s.timerNext + j * period ∧ s.timerNext + j * period ≤ limit + period ∧
        ∀ i, i < j → s.timerNext + i * period ≤ limit)

/-- R191 to R195 over a whole train of edges: from any running decoder that has seen an edge, a train in timestamp order
leaves the pending pulses followed by the train's classified falling intervals, cut at PENDING_CAP, with the overflow bit set
if any was dropped, and nothing emitted. -/
def Obligations.EdgeTrainsAccumulate : Prop :=
  ∀ (s : State) (es : List (EdgeType × Nanos)) (ps : List Pulse),
    s.faultCause = 0#4 → s.runState = .running → s.edgeCount ≠ 0#32 → s.cfg.widthsOk →
    s.pending.length ≤ s.cfg.pendingCap → s.edgeCount.toNat ≤ 2 ^ s.cfg.ecWidth - 1 →
    s.remaining = es.map (fun x => .request (encode (.edge x.1 x.2))) →
    (∀ x ∈ es, x.2.toNat < 2 ^ s.cfg.tsWidth) → edgesOrdered s.lastEdgeTime.toNat es = true →
    ps = edgePulses s.cfg s.lastEdgeTime.toNat es →
      ∃ t : State, Host.Core.run core es.length s = .next t ∧
        t.pending = (s.pending ++ ps).take s.cfg.pendingCap ∧
        t.pendingOvf = (s.pendingOvf || decide (s.cfg.pendingCap < s.pending.length + ps.length)) ∧
        t.out = s.out ∧ t.faultCause = 0#4 ∧ t.runState = .running ∧
        t.edgeCount.toNat = min (s.edgeCount.toNat + es.length) (2 ^ s.cfg.ecWidth - 1)

/-- 95_test_vectors.md program P3 and its consequence, on the hardware's parameters, for every record and start: the edges of the record's transmission,
then a TICK more than 100 ms after the last of them, emit one burst of 99 pulses, or of 100 with the inter-burst pulse (R254),
nothing dropped; VALIDATE of the burst gives the assembled frame, CHECKSUM holds and F2R gives the record. The line polarity
is P3's assumption, not the spec's. -/
def Obligations.TransmissionIsReceived : Prop :=
  ∀ (s : State) (r : Record) (t0 : Nat) (now : Nanos),
    s.cfg = Config.hw →
    s.faultCause = 0#4 → s.runState = .running → s.pending = [] → s.pendingOvf = false →
    s.lastEdgeTime.toNat ≤ t0 → (s.edgeCount ≠ 0#32 → s.lastEdgeTime.toNat + 100000000 < t0) →
    t0 + 179128000 + 100000000 < now.toNat →
    s.remaining = (transmissionEdges Config.hw r t0).map (fun x => .request (encode (.edge x.1 x.2))) ++
      [.request (encode (.tick now))] →
    ∃ (t : State) (burst : List Pulse), Host.Core.run core 201 s = .next t ∧
      t.out = s.out ++ [⟨burst, false⟩] ∧ t.pending = [] ∧ t.faultCause = 0#4 ∧
      burst.length = (if s.edgeCount = 0#32 then 99 else 100) ∧
      validate burst = some (assemble Config.hw r) ∧
      checksum (assemble Config.hw r) = .ok true ∧ f2r (assemble Config.hw r) = .ok r

/-- 70_reset_and_hazards.md R252(c), R260, as a duty that suffices: if the edge source's timestamps do not decrease, a run in
which only the edge source and the timer take turns raises no fatal fault. -/
def Obligations.OrderedLineNeverFaults : Prop :=
  ∀ (n : Nat) (s t : State),
    s.faultCause = 0#4 → (∀ a ∈ s.remaining, a = .edgeSource ∨ a = .timer) →
    lineOrdered s.lastEdgeTime.toNat s.lineEvents = true →
    Host.Core.run core n s = .next t → t.faultCause = 0#4

/-! ### Pseudo-operations -/

/-- R87: SEND is ENCODE and then, if that answers OK, TIMING of its result, which is SEND's result; if ENCODE faults, TIMING
is not issued. The host takes its two turns in a row; log 12 is the model's form of the expansion. -/
def Obligations.SendAnswersTimingList : Prop :=
  ∀ (s done : State) (c : CommandWord) (rest : List Arrival), s.faultCause = 0#4 →
    s.remaining = .host :: .host :: rest → s.hostTasks = [.send c] →
    done = { s with position := s.position + 2, hostTasks := [] } →
    (∀ r : Record, encodeWord s.cfg.codes c = .ok r →
      Host.Core.run core 2 s = .next { done with
        responses := s.responses ++ [⟨.ok, .record r⟩, ⟨.ok, .timing (timing s.cfg r)⟩] }) ∧
    (∀ cause : FaultCause, encodeWord s.cfg.codes c = .error cause →
      Host.Core.run core 2 s = .next { done with
        faultCause := cause.code
        faultOp := 0x4#4
        responses := s.responses ++ [⟨.faulted, .none⟩] })

/-- R88: RECEIVE_CHECK is VALIDATE, then CHECKSUM, F2R and DECODE; it drops the burst on ABSENT from VALIDATE, on a checksum
of 0 and on ABSENT from DECODE, and otherwise its result is DECODE's. The host takes its four turns in a row; log 12 is the
model's form of the expansion. -/
def Obligations.ReceiveCheckPipeline : Prop :=
  ∀ (s done : State) (pv : List Pulse) (rest : List Arrival), s.faultCause = 0#4 → pv.length ≤ 65535 →
    (∀ p ∈ pv, p.dur.toNat < 2 ^ s.cfg.tsWidth) →
    s.remaining = .host :: .host :: .host :: .host :: rest → s.hostTasks = [.receiveCheck pv] →
    done = { s with position := s.position + 4, hostTasks := [] } →
    (validate pv = none → Host.Core.run core 4 s = .next { done with
      responses := s.responses ++ [⟨.absent, .none⟩] }) ∧
    (∀ f, validate pv = some f → checksum f = .ok false →
      Host.Core.run core 4 s = .next { done with
        responses := s.responses ++ [⟨.ok, .pulses f⟩, ⟨.ok, .bit false⟩] }) ∧
    (∀ f r, validate pv = some f → checksum f = .ok true → f2r f = .ok r →
      dec s.cfg.codes r = none → Host.Core.run core 4 s = .next { done with
        responses := s.responses ++
          [⟨.ok, .pulses f⟩, ⟨.ok, .bit true⟩, ⟨.ok, .record r⟩, ⟨.absent, .none⟩] }) ∧
    (∀ f r c, validate pv = some f → checksum f = .ok true → f2r f = .ok r →
      dec s.cfg.codes r = some c → Host.Core.run core 4 s = .next { done with
        responses := s.responses ++
          [⟨.ok, .pulses f⟩, ⟨.ok, .bit true⟩, ⟨.ok, .record r⟩, ⟨.ok, .command (packCommand c)⟩] })

/-- R86, with the layout of log 13: lines of the textual form and the tasks they stand for. -/
def Obligations.TextLinesRead : Prop :=
  parseLine Config.hw "STATUS".toList = some (.request ⟨0x00000000#32, .none⟩) ∧
  parseLine Config.hw "ENCODE on, cool, high, 22".toList = some (.request ⟨0x00000004#32, .command 0x05B1#16⟩) ∧
  parseLine Config.hw "ENCODE off, fan, auto, 0".toList = some (.request ⟨0x00000004#32, .command 0x0008#16⟩) ∧
  parseLine Config.hw "ASSEMBLE B2:3F:70".toList = some (.request ⟨0x00000006#32, .record 0xB23F70#24⟩) ∧
  parseLine Config.hw "EDGE fall, 1_503_000".toList = some (.request ⟨0x0000001B#32, .nanos 1503000#64⟩) ∧
  parseLine Config.hw "P2B [O,Z(7),P,I]".toList = some (.request ⟨0x00040002#32,
    .pulses [⟨0b01#2, 1582000#64⟩, ⟨0b00#2, 7#64⟩, ⟨0b10#2, 4400000#64⟩, ⟨0b11#2, 0#64⟩]⟩) ∧
  parseLine Config.hw "SEND on, cool, high, 22".toList = some (.send 0x05B1#16)

/-! ### Reset, configuration and the invariant -/

/-- R34, R250: reset sets every field of the block's record to its reset value, emits no burst and removes none. -/
def Obligations.ResetRestoresEveryField : Prop :=
  ∀ (s : State) (rest : List Arrival), s.remaining = .reset :: rest →
    ∃ t : State, step s = .next t ∧
      t.lastEdgeTime = 0#64 ∧ t.pending = [] ∧ t.pendingOvf = false ∧ t.edgeCount = 0#32 ∧
      t.runState = .running ∧ t.faultCause = 0#4 ∧ t.faultOp = 0#4 ∧ t.out = s.out

/-- R34: the reset values of the block's record, and STATUS then reads 0 (R200). -/
def Obligations.ResetStateValues : Prop :=
  State.reset.lastEdgeTime = 0#64 ∧ State.reset.pending = [] ∧ State.reset.pendingOvf = false ∧
  State.reset.edgeCount = 0#32 ∧ State.reset.runState = .running ∧ State.reset.faultCause = 0#4 ∧
  State.reset.faultOp = 0#4 ∧ State.reset.out = [] ∧ State.reset.statusWord = 0x00000000#32

/-- R8, R138, and log 9 (DEDUCED) for the widths, which R8 does not state as constraints: the hardware's configuration
satisfies the constraints on the parameters and on `CODES`. -/
def Obligations.HardwareConfigurationIsAdmitted : Prop := Config.hw.ok

/-- 00_scope.md section 4 (the defaults of R8): the parameters this block is built with. -/
def Obligations.HardwareParametersAreTheDefaults : Prop :=
  State.reset.cfg = Config.hw ∧
  (Config.hw.zeroLo = 350000 ∧ Config.hw.zeroHi = 650000) ∧
  (Config.hw.oneLo = 1350000 ∧ Config.hw.oneHi = 1650000) ∧
  (Config.hw.preLo = 4000000 ∧ Config.hw.preHi = 6000000) ∧
  (Config.hw.nomZeroUs = 503 ∧ Config.hw.nomOneUs = 1582 ∧ Config.hw.nomPreUs = 4400) ∧
  (Config.hw.gapUs = 576 ∧ Config.hw.sepUs = 5000) ∧
  (Config.hw.idleNs = 100000000 ∧ Config.hw.tickPeriodNs = 50000000) ∧
  Config.hw.pendingCap = 256 ∧ Config.hw.tsWidth = 64 ∧ Config.hw.ecWidth = 32 ∧
  Config.hw.codes.flagsByte = 0xB2#8

/-- The invariant of Safety.lean holds at reset, of this hardware and of every block built with an admitted configuration. -/
def Obligations.InvariantHoldsAtReset : Prop :=
  State.reset.Inv ∧ ∀ cfg : Config, cfg.ok → (State.resetAt cfg).Inv

/-- R25, R26, R29, R36, R193, R194, R222: every step keeps the invariant of the block's record and of its output: the
accumulator within capacity, its overflow bit set only while it is full, nothing pending before the first edge, pending and
emitted pulses measured, a legal fault register, no empty burst; and of the model's own places in the stream and in `out`
(logs 1, 18) and widths (log 9). -/
def Obligations.StepKeepsInvariant : Prop :=
  ∀ (s t : State), s.Inv → step s = .next t → t.Inv
end

