-- ==== Sys2Proof/Laws/Decode.lean ====
section
/-! SUPPORT. The codes are inverse to each other, and the fields of a header that the encoder makes. -/

namespace Sys2Proof

@[simp] theorem opcode_ofCode_code (op : Opcode) : Opcode.ofCode op.code = op := by cases op <;> rfl

theorem opcode_code_ofCode (c : Nibble) : (Opcode.ofCode c).code = c := by
  revert c; decide

@[simp] theorem category_ofCode_code (c : Category) : Category.ofCode c.code = c := by cases c <;> rfl

theorem category_code_ofCode (c : BitVec 2) : (Category.ofCode c).code = c := by
  revert c; decide

@[simp] theorem edgeType_ofBit_bit (e : EdgeType) : EdgeType.ofBit e.bit = e := by cases e <;> rfl

@[simp] theorem edgeType_bit_ofBit (b : Bool) : (EdgeType.ofBit b).bit = b := by cases b <;> rfl

@[simp] theorem toPulse_toFormatP (p : Pulse) : p.toFormatP.toPulse = p := by
  cases p; simp [Pulse.toFormatP, FormatP.toPulse]

@[simp] theorem toFormatP_toPulse (p : FormatP) : p.toPulse.toFormatP = p := by
  cases p; simp [Pulse.toFormatP, FormatP.toPulse, category_code_ofCode]

/-- The bits of a header that the encoder makes. -/
theorem getLsbD_mkHeader (op : Opcode) (e : Bool) (n : Nat) (i : Nat) :
    (mkHeader op e n).getLsbD i =
      if i < 4 then op.code.getLsbD i
      else if i < 5 then e
      else if i < 16 then false
      else (BitVec.ofNat 16 n).getLsbD (i - 16) := by
  unfold mkHeader
  simp only [BitVec.getLsbD_append, BitVec.getLsbD_zero, BitVec.getLsbD_ofBool]
  by_cases h4 : i < 4
  · simp only [h4, if_true]
  · by_cases h5 : i < 5
    · obtain rfl : i = 4 := by omega
      simp
    · by_cases h16 : i < 16
      · have h1 : ¬ i - 4 < 1 := by omega
        have h2 : i - 4 - 1 < 11 := by omega
        simp only [h4, h5, h16, h1, h2, if_true, if_false]
      · have h1 : ¬ i - 4 < 1 := by omega
        have h2 : ¬ i - 4 - 1 < 11 := by omega
        have h3 : i - 4 - 1 - 11 = i - 16 := by omega
        simp only [h4, h5, h16, h1, h2, h3, if_false]

@[simp] theorem op_mkHeader (op : Opcode) (e : Bool) (n : Nat) :
    Header.op (mkHeader op e n) = op.code := by
  apply BitVec.eq_of_getLsbD_eq
  intro i hi
  simp only [Header.op, BitVec.getLsbD_extractLsb', getLsbD_mkHeader, Nat.zero_add, hi, if_true,
    decide_true, Bool.true_and]

@[simp] theorem opcode_mkHeader (op : Opcode) (e : Bool) (n : Nat) :
    Header.opcode (mkHeader op e n) = op := by simp only [Header.opcode, op_mkHeader, opcode_ofCode_code]

@[simp] theorem e_mkHeader (op : Opcode) (e : Bool) (n : Nat) :
    Header.e (mkHeader op e n) = e := by
  rw [Header.e, getLsbD_mkHeader, if_neg (by omega), if_pos (by omega)]

@[simp] theorem rsv_mkHeader (op : Opcode) (e : Bool) (n : Nat) :
    Header.rsv (mkHeader op e n) = 0#11 := by
  apply BitVec.eq_of_getLsbD_eq
  intro i hi
  rw [Header.rsv, BitVec.getLsbD_extractLsb', getLsbD_mkHeader, if_neg (by omega),
    if_neg (by omega), if_pos (by omega), BitVec.getLsbD_zero, Bool.and_false]

@[simp] theorem n_mkHeader (op : Opcode) (e : Bool) (n : Nat) :
    Header.n (mkHeader op e n) = BitVec.ofNat 16 n := by
  apply BitVec.eq_of_getLsbD_eq
  intro i hi
  rw [Header.n, BitVec.getLsbD_extractLsb', getLsbD_mkHeader, if_neg (by omega),
    if_neg (by omega), if_neg (by omega), Nat.add_sub_cancel_left, decide_eq_true hi, Bool.true_and]

/-- A header with `rsv = 0` is its other three fields (R71). -/
theorem mkHeader_fields (h : Header) (hr : Header.rsv h = 0#11) :
    mkHeader (Header.opcode h) (Header.e h) (Header.n h).toNat = h := by
  apply BitVec.eq_of_getLsbD_eq
  intro i hi
  rw [getLsbD_mkHeader]
  by_cases h4 : i < 4
  · rw [if_pos h4, Header.opcode, opcode_code_ofCode, Header.op, BitVec.getLsbD_extractLsb',
      decide_eq_true h4, Bool.true_and, Nat.zero_add]
  · rw [if_neg h4]
    by_cases h5 : i < 5
    · obtain rfl : i = 4 := by omega
      rw [if_pos h5, Header.e]
    · rw [if_neg h5]
      by_cases h16 : i < 16
      · have hb := congrArg (fun v => v.getLsbD (i - 5)) hr
        simp only [Header.rsv, BitVec.getLsbD_extractLsb', show i - 5 < 11 by omega, decide_true,
          Bool.true_and, show 5 + (i - 5) = i by omega, BitVec.getLsbD_zero] at hb
        rw [if_pos h16, hb]
      · rw [if_neg h16, BitVec.ofNat_toNat, BitVec.setWidth_eq, Header.n,
          BitVec.getLsbD_extractLsb', decide_eq_true (show i - 16 < 16 by omega), Bool.true_and,
          show 16 + (i - 16) = i by omega]

/-! ### What each reader of operands accepts -/

theorem expectNone_ok {b : Bundle} {k i : Instr} :
    b.expectNone k = .ok i ↔ b = .none ∧ i = k := by
  cases b <;> simp [Bundle.expectNone, eq_comm]

theorem expectNanos_ok {b : Bundle} {k : Nanos → Instr} {i : Instr} :
    b.expectNanos k = .ok i ↔ ∃ t, b = .nanos t ∧ i = k t := by
  cases b <;> simp [Bundle.expectNanos, eq_comm]

theorem expectByte_ok {b : Bundle} {k : Byte → Instr} {i : Instr} :
    b.expectByte k = .ok i ↔ ∃ v, b = .byte v ∧ i = k v := by
  cases b <;> simp [Bundle.expectByte, eq_comm]

theorem expectCommand_ok {b : Bundle} {k : CommandWord → Instr} {i : Instr} :
    b.expectCommand k = .ok i ↔ ∃ c, b = .command c ∧ i = k c := by
  cases b <;> simp [Bundle.expectCommand, eq_comm]

theorem expectRecord_ok {b : Bundle} {k : Record → Instr} {i : Instr} :
    b.expectRecord k = .ok i ↔ ∃ r, b = .record r ∧ i = k r := by
  cases b <;> simp [Bundle.expectRecord, eq_comm]

theorem expectPulses_ok {b : Bundle} {n : Nat} {k : List Pulse → Instr} {i : Instr} :
    b.expectPulses n k = .ok i ↔
      ∃ pv, b = .pulses pv ∧ pv.length = n ∧ i = k (pv.map FormatP.toPulse) := by
  cases b with
  | pulses pv =>
    by_cases h : pv.length = n
    · simp [Bundle.expectPulses, h, eq_comm]
    · simp [Bundle.expectPulses, h]
  | _ => simp [Bundle.expectPulses]

/-- The header checks pass exactly on opcode 0xF and on the headers R78 calls legal. -/
theorem checkHeader_none {h : Header} :
    checkHeader h = none ↔ Header.opcode h = .reserved ∨
      (Header.rsv h = 0#11 ∧ (Header.opcode h ≠ .edge → Header.e h = false) ∧
        ((Header.opcode h).isVector = false → Header.n h = 0#16)) := by
  unfold checkHeader
  by_cases h0 : Header.opcode h = .reserved
  · simp [h0]
  · by_cases h1 : Header.rsv h = 0#11
    · by_cases h2 : Header.opcode h ≠ .edge ∧ Header.e h = true
      · simp [h0, h1, h2]
      · by_cases h3 : (Header.opcode h).isVector = false ∧ Header.n h ≠ 0#16
        · simp [h0, h1, h2, h3]
        · have h2' : Header.opcode h ≠ .edge → Header.e h = false := fun he => by
            cases hb : Header.e h
            · rfl
            · exact absurd ⟨he, hb⟩ h2
          have h3' : (Header.opcode h).isVector = false → Header.n h = 0#16 := fun hv => by
            by_cases hn : Header.n h = 0#16
            · exact hn
            · exact absurd ⟨hv, hn⟩ h3
          rw [if_neg h0, if_neg (by simpa using h1), if_neg h2, if_neg h3]
          simp only [true_iff]
          exact .inr ⟨h1, h2', h3'⟩
    · simp [h0, h1]

/-- What a request that decodes looks like. -/
theorem decode_ok {r : Request} {i : Instr} :
    decode r = .ok i ↔ checkHeader r.header = none ∧ decodeOperands r.header r.operands = .ok i := by
  unfold decode
  cases checkHeader r.header <;> simp

end Sys2Proof
end

