-- ==== Sys2Proof/Laws/State.lean ====
section
/-! SUPPORT. One lemma per field per update of the state, so that no later proof unfolds a record update. -/

namespace Sys2Proof.Machine

/-! ### `respond` -/

@[simp] theorem respond_lastEdgeTime (s : State) (st : Status) (r : Result) :
    (s.respond st r).lastEdgeTime = s.lastEdgeTime := rfl
@[simp] theorem respond_pending (s : State) (st : Status) (r : Result) :
    (s.respond st r).pending = s.pending := rfl
@[simp] theorem respond_pendingOvf (s : State) (st : Status) (r : Result) :
    (s.respond st r).pendingOvf = s.pendingOvf := rfl
@[simp] theorem respond_edgeCount (s : State) (st : Status) (r : Result) :
    (s.respond st r).edgeCount = s.edgeCount := rfl
@[simp] theorem respond_runState (s : State) (st : Status) (r : Result) :
    (s.respond st r).runState = s.runState := rfl
@[simp] theorem respond_faultCause (s : State) (st : Status) (r : Result) :
    (s.respond st r).faultCause = s.faultCause := rfl
@[simp] theorem respond_faultOp (s : State) (st : Status) (r : Result) :
    (s.respond st r).faultOp = s.faultOp := rfl
@[simp] theorem respond_out (s : State) (st : Status) (r : Result) :
    (s.respond st r).out = s.out := rfl
@[simp] theorem respond_responses (s : State) (st : Status) (r : Result) :
    (s.respond st r).responses = s.responses ++ [⟨st, r⟩] := rfl
@[simp] theorem respond_cfg (s : State) (st : Status) (r : Result) :
    (s.respond st r).cfg = s.cfg := rfl
@[simp] theorem respond_stream (s : State) (st : Status) (r : Result) :
    (s.respond st r).stream = s.stream := rfl
@[simp] theorem respond_position (s : State) (st : Status) (r : Result) :
    (s.respond st r).position = s.position := rfl
@[simp] theorem respond_hostTasks (s : State) (st : Status) (r : Result) :
    (s.respond st r).hostTasks = s.hostTasks := rfl
@[simp] theorem respond_burstsTaken (s : State) (st : Status) (r : Result) :
    (s.respond st r).burstsTaken = s.burstsTaken := rfl
@[simp] theorem respond_lineEvents (s : State) (st : Status) (r : Result) :
    (s.respond st r).lineEvents = s.lineEvents := rfl
@[simp] theorem respond_timerNext (s : State) (st : Status) (r : Result) :
    (s.respond st r).timerNext = s.timerNext := rfl

/-! ### `raise` -/

@[simp] theorem raise_lastEdgeTime (s : State) (c : FaultCause) (op : Opcode) :
    (s.raise c op).lastEdgeTime = s.lastEdgeTime := rfl
@[simp] theorem raise_pending (s : State) (c : FaultCause) (op : Opcode) :
    (s.raise c op).pending = s.pending := rfl
@[simp] theorem raise_pendingOvf (s : State) (c : FaultCause) (op : Opcode) :
    (s.raise c op).pendingOvf = s.pendingOvf := rfl
@[simp] theorem raise_edgeCount (s : State) (c : FaultCause) (op : Opcode) :
    (s.raise c op).edgeCount = s.edgeCount := rfl
@[simp] theorem raise_runState (s : State) (c : FaultCause) (op : Opcode) :
    (s.raise c op).runState = s.runState := rfl
@[simp] theorem raise_faultCause (s : State) (c : FaultCause) (op : Opcode) :
    (s.raise c op).faultCause = c.code := rfl
@[simp] theorem raise_faultOp (s : State) (c : FaultCause) (op : Opcode) :
    (s.raise c op).faultOp = op.code := rfl
@[simp] theorem raise_out (s : State) (c : FaultCause) (op : Opcode) :
    (s.raise c op).out = s.out := rfl
@[simp] theorem raise_responses (s : State) (c : FaultCause) (op : Opcode) :
    (s.raise c op).responses = s.responses ++ [⟨.faulted, .none⟩] := rfl
@[simp] theorem raise_cfg (s : State) (c : FaultCause) (op : Opcode) :
    (s.raise c op).cfg = s.cfg := rfl
@[simp] theorem raise_stream (s : State) (c : FaultCause) (op : Opcode) :
    (s.raise c op).stream = s.stream := rfl
@[simp] theorem raise_position (s : State) (c : FaultCause) (op : Opcode) :
    (s.raise c op).position = s.position := rfl
@[simp] theorem raise_hostTasks (s : State) (c : FaultCause) (op : Opcode) :
    (s.raise c op).hostTasks = s.hostTasks := rfl
@[simp] theorem raise_burstsTaken (s : State) (c : FaultCause) (op : Opcode) :
    (s.raise c op).burstsTaken = s.burstsTaken := rfl
@[simp] theorem raise_lineEvents (s : State) (c : FaultCause) (op : Opcode) :
    (s.raise c op).lineEvents = s.lineEvents := rfl
@[simp] theorem raise_timerNext (s : State) (c : FaultCause) (op : Opcode) :
    (s.raise c op).timerNext = s.timerNext := rfl

/-! ### `markEdge` -/

@[simp] theorem markEdge_lastEdgeTime (s : State) (ts : Nanos) :
    (s.markEdge ts).lastEdgeTime = ts := rfl
@[simp] theorem markEdge_pending (s : State) (ts : Nanos) :
    (s.markEdge ts).pending = s.pending := rfl
@[simp] theorem markEdge_pendingOvf (s : State) (ts : Nanos) :
    (s.markEdge ts).pendingOvf = s.pendingOvf := rfl
@[simp] theorem markEdge_edgeCount (s : State) (ts : Nanos) :
    (s.markEdge ts).edgeCount = BitVec.ofNat 32 (min (s.edgeCount.toNat + 1) s.cfg.edgeCountMax) := rfl
@[simp] theorem markEdge_runState (s : State) (ts : Nanos) :
    (s.markEdge ts).runState = s.runState := rfl
@[simp] theorem markEdge_faultCause (s : State) (ts : Nanos) :
    (s.markEdge ts).faultCause = s.faultCause := rfl
@[simp] theorem markEdge_faultOp (s : State) (ts : Nanos) :
    (s.markEdge ts).faultOp = s.faultOp := rfl
@[simp] theorem markEdge_out (s : State) (ts : Nanos) :
    (s.markEdge ts).out = s.out := rfl
@[simp] theorem markEdge_responses (s : State) (ts : Nanos) :
    (s.markEdge ts).responses = s.responses := rfl
@[simp] theorem markEdge_cfg (s : State) (ts : Nanos) :
    (s.markEdge ts).cfg = s.cfg := rfl
@[simp] theorem markEdge_stream (s : State) (ts : Nanos) :
    (s.markEdge ts).stream = s.stream := rfl
@[simp] theorem markEdge_position (s : State) (ts : Nanos) :
    (s.markEdge ts).position = s.position := rfl
@[simp] theorem markEdge_hostTasks (s : State) (ts : Nanos) :
    (s.markEdge ts).hostTasks = s.hostTasks := rfl
@[simp] theorem markEdge_burstsTaken (s : State) (ts : Nanos) :
    (s.markEdge ts).burstsTaken = s.burstsTaken := rfl
@[simp] theorem markEdge_lineEvents (s : State) (ts : Nanos) :
    (s.markEdge ts).lineEvents = s.lineEvents := rfl
@[simp] theorem markEdge_timerNext (s : State) (ts : Nanos) :
    (s.markEdge ts).timerNext = s.timerNext := rfl

/-! ### `flush` -/

@[simp] theorem flush_lastEdgeTime (s : State) :
    (s.flush).lastEdgeTime = s.lastEdgeTime := rfl
@[simp] theorem flush_pending (s : State) :
    (s.flush).pending = [] := rfl
@[simp] theorem flush_pendingOvf (s : State) :
    (s.flush).pendingOvf = false := rfl
@[simp] theorem flush_edgeCount (s : State) :
    (s.flush).edgeCount = s.edgeCount := rfl
@[simp] theorem flush_runState (s : State) :
    (s.flush).runState = s.runState := rfl
@[simp] theorem flush_faultCause (s : State) :
    (s.flush).faultCause = s.faultCause := rfl
@[simp] theorem flush_faultOp (s : State) :
    (s.flush).faultOp = s.faultOp := rfl
@[simp] theorem flush_out (s : State) :
    (s.flush).out = s.out ++ [⟨s.pending, s.pendingOvf⟩] := rfl
@[simp] theorem flush_responses (s : State) :
    (s.flush).responses = s.responses := rfl
@[simp] theorem flush_cfg (s : State) :
    (s.flush).cfg = s.cfg := rfl
@[simp] theorem flush_stream (s : State) :
    (s.flush).stream = s.stream := rfl
@[simp] theorem flush_position (s : State) :
    (s.flush).position = s.position := rfl
@[simp] theorem flush_hostTasks (s : State) :
    (s.flush).hostTasks = s.hostTasks := rfl
@[simp] theorem flush_burstsTaken (s : State) :
    (s.flush).burstsTaken = s.burstsTaken := rfl
@[simp] theorem flush_lineEvents (s : State) :
    (s.flush).lineEvents = s.lineEvents := rfl
@[simp] theorem flush_timerNext (s : State) :
    (s.flush).timerNext = s.timerNext := rfl

/-! ### `applyReset` -/

@[simp] theorem applyReset_lastEdgeTime (s : State) :
    (s.applyReset).lastEdgeTime = 0#64 := rfl
@[simp] theorem applyReset_pending (s : State) :
    (s.applyReset).pending = [] := rfl
@[simp] theorem applyReset_pendingOvf (s : State) :
    (s.applyReset).pendingOvf = false := rfl
@[simp] theorem applyReset_edgeCount (s : State) :
    (s.applyReset).edgeCount = 0#32 := rfl
@[simp] theorem applyReset_runState (s : State) :
    (s.applyReset).runState = .running := rfl
@[simp] theorem applyReset_faultCause (s : State) :
    (s.applyReset).faultCause = 0#4 := rfl
@[simp] theorem applyReset_faultOp (s : State) :
    (s.applyReset).faultOp = 0#4 := rfl
@[simp] theorem applyReset_out (s : State) :
    (s.applyReset).out = s.out := rfl
@[simp] theorem applyReset_responses (s : State) :
    (s.applyReset).responses = s.responses := rfl
@[simp] theorem applyReset_cfg (s : State) :
    (s.applyReset).cfg = s.cfg := rfl
@[simp] theorem applyReset_stream (s : State) :
    (s.applyReset).stream = s.stream := rfl
@[simp] theorem applyReset_position (s : State) :
    (s.applyReset).position = s.position := rfl
@[simp] theorem applyReset_hostTasks (s : State) :
    (s.applyReset).hostTasks = s.hostTasks := rfl
@[simp] theorem applyReset_burstsTaken (s : State) :
    (s.applyReset).burstsTaken = s.burstsTaken := rfl
@[simp] theorem applyReset_lineEvents (s : State) :
    (s.applyReset).lineEvents = s.lineEvents := rfl
@[simp] theorem applyReset_timerNext (s : State) :
    (s.applyReset).timerNext = s.timerNext := rfl

/-! ### `advance` -/

@[simp] theorem advance_lastEdgeTime (s : State) :
    (s.advance).lastEdgeTime = s.lastEdgeTime := rfl
@[simp] theorem advance_pending (s : State) :
    (s.advance).pending = s.pending := rfl
@[simp] theorem advance_pendingOvf (s : State) :
    (s.advance).pendingOvf = s.pendingOvf := rfl
@[simp] theorem advance_edgeCount (s : State) :
    (s.advance).edgeCount = s.edgeCount := rfl
@[simp] theorem advance_runState (s : State) :
    (s.advance).runState = s.runState := rfl
@[simp] theorem advance_faultCause (s : State) :
    (s.advance).faultCause = s.faultCause := rfl
@[simp] theorem advance_faultOp (s : State) :
    (s.advance).faultOp = s.faultOp := rfl
@[simp] theorem advance_out (s : State) :
    (s.advance).out = s.out := rfl
@[simp] theorem advance_responses (s : State) :
    (s.advance).responses = s.responses := rfl
@[simp] theorem advance_cfg (s : State) :
    (s.advance).cfg = s.cfg := rfl
@[simp] theorem advance_stream (s : State) :
    (s.advance).stream = s.stream := rfl
@[simp] theorem advance_position (s : State) :
    (s.advance).position = s.position + 1 := rfl
@[simp] theorem advance_hostTasks (s : State) :
    (s.advance).hostTasks = s.hostTasks := rfl
@[simp] theorem advance_burstsTaken (s : State) :
    (s.advance).burstsTaken = s.burstsTaken := rfl
@[simp] theorem advance_lineEvents (s : State) :
    (s.advance).lineEvents = s.lineEvents := rfl
@[simp] theorem advance_timerNext (s : State) :
    (s.advance).timerNext = s.timerNext := rfl

/-! ### `withFetchWord` -/

@[simp] theorem withFetchWord_lastEdgeTime (s : State) (nbits w : Nat) :
    (s.withFetchWord nbits w).lastEdgeTime = s.lastEdgeTime := rfl
@[simp] theorem withFetchWord_pending (s : State) (nbits w : Nat) :
    (s.withFetchWord nbits w).pending = s.pending := rfl
@[simp] theorem withFetchWord_pendingOvf (s : State) (nbits w : Nat) :
    (s.withFetchWord nbits w).pendingOvf = s.pendingOvf := rfl
@[simp] theorem withFetchWord_edgeCount (s : State) (nbits w : Nat) :
    (s.withFetchWord nbits w).edgeCount = s.edgeCount := rfl
@[simp] theorem withFetchWord_runState (s : State) (nbits w : Nat) :
    (s.withFetchWord nbits w).runState = s.runState := rfl
@[simp] theorem withFetchWord_faultCause (s : State) (nbits w : Nat) :
    (s.withFetchWord nbits w).faultCause = s.faultCause := rfl
@[simp] theorem withFetchWord_faultOp (s : State) (nbits w : Nat) :
    (s.withFetchWord nbits w).faultOp = s.faultOp := rfl
@[simp] theorem withFetchWord_out (s : State) (nbits w : Nat) :
    (s.withFetchWord nbits w).out = s.out := rfl
@[simp] theorem withFetchWord_responses (s : State) (nbits w : Nat) :
    (s.withFetchWord nbits w).responses = s.responses := rfl
@[simp] theorem withFetchWord_cfg (s : State) (nbits w : Nat) :
    (s.withFetchWord nbits w).cfg = s.cfg := rfl
@[simp] theorem withFetchWord_stream (s : State) (nbits w : Nat) :
    (s.withFetchWord nbits w).stream = s.stream.take s.position ++ .request (tableRequest nbits w) :: s.remaining := rfl
@[simp] theorem withFetchWord_position (s : State) (nbits w : Nat) :
    (s.withFetchWord nbits w).position = (s.stream.take s.position).length := rfl
@[simp] theorem withFetchWord_hostTasks (s : State) (nbits w : Nat) :
    (s.withFetchWord nbits w).hostTasks = s.hostTasks := rfl
@[simp] theorem withFetchWord_burstsTaken (s : State) (nbits w : Nat) :
    (s.withFetchWord nbits w).burstsTaken = s.burstsTaken := rfl
@[simp] theorem withFetchWord_lineEvents (s : State) (nbits w : Nat) :
    (s.withFetchWord nbits w).lineEvents = s.lineEvents := rfl
@[simp] theorem withFetchWord_timerNext (s : State) (nbits w : Nat) :
    (s.withFetchWord nbits w).timerNext = s.timerNext := rfl

/-! ### `append`: the fields it never changes -/

@[simp] theorem append_lastEdgeTime (s : State) (p : Pulse) :
    (s.append p).lastEdgeTime = s.lastEdgeTime := by
  unfold State.append; split <;> rfl
@[simp] theorem append_edgeCount (s : State) (p : Pulse) :
    (s.append p).edgeCount = s.edgeCount := by
  unfold State.append; split <;> rfl
@[simp] theorem append_runState (s : State) (p : Pulse) :
    (s.append p).runState = s.runState := by
  unfold State.append; split <;> rfl
@[simp] theorem append_faultCause (s : State) (p : Pulse) :
    (s.append p).faultCause = s.faultCause := by
  unfold State.append; split <;> rfl
@[simp] theorem append_faultOp (s : State) (p : Pulse) :
    (s.append p).faultOp = s.faultOp := by
  unfold State.append; split <;> rfl
@[simp] theorem append_out (s : State) (p : Pulse) :
    (s.append p).out = s.out := by
  unfold State.append; split <;> rfl
@[simp] theorem append_responses (s : State) (p : Pulse) :
    (s.append p).responses = s.responses := by
  unfold State.append; split <;> rfl
@[simp] theorem append_cfg (s : State) (p : Pulse) :
    (s.append p).cfg = s.cfg := by
  unfold State.append; split <;> rfl
@[simp] theorem append_stream (s : State) (p : Pulse) :
    (s.append p).stream = s.stream := by
  unfold State.append; split <;> rfl
@[simp] theorem append_position (s : State) (p : Pulse) :
    (s.append p).position = s.position := by
  unfold State.append; split <;> rfl
@[simp] theorem append_hostTasks (s : State) (p : Pulse) :
    (s.append p).hostTasks = s.hostTasks := by
  unfold State.append; split <;> rfl
@[simp] theorem append_burstsTaken (s : State) (p : Pulse) :
    (s.append p).burstsTaken = s.burstsTaken := by
  unfold State.append; split <;> rfl
@[simp] theorem append_lineEvents (s : State) (p : Pulse) :
    (s.append p).lineEvents = s.lineEvents := by
  unfold State.append; split <;> rfl
@[simp] theorem append_timerNext (s : State) (p : Pulse) :
    (s.append p).timerNext = s.timerNext := by
  unfold State.append; split <;> rfl

/-! ### `endLoop`: the fields it never changes -/

@[simp] theorem endLoop_lastEdgeTime (s : State) (ended : RunState) :
    (s.endLoop ended).lastEdgeTime = s.lastEdgeTime := by
  unfold State.endLoop; split <;> rfl
@[simp] theorem endLoop_pending (s : State) (ended : RunState) :
    (s.endLoop ended).pending = s.pending := by
  unfold State.endLoop; split <;> rfl
@[simp] theorem endLoop_pendingOvf (s : State) (ended : RunState) :
    (s.endLoop ended).pendingOvf = s.pendingOvf := by
  unfold State.endLoop; split <;> rfl
@[simp] theorem endLoop_edgeCount (s : State) (ended : RunState) :
    (s.endLoop ended).edgeCount = s.edgeCount := by
  unfold State.endLoop; split <;> rfl
@[simp] theorem endLoop_faultCause (s : State) (ended : RunState) :
    (s.endLoop ended).faultCause = s.faultCause := by
  unfold State.endLoop; split <;> rfl
@[simp] theorem endLoop_faultOp (s : State) (ended : RunState) :
    (s.endLoop ended).faultOp = s.faultOp := by
  unfold State.endLoop; split <;> rfl
@[simp] theorem endLoop_out (s : State) (ended : RunState) :
    (s.endLoop ended).out = s.out := by
  unfold State.endLoop; split <;> rfl
@[simp] theorem endLoop_responses (s : State) (ended : RunState) :
    (s.endLoop ended).responses = s.responses := by
  unfold State.endLoop; split <;> rfl
@[simp] theorem endLoop_cfg (s : State) (ended : RunState) :
    (s.endLoop ended).cfg = s.cfg := by
  unfold State.endLoop; split <;> rfl
@[simp] theorem endLoop_stream (s : State) (ended : RunState) :
    (s.endLoop ended).stream = s.stream := by
  unfold State.endLoop; split <;> rfl
@[simp] theorem endLoop_position (s : State) (ended : RunState) :
    (s.endLoop ended).position = s.position := by
  unfold State.endLoop; split <;> rfl
@[simp] theorem endLoop_hostTasks (s : State) (ended : RunState) :
    (s.endLoop ended).hostTasks = s.hostTasks := by
  unfold State.endLoop; split <;> rfl
@[simp] theorem endLoop_burstsTaken (s : State) (ended : RunState) :
    (s.endLoop ended).burstsTaken = s.burstsTaken := by
  unfold State.endLoop; split <;> rfl
@[simp] theorem endLoop_lineEvents (s : State) (ended : RunState) :
    (s.endLoop ended).lineEvents = s.lineEvents := by
  unfold State.endLoop; split <;> rfl
@[simp] theorem endLoop_timerNext (s : State) (ended : RunState) :
    (s.endLoop ended).timerNext = s.timerNext := by
  unfold State.endLoop; split <;> rfl

/-! ### `takeBurst`: the fields it never changes -/

@[simp] theorem takeBurst_lastEdgeTime (s : State) (rest : List HostTask) :
    (s.takeBurst rest).lastEdgeTime = s.lastEdgeTime := by
  unfold State.takeBurst; split <;> rfl
@[simp] theorem takeBurst_pending (s : State) (rest : List HostTask) :
    (s.takeBurst rest).pending = s.pending := by
  unfold State.takeBurst; split <;> rfl
@[simp] theorem takeBurst_pendingOvf (s : State) (rest : List HostTask) :
    (s.takeBurst rest).pendingOvf = s.pendingOvf := by
  unfold State.takeBurst; split <;> rfl
@[simp] theorem takeBurst_edgeCount (s : State) (rest : List HostTask) :
    (s.takeBurst rest).edgeCount = s.edgeCount := by
  unfold State.takeBurst; split <;> rfl
@[simp] theorem takeBurst_runState (s : State) (rest : List HostTask) :
    (s.takeBurst rest).runState = s.runState := by
  unfold State.takeBurst; split <;> rfl
@[simp] theorem takeBurst_faultCause (s : State) (rest : List HostTask) :
    (s.takeBurst rest).faultCause = s.faultCause := by
  unfold State.takeBurst; split <;> rfl
@[simp] theorem takeBurst_faultOp (s : State) (rest : List HostTask) :
    (s.takeBurst rest).faultOp = s.faultOp := by
  unfold State.takeBurst; split <;> rfl
@[simp] theorem takeBurst_out (s : State) (rest : List HostTask) :
    (s.takeBurst rest).out = s.out := by
  unfold State.takeBurst; split <;> rfl
@[simp] theorem takeBurst_responses (s : State) (rest : List HostTask) :
    (s.takeBurst rest).responses = s.responses := by
  unfold State.takeBurst; split <;> rfl
@[simp] theorem takeBurst_cfg (s : State) (rest : List HostTask) :
    (s.takeBurst rest).cfg = s.cfg := by
  unfold State.takeBurst; split <;> rfl
@[simp] theorem takeBurst_stream (s : State) (rest : List HostTask) :
    (s.takeBurst rest).stream = s.stream := by
  unfold State.takeBurst; split <;> rfl
@[simp] theorem takeBurst_position (s : State) (rest : List HostTask) :
    (s.takeBurst rest).position = s.position := by
  unfold State.takeBurst; split <;> rfl
@[simp] theorem takeBurst_lineEvents (s : State) (rest : List HostTask) :
    (s.takeBurst rest).lineEvents = s.lineEvents := by
  unfold State.takeBurst; split <;> rfl
@[simp] theorem takeBurst_timerNext (s : State) (rest : List HostTask) :
    (s.takeBurst rest).timerNext = s.timerNext := by
  unfold State.takeBurst; split <;> rfl

/-! ### `continueHost`: the fields it never changes -/

@[simp] theorem continueHost_lastEdgeTime (s : State) (t : HostTask) :
    (s.continueHost t).lastEdgeTime = s.lastEdgeTime := by
  unfold State.continueHost; split <;> rfl
@[simp] theorem continueHost_pending (s : State) (t : HostTask) :
    (s.continueHost t).pending = s.pending := by
  unfold State.continueHost; split <;> rfl
@[simp] theorem continueHost_pendingOvf (s : State) (t : HostTask) :
    (s.continueHost t).pendingOvf = s.pendingOvf := by
  unfold State.continueHost; split <;> rfl
@[simp] theorem continueHost_edgeCount (s : State) (t : HostTask) :
    (s.continueHost t).edgeCount = s.edgeCount := by
  unfold State.continueHost; split <;> rfl
@[simp] theorem continueHost_runState (s : State) (t : HostTask) :
    (s.continueHost t).runState = s.runState := by
  unfold State.continueHost; split <;> rfl
@[simp] theorem continueHost_faultCause (s : State) (t : HostTask) :
    (s.continueHost t).faultCause = s.faultCause := by
  unfold State.continueHost; split <;> rfl
@[simp] theorem continueHost_faultOp (s : State) (t : HostTask) :
    (s.continueHost t).faultOp = s.faultOp := by
  unfold State.continueHost; split <;> rfl
@[simp] theorem continueHost_out (s : State) (t : HostTask) :
    (s.continueHost t).out = s.out := by
  unfold State.continueHost; split <;> rfl
@[simp] theorem continueHost_responses (s : State) (t : HostTask) :
    (s.continueHost t).responses = s.responses := by
  unfold State.continueHost; split <;> rfl
@[simp] theorem continueHost_cfg (s : State) (t : HostTask) :
    (s.continueHost t).cfg = s.cfg := by
  unfold State.continueHost; split <;> rfl
@[simp] theorem continueHost_stream (s : State) (t : HostTask) :
    (s.continueHost t).stream = s.stream := by
  unfold State.continueHost; split <;> rfl
@[simp] theorem continueHost_position (s : State) (t : HostTask) :
    (s.continueHost t).position = s.position := by
  unfold State.continueHost; split <;> rfl
@[simp] theorem continueHost_burstsTaken (s : State) (t : HostTask) :
    (s.continueHost t).burstsTaken = s.burstsTaken := by
  unfold State.continueHost; split <;> rfl
@[simp] theorem continueHost_lineEvents (s : State) (t : HostTask) :
    (s.continueHost t).lineEvents = s.lineEvents := by
  unfold State.continueHost; split <;> rfl
@[simp] theorem continueHost_timerNext (s : State) (t : HostTask) :
    (s.continueHost t).timerNext = s.timerNext := by
  unfold State.continueHost; split <;> rfl

/-- `append` with room: the pulse goes to the end (R194). -/
theorem append_of_room (s : State) (p : Pulse) (h : s.pending.length < s.cfg.pendingCap) :
    s.append p = { s with pending := s.pending ++ [p] } := if_pos h

/-- `append` when full: the pulse is dropped and the overflow bit set (R194). -/
theorem append_of_full (s : State) (p : Pulse) (h : ¬ s.pending.length < s.cfg.pendingCap) :
    s.append p = { s with pendingOvf := true } := if_neg h

/-- `endLoop` from Running. -/
theorem endLoop_of_running (s : State) (ended : RunState) (h : s.runState = .running) :
    s.endLoop ended = { s with runState := ended } := if_pos h

/-- `endLoop` elsewhere changes nothing. -/
theorem endLoop_of_stopped (s : State) (ended : RunState) (h : s.runState ≠ .running) :
    s.endLoop ended = s := if_neg h

/-! ### What is left of the stream -/

/-- What is left after the next place has been taken. -/
theorem remaining_advance {s : State} {a : Arrival} {rest : List Arrival} (h : s.remaining = a :: rest) :
    s.advance.remaining = rest := by
  have := congrArg List.tail h
  simpa [State.remaining, List.tail_drop] using this

/-- Only the stream and the place decide what is left of it. -/
theorem remaining_congr {s t : State} (hs : t.stream = s.stream) (hp : t.position = s.position) :
    t.remaining = s.remaining := by
  simp [State.remaining, hs, hp]

/-- A next place is a place of the stream. -/
theorem position_lt_of_remaining {s : State} {a : Arrival} {rest : List Arrival} (h : s.remaining = a :: rest) :
    s.position < s.stream.length := by
  have := congrArg List.length h
  simp [State.remaining] at this
  omega

/-- The placed request comes next, before what was left (log 2). -/
theorem withFetchWord_remaining (s : State) (nbits w : Nat) :
    (s.withFetchWord nbits w).remaining = .request (tableRequest nbits w) :: s.remaining := by
  unfold State.withFetchWord
  simp only [State.remaining, List.drop_left]

end Sys2Proof.Machine
end

