-- ==== Sys2Proof/Laws/Ops.lean ====
section
/-! SUPPORT. One lemma per shared operation, saying everything it can do. -/

namespace Sys2Proof.Machine

/-- `faulted` is the fault register's zero test (R29, R30). -/
theorem faulted_iff (s : State) : s.faulted = true ↔ s.faultCause ≠ 0#4 := by
  simp [State.faulted]

theorem not_faulted_iff (s : State) : s.faulted = false ↔ s.faultCause = 0#4 := by
  simp [State.faulted]

/-- `seenEdge` is the edge counter's zero test (R27, R30). -/
theorem seenEdge_iff (s : State) : s.seenEdge = true ↔ s.edgeCount ≠ 0#32 := by
  simp [State.seenEdge]

/-- While faulted a request is answered FAULTED, whatever it is (R226). -/
theorem unlessFaulted_of_faulted (s : State) (f : State → State) (h : s.faultCause ≠ 0#4) :
    s.unlessFaulted f = s.respond .faulted .none := by
  simp [State.unlessFaulted, (faulted_iff s).2 h]

/-- While healthy it is served. -/
theorem unlessFaulted_of_healthy (s : State) (f : State → State) (h : s.faultCause = 0#4) :
    s.unlessFaulted f = f s := by
  simp [State.unlessFaulted, (not_faulted_iff s).2 h]

/-- Everything a guarded request can do. -/
theorem unlessFaulted_cases (s : State) (f : State → State) :
    (s.faultCause ≠ 0#4 ∧ s.unlessFaulted f = s.respond .faulted .none) ∨
      (s.faultCause = 0#4 ∧ s.unlessFaulted f = f s) := by
  by_cases h : s.faultCause = 0#4
  · exact .inr ⟨h, unlessFaulted_of_healthy s f h⟩
  · exact .inl ⟨h, unlessFaulted_of_faulted s f h⟩

@[simp] theorem answer_ok (s : State) (op : Opcode) (r : Result) :
    s.answer op (.ok r) = s.respond .ok r := rfl

@[simp] theorem answer_error (s : State) (op : Opcode) (c : FaultCause) :
    s.answer op (.error c) = s.raise c op := rfl

/-- Everything `append` can do (R194). -/
theorem append_cases (s : State) (p : Pulse) :
    (s.pending.length < s.cfg.pendingCap ∧ s.append p = { s with pending := s.pending ++ [p] }) ∨
      (¬ s.pending.length < s.cfg.pendingCap ∧ s.append p = { s with pendingOvf := true }) := by
  by_cases h : s.pending.length < s.cfg.pendingCap
  · exact .inl ⟨h, append_of_room s p h⟩
  · exact .inr ⟨h, append_of_full s p h⟩

/-- Everything `endLoop` can do (R28). -/
theorem endLoop_cases (s : State) (ended : RunState) :
    (s.runState = .running ∧ s.endLoop ended = { s with runState := ended }) ∨
      (s.runState ≠ .running ∧ s.endLoop ended = s) := by
  by_cases h : s.runState = .running
  · exact .inl ⟨h, endLoop_of_running s ended h⟩
  · exact .inr ⟨h, endLoop_of_stopped s ended h⟩

/-- Everything `takeBurst` can do (R231; log 18). -/
theorem takeBurst_cases (s : State) (rest : List HostTask) :
    (∃ b, s.out[s.burstsTaken]? = some b ∧ s.takeBurst rest =
        { s with burstsTaken := s.burstsTaken + 1, hostTasks := .receiveCheck b.pulses :: rest }) ∨
      (s.out.length ≤ s.burstsTaken ∧ s.takeBurst rest = s) := by
  cases h : s.out[s.burstsTaken]? with
  | some b => exact .inl ⟨b, rfl, by simp [State.takeBurst, h]⟩
  | none => exact .inr ⟨by simpa using h, by simp [State.takeBurst, h]⟩

/-- Durations and times of 64 bits fit a TS_WIDTH of 64 (R8, R57). -/
theorem inWidth_of_tsWidth {c : Config} (i : Instr) (h : c.tsWidth = 64) : i.inWidth c = true := by
  cases i <;> simp only [Instr.inWidth, h, List.all_eq_true, decide_eq_true_eq] <;>
    first | rfl | exact BitVec.isLt _ | (intro p _; exact BitVec.isLt _)

/-- No fault code is the code of no fault (R222). -/
theorem FaultCause.code_ne_zero (c : FaultCause) : c.code ≠ 0#4 := by cases c <;> decide

/-- Everything `processEdge` can do (R191 to R195). -/
theorem processEdge_cases (s : State) (e : EdgeType) (ts : Nanos) :
    (e = .falling ∧ s.edgeCount ≠ 0#32 ∧
        s.processEdge e ts = (s.append (classify s.cfg (s.interval ts))).markEdge ts) ∨
      ((e = .rising ∨ s.edgeCount = 0#32) ∧ s.processEdge e ts = s.markEdge ts) := by
  by_cases h : e = .falling ∧ s.seenEdge = true
  · exact .inl ⟨h.1, (seenEdge_iff s).1 h.2, by
      simp [State.processEdge, State.edgePulse, h]⟩
  · refine .inr ⟨?_, by simp [State.processEdge, State.edgePulse, h]⟩
    cases e
    · exact .inl rfl
    · exact .inr (by simpa [State.seenEdge] using h)

end Sys2Proof.Machine
end

