-- ==== Sys2Proof/Laws/Exec.lean ====
section
/-! SUPPORT. Everything an instruction can do, said once: six shapes of next state, cited instead of unfolding `exec`. -/

namespace Sys2Proof.Machine

/-- A request answered by a computed result or a fault ends in a response or in `raise`. -/
theorem answer_cases (s : State) (op : Opcode) (x : Except FaultCause Result) :
    (∃ r, x = .ok r ∧ s.answer op x = s.respond .ok r) ∨ (∃ c, x = .error c ∧ s.answer op x = s.raise c op) := by
  cases x with
  | ok r => exact .inl ⟨r, rfl, rfl⟩
  | error c => exact .inr ⟨c, rfl, rfl⟩

/-- `bit` raises NOT_A_BIT and nothing else (R104). -/
theorem bit_error {p : Pulse} {c : FaultCause} (h : bit p = .error c) : c = .notABit := by
  unfold bit at h
  split at h <;> first | (cases h; done) | (injection h with h; exact h.symm)

/-- `bits` raises NOT_A_BIT and nothing else (R105). -/
theorem bits_error {l : List Pulse} {c : FaultCause} (h : bits l = .error c) : c = .notABit := by
  induction l with
  | nil => cases h
  | cons p l ih =>
    rw [bits, List.mapM_cons] at h
    cases hb : bit p with
    | error d =>
      rw [hb] at h
      injection h with h
      exact h ▸ bit_error hb
    | ok v =>
      rw [hb] at h
      cases hl : bits l with
      | error d =>
        rw [bits] at hl
        simp only [hl] at h
        injection h with h
        subst h
        exact ih (by rw [bits, hl])
      | ok w =>
        rw [bits] at hl
        simp only [hl] at h
        cases h

/-- The causes P2B can raise (R106, R223). -/
theorem p2b_error {l : List Pulse} {c : FaultCause} (h : p2b l = .error c) :
    c = .badLength ∨ c = .notABit := by
  unfold p2b at h
  split at h
  · injection h with h; exact .inl h.symm
  · cases hb : bits l with
    | error d => rw [hb] at h; injection h with h; exact .inr (h ▸ bits_error hb)
    | ok v => rw [hb] at h; cases h

/-- The cause of a byte sequence that cannot be formed. -/
theorem packBytes_error {l : List Pulse} {c : FaultCause} (h : packBytes l = .error c) : c = .notABit := by
  unfold packBytes at h
  cases hb : bits l with
  | error d => rw [hb] at h; injection h with h; exact h ▸ bits_error hb
  | ok v => rw [hb] at h; cases h

/-- The causes CHECKSUM can raise (R170, R223). -/
theorem checksum_error {l : List Pulse} {c : FaultCause} (h : checksum l = .error c) :
    c = .badLength ∨ c = .notABit := by
  unfold checksum at h
  split at h
  · injection h with h; exact .inl h.symm
  · cases hb : packBytes l with
    | error d => rw [hb] at h; injection h with h; exact .inr (h ▸ packBytes_error hb)
    | ok v => rw [hb] at h; cases h

/-- The causes F2R can raise (R172, R223). -/
theorem f2r_error {l : List Pulse} {c : FaultCause} (h : f2r l = .error c) :
    c = .badLength ∨ c = .notABit := by
  unfold f2r at h
  split at h
  · injection h with h; exact .inl h.symm
  · split at h
    · unfold recordOfBytes at h
      split at h
      · cases h
      · cases h
      · injection h with h; exact .inl h.symm
    · rename_i hb
      injection h with h
      exact .inr (h ▸ packBytes_error hb)

/-- The causes ENCODE can raise (R133, R223). -/
theorem encodeWord_error {k : Codes} {w : CommandWord} {c : FaultCause} (h : encodeWord k w = .error c) :
    c = .illegalEncoding ∨ c = .unmappedTemp := by
  unfold encodeWord at h
  split at h
  · injection h with h; exact .inl h.symm
  · rename_i cmd _
    unfold enc at h
    split at h
    · cases h
    · right
      cases ht : onTempCode k cmd with
      | ok v => rw [ht] at h; cases h
      | error d =>
        rw [ht] at h
        injection h with h
        subst h
        unfold onTempCode at ht
        split at ht
        · cases ht
        · split at ht
          · cases ht
          · injection ht with ht; exact ht.symm

/-- Everything an instruction can do. -/
theorem exec_cases {i : Instr} {s t : State} (h : exec i s = .next t) :
    (∃ st r, t = s.respond st r ∧ (st ≠ .ok → r = .none)) ∨
    (∃ c : FaultCause, s.faultCause = 0#4 ∧ faultPairOk c.code i.opcode.code = true ∧ t = s.raise c i.opcode) ∨
    (∃ e ts, i = .edge e ts ∧ s.faultCause = 0#4 ∧ s.runState = .running ∧
      s.lastEdgeTime.toNat ≤ ts.toNat ∧ t = (s.processEdge e ts).respond .ok .none) ∨
    (∃ now, i = .tick now ∧ s.faultCause = 0#4 ∧ s.runState = .running ∧
      s.flushDue now = true ∧ t = s.flush.respond .ok .none) ∨
    (i = .abort ∧ s.faultCause = 0#4 ∧ s.runState = .running ∧
      t = { s with runState := .aborted }.respond .ok .none) ∨
    (i = .lineFault ∧ s.faultCause = 0#4 ∧ s.runState = .running ∧
      t = { s with runState := .lineFailed }.respond .ok .none) := by
  have guard : ∀ f : State → State, Host.Outcome.next (s.unlessFaulted f) = Host.Outcome.next (φ := Fault) (ρ := Refusal) t →
      (t = s.respond .faulted .none) ∨ (s.faultCause = 0#4 ∧ t = f s) := by
    intro f hf
    injection hf with hf
    rcases unlessFaulted_cases s f with ⟨_, hg⟩ | ⟨hs, hg⟩
    · exact .inl (hf ▸ hg)
    · exact .inr ⟨hs, hf ▸ hg⟩
  have ans : ∀ x : Except FaultCause Result, (∀ c, x = .error c → faultPairOk c.code i.opcode.code = true) →
      s.faultCause = 0#4 → t = s.answer i.opcode x →
      (∃ st r, t = s.respond st r ∧ (st ≠ .ok → r = .none)) ∨
      (∃ c : FaultCause, s.faultCause = 0#4 ∧ faultPairOk c.code i.opcode.code = true ∧ t = s.raise c i.opcode) := by
    intro x hx hs ht
    rcases answer_cases s i.opcode x with ⟨r, _, hr⟩ | ⟨c, hc, hr⟩
    · exact .inl ⟨.ok, r, ht.trans hr, fun h => absurd rfl h⟩
    · exact .inr ⟨c, hs, hx c hc, ht.trans hr⟩
  have quiet : ∀ st r, t = s.respond st r → (st ≠ .ok → r = .none) → ∃ st r, t = s.respond st r ∧ (st ≠ .ok → r = .none) :=
    fun st r h h' => ⟨st, r, h, h'⟩
  have mapErr : ∀ {α : Type} {f : α → Result} {x : Except FaultCause α} {c : FaultCause},
      x.map f = .error c → x = .error c := by
    intro α f x c hx
    cases x with
    | ok v => cases hx
    | error d => injection hx with hx; rw [hx]
  cases i with
  | status => injection h with h; exact .inl (quiet _ _ h.symm (fun h => absurd rfl h))
  | classify d =>
    rcases guard _ h with h | ⟨_, h⟩ <;> exact .inl (quiet _ _ h (by simp))
  | b2p b =>
    rcases guard _ h with h | ⟨_, h⟩ <;> exact .inl (quiet _ _ h (by simp))
  | assemble r =>
    rcases guard _ h with h | ⟨_, h⟩ <;> exact .inl (quiet _ _ h (by simp))
  | timing r =>
    rcases guard _ h with h | ⟨_, h⟩ <;> exact .inl (quiet _ _ h (by simp))
  | decode r =>
    rcases guard _ h with h | ⟨_, h⟩
    · exact .inl (quiet _ _ h (by simp))
    · split at h <;> exact .inl (quiet _ _ h (by simp))
  | validate pv =>
    rcases guard _ h with h | ⟨_, h⟩
    · exact .inl (quiet _ _ h (by simp))
    · split at h <;> exact .inl (quiet _ _ h (by simp))
  | p2b pv =>
    rcases guard _ h with h | ⟨hs, h⟩
    · exact .inl (quiet _ _ h (by simp))
    · rcases ans _ (fun c hc => by rcases p2b_error (mapErr hc) with rfl | rfl <;> rfl) hs h with h | h
      · exact .inl h
      · exact .inr (.inl h)
  | checksum pv =>
    rcases guard _ h with h | ⟨hs, h⟩
    · exact .inl (quiet _ _ h (by simp))
    · rcases ans _ (fun c hc => by rcases checksum_error (mapErr hc) with rfl | rfl <;> rfl) hs h with h | h
      · exact .inl h
      · exact .inr (.inl h)
  | f2r pv =>
    rcases guard _ h with h | ⟨hs, h⟩
    · exact .inl (quiet _ _ h (by simp))
    · rcases ans _ (fun c hc => by rcases f2r_error (mapErr hc) with rfl | rfl <;> rfl) hs h with h | h
      · exact .inl h
      · exact .inr (.inl h)
  | encode c =>
    rcases guard _ h with h | ⟨hs, h⟩
    · exact .inl (quiet _ _ h (by simp))
    · rcases ans _ (fun c hc => by rcases encodeWord_error (mapErr hc) with rfl | rfl <;> rfl) hs h with h | h
      · exact .inl h
      · exact .inr (.inl h)
  | edge e ts =>
    rcases guard _ h with h | ⟨hs, h⟩
    · exact .inl (quiet _ _ h (by simp))
    · split at h
      · exact .inl (quiet _ _ h (by simp))
      · rename_i hr
        split at h
        · exact .inr (.inl ⟨_, hs, rfl, h⟩)
        · rename_i ht
          exact .inr (.inr (.inl ⟨e, ts, rfl, hs, by simpa using hr, by omega, h⟩))
  | tick now =>
    rcases guard _ h with h | ⟨hs, h⟩
    · exact .inl (quiet _ _ h (by simp))
    · split at h
      · exact .inl (quiet _ _ h (by simp))
      · rename_i hr
        split at h
        · rename_i hd
          exact .inr (.inr (.inr (.inl ⟨now, rfl, hs, by simpa using hr, hd, h⟩)))
        · exact .inl (quiet _ _ h (by simp))
  | abort =>
    rcases guard _ h with h | ⟨hs, h⟩
    · exact .inl (quiet _ _ h (by simp))
    · rcases endLoop_cases s .aborted with ⟨hr, he⟩ | ⟨_, he⟩
      · exact .inr (.inr (.inr (.inr (.inl ⟨rfl, hs, hr, he ▸ h⟩))))
      · exact .inl (quiet _ _ (he ▸ h) (by simp))
  | lineFault =>
    rcases guard _ h with h | ⟨hs, h⟩
    · exact .inl (quiet _ _ h (by simp))
    · rcases endLoop_cases s .lineFailed with ⟨hr, he⟩ | ⟨_, he⟩
      · exact .inr (.inr (.inr (.inr (.inr ⟨rfl, hs, hr, he ▸ h⟩))))
      · exact .inl (quiet _ _ (he ▸ h) (by simp))
  | reserved rest b =>
    rcases guard _ h with h | ⟨hs, h⟩
    · exact .inl (quiet _ _ h (by simp))
    · exact .inr (.inl ⟨_, hs, rfl, h⟩)

/-- While faulted every instruction but STATUS is answered FAULTED (R226). -/
theorem exec_of_faulted {i : Instr} {s : State} (h : s.faultCause ≠ 0#4) (hi : i ≠ .status) :
    exec i s = .next (s.respond .faulted .none) := by
  cases i <;> first | exact absurd rfl hi | exact congrArg _ (unlessFaulted_of_faulted _ _ h)

end Sys2Proof.Machine
end

