-- ==== Sys2Proof/Laws/PulseBit.lean ====
section
/-! SUPPORT. The bits of a pulse sequence, the byte they pack into, and the chunks of eight (R104, R105, R107, R11). -/

namespace Sys2Proof.Machine

/-- `isBit` is the category test of R100. -/
theorem isBit_iff (p : Pulse) : isBit p = true ↔ p.cat = .zero ∨ p.cat = .one := by
  rcases p with ⟨c, d⟩
  cases c <;> simp [isBit]

theorem isBit_false_iff (p : Pulse) : isBit p = false ↔ p.cat = .preamble ∨ p.cat = .invalid := by
  rcases p with ⟨c, d⟩
  cases c <;> simp [isBit]

/-- The bit of a bit pulse (R104). -/
theorem bit_of_isBit {p : Pulse} (h : isBit p = true) : bit p = .ok (decide (p.cat = .one)) := by
  rcases p with ⟨c, d⟩
  cases c <;> simp [isBit] at h <;> rfl

/-- A Preamble or Invalid pulse has no bit (R104). -/
theorem bit_of_not_isBit {p : Pulse} (h : isBit p = false) : bit p = .error .notABit := by
  rcases p with ⟨c, d⟩
  cases c <;> simp [isBit] at h <;> rfl

/-- The bits of a sequence of bit pulses (R105). -/
theorem bits_ok {l : List Pulse} (h : ∀ p ∈ l, isBit p = true) :
    bits l = .ok (l.map fun p => decide (p.cat = .one)) := by
  induction l with
  | nil => rfl
  | cons p l ih =>
    have hl : List.mapM bit l = .ok (l.map fun p => decide (p.cat = .one)) :=
      ih fun q hq => h q (List.mem_cons_of_mem p hq)
    rw [bits, List.mapM_cons, bit_of_isBit (h p List.mem_cons_self), hl]
    rfl

/-- A sequence with a Preamble or Invalid pulse has none (R105). -/
theorem bits_notABit {l : List Pulse} (h : ∃ p ∈ l, isBit p = false) : bits l = .error .notABit := by
  cases hb : bits l with
  | error c => rw [bits_error hb]
  | ok v =>
    exfalso
    induction l generalizing v with
    | nil => simp at h
    | cons p l ih =>
      rw [bits, List.mapM_cons] at hb
      cases hp : bit p with
      | error c => rw [hp] at hb; cases hb
      | ok b =>
        rw [hp] at hb
        cases hl : List.mapM bit l with
        | error c =>
          simp only [hl] at hb
          cases hb
        | ok w =>
          obtain ⟨q, hq, hqb⟩ := h
          rcases List.mem_cons.1 hq with rfl | hq
          · rw [bit_of_not_isBit hqb] at hp; cases hp
          · exact ih ⟨q, hq, hqb⟩ w hl

/-- Eight bits, the first most significant (R53, R105). -/
theorem packBits_getLsbD {bs : List Bool} (h : bs.length = 8) {i : Nat} (hi : i < 8) :
    bs[i]? = some ((packBits bs).getLsbD (7 - i)) := by
  match bs, h with
  | [a, b, c, d, e, f, g, k], _ =>
    have key : ∀ a b c d e f g k : Bool, ∀ i : Fin 8,
        [a, b, c, d, e, f, g, k][i.val]? = some ((packBits [a, b, c, d, e, f, g, k]).getLsbD (7 - i.val)) := by
      decide
    exact key a b c d e f g k ⟨i, hi⟩

/-- The first chunk and the rest (R11). -/
theorem chunks8_of_le {α : Type} {l : List α} (h : 8 ≤ l.length) :
    chunks8 l = l.take 8 :: chunks8 (l.drop 8) := by
  match l, h with
  | a :: b :: c :: d :: e :: f :: g :: k :: rest, _ => simp [chunks8]

/-- Eight nominal pulses (R107). -/
@[simp] theorem b2p_length (cfg : Config) (b : Byte) : (b2p cfg b).length = 8 := by simp [b2p]

/-- Pulse i of an unpacked byte (R107). -/
theorem b2p_getElem? (cfg : Config) (b : Byte) {i : Nat} (h : i < 8) :
    (b2p cfg b)[i]? = some (nominalPulse cfg (b.getLsbD (7 - i))) := by
  simp [b2p, h]

@[simp] theorem nominalPulse_isBit (cfg : Config) (b : Bool) : isBit (nominalPulse cfg b) = true := by
  cases b <;> rfl

@[simp] theorem nominalPulse_cat (cfg : Config) (b : Bool) :
    (nominalPulse cfg b).cat = if b then .one else .zero := by
  cases b <;> rfl

/-- An unpacked byte consists of bit pulses (R107). -/
theorem b2p_isBit (cfg : Config) (b : Byte) : ∀ p ∈ b2p cfg b, isBit p = true := by
  intro p hp
  obtain ⟨i, _, rfl⟩ := List.mem_map.1 hp
  simp

end Sys2Proof.Machine
end

