-- ==== Sys2Proof/Laws/FrameCodec.lean ====
section
/-! SUPPORT. What packing, `checksum`, `f2r`, `assemble` and `validate` answer on sequences of bit pulses
(R160, R167, R169, R171). -/

namespace Sys2Proof.Machine

/-- The bits of a sequence of bit pulses, as `bits_ok` gives them. -/
def pulseBits (pv : List Pulse) : List Bool := pv.map fun p => decide (p.cat = .one)

@[simp] theorem pulseBits_length (pv : List Pulse) : (pulseBits pv).length = pv.length := by simp [pulseBits]

/-- Bit i of the byte of the eight bits from place k on (R53). -/
theorem packBits_chunk {bs : List Bool} {k i : Nat} (h : k + 8 ≤ bs.length) (hi : i < 8) :
    bs[k + i]? = some ((packBits ((bs.drop k).take 8)).getLsbD (7 - i)) := by
  rw [← packBits_getLsbD (by simp; omega) hi]
  simp [hi]

/-- Three bytes of 24 bits (R11). -/
theorem chunks8_24 {bs : List Bool} (h : bs.length = 24) :
    chunks8 bs = [0, 8, 16].map fun k => (bs.drop k).take 8 := by
  rw [chunks8_of_le (by omega), chunks8_of_le (by simp; omega), chunks8_of_le (by simp; omega)]
  simp only [List.drop_drop]
  rw [List.drop_eq_nil_of_le (i := 8 + 8 + 8) (by omega)]
  rfl

/-- Six bytes of 48 bits (R11). -/
theorem chunks8_48 {bs : List Bool} (h : bs.length = 48) :
    chunks8 bs = [0, 8, 16, 24, 32, 40].map fun k => (bs.drop k).take 8 := by
  rw [chunks8_of_le (by omega), chunks8_of_le (by simp; omega), chunks8_of_le (by simp; omega),
    chunks8_of_le (by simp; omega), chunks8_of_le (by simp; omega), chunks8_of_le (by simp; omega)]
  simp only [List.drop_drop]
  rw [List.drop_eq_nil_of_le (i := 8 + 8 + 8 + 8 + 8 + 8) (by omega)]
  rfl

/-- Packing a sequence of bit pulses never faults. -/
theorem packBytes_ok {pv : List Pulse} (h : ∀ p ∈ pv, isBit p = true) :
    packBytes pv = .ok ((chunks8 (pulseBits pv)).map packBits) := by
  simp [packBytes, bits_ok h, Except.map, pulseBits]

/-- Byte k of the bit pulses from place 8k on. -/
def byteAt (pv : List Pulse) (k : Nat) : Byte := packBits (((pulseBits pv).drop (8 * k)).take 8)

/-- CHECKSUM of 48 bit pulses (R169). -/
theorem checksum_ok {pv : List Pulse} (h : pv.length = 48) (hb : ∀ p ∈ pv, isBit p = true) :
    checksum pv = .ok (byteAt pv 0 == ~~~byteAt pv 1 && (byteAt pv 2 == ~~~byteAt pv 3 &&
      (byteAt pv 4 == ~~~byteAt pv 5 && true))) := by
  rw [checksum, if_neg (by simp [h]), packBytes_ok hb, chunks8_48 (by simpa using h)]
  rfl

/-- F2R of 24 bit pulses (R171). -/
theorem f2r_24 {pv : List Pulse} (h : pv.length = 24) (hb : ∀ p ∈ pv, isBit p = true) :
    f2r pv = .ok (mkRecord (byteAt pv 0) (byteAt pv 1) (byteAt pv 2)) := by
  rw [f2r, if_neg (by simp [h]), packBytes_ok hb, chunks8_24 (by simpa using h)]
  rfl

/-- F2R of 48 bit pulses (R171). -/
theorem f2r_48 {pv : List Pulse} (h : pv.length = 48) (hb : ∀ p ∈ pv, isBit p = true) :
    f2r pv = .ok (mkRecord (byteAt pv 0) (byteAt pv 2) (byteAt pv 4)) := by
  rw [f2r, if_neg (by simp [h]), packBytes_ok hb, chunks8_48 (by simpa using h)]
  rfl

@[simp] theorem assemble_length (cfg : Config) (r : Record) : (assemble cfg r).length = 48 := by
  simp [assemble, Record.bytes]

/-- An assembled frame consists of bit pulses (R160). -/
theorem assemble_isBit (cfg : Config) (r : Record) : ∀ p ∈ assemble cfg r, isBit p = true := by
  intro p hp
  obtain ⟨b, _, hb⟩ := List.mem_flatMap.1 hp
  rcases List.mem_append.1 hb with h | h <;> exact b2p_isBit _ _ _ h

/-- What VALIDATE answers (R167): the first 48 bit pulses of 96, whose categories repeat. -/
theorem validate_some {pv f : List Pulse} (h : validate pv = some f) :
    (pv.filter isBit).length = 96 ∧ f = (pv.filter isBit).take 48 ∧
      f.map (·.cat) = ((pv.filter isBit).drop 48).map (·.cat) := by
  simp only [validate] at h
  split at h
  · cases h
  · rename_i hl
    split at h
    · rename_i he
      cases h
      exact ⟨by simpa using hl, rfl, he⟩
    · cases h

end Sys2Proof.Machine
end

