-- ==== Sys2Proof/Laws/PerInstr.lean ====
section
/-! SUPPORT. The per-instruction family `HeaderOpcode`: the `op` field of an encoded instruction is its opcode (R71,
R77), one lemma per constructor. -/

namespace Sys2Proof.Laws.HeaderOpcode

/-- The header of the instruction's encoding carries its opcode. -/
def Statement (i : Instr) : Prop := Header.opcode (encode i).header = i.opcode

theorem status : Statement .status := opcode_mkHeader _ _ _
theorem classify (d : Nanos) : Statement (.classify d) := opcode_mkHeader _ _ _
theorem p2b (pv : List Pulse) : Statement (.p2b pv) := opcode_mkHeader _ _ _
theorem b2p (b : Byte) : Statement (.b2p b) := opcode_mkHeader _ _ _
theorem encode (c : CommandWord) : Statement (.encode c) := opcode_mkHeader _ _ _
theorem decode (r : Record) : Statement (.decode r) := opcode_mkHeader _ _ _
theorem assemble (r : Record) : Statement (.assemble r) := opcode_mkHeader _ _ _
theorem timing (r : Record) : Statement (.timing r) := opcode_mkHeader _ _ _
theorem validate (pv : List Pulse) : Statement (.validate pv) := opcode_mkHeader _ _ _
theorem checksum (pv : List Pulse) : Statement (.checksum pv) := opcode_mkHeader _ _ _
theorem f2r (pv : List Pulse) : Statement (.f2r pv) := opcode_mkHeader _ _ _
theorem edge (e : EdgeType) (ts : Nanos) : Statement (.edge e ts) := opcode_mkHeader _ _ _
theorem tick (now : Nanos) : Statement (.tick now) := opcode_mkHeader _ _ _
theorem abort : Statement .abort := opcode_mkHeader _ _ _
theorem lineFault : Statement .lineFault := opcode_mkHeader _ _ _
theorem reserved (rest : BitVec 28) (operands : Bundle) : Statement (.reserved rest operands) := by
  have h : Header.op (rest ++ Opcode.reserved.code : Header) = Opcode.reserved.code := by
    apply BitVec.eq_of_getLsbD_eq
    intro i hi
    rw [Header.op, BitVec.getLsbD_extractLsb', BitVec.getLsbD_append, Nat.zero_add]
    simp only [hi, decide_true, Bool.true_and, if_true]
  show Opcode.ofCode (Header.op (rest ++ Opcode.reserved.code)) = .reserved
  rw [h]; rfl

end Sys2Proof.Laws.HeaderOpcode
end

