-- ==== Sys2Proof/Laws/Step.lean ====
section
/-! SUPPORT. Everything a step can do, said once: what serving a request does, and what each place of the stream does. -/

namespace Sys2Proof.Machine

@[simp] theorem step_nil {s : State} (h : s.remaining = []) : step s = .next s := by
  simp [step, h]

theorem step_cons {s : State} {a : Arrival} {rest : List Arrival} (h : s.remaining = a :: rest) :
    step s = arrive a s.advance := by
  simp [step, h]

/-- Serving a request that decodes, its operands within TS_WIDTH bits, runs its instruction. -/
theorem serve_of_decode {r : Request} {i : Instr} {s : State} (h : decode r = .ok i)
    (hw : i.inWidth s.cfg = true) : serve r s = exec i s := by
  simp [serve, h, hw]

/-- Serving a request that decodes to an operand wider than TS_WIDTH bits. -/
theorem serve_of_wide {r : Request} {i : Instr} {s : State} (h : decode r = .ok i)
    (hw : i.inWidth s.cfg = false) : serve r s = rejectRequest .bundleShape r s := by
  simp [serve, h, hw]

/-- Serving a request that does not decode. -/
theorem serve_of_error {r : Request} {e : DecodeError} {s : State} (h : decode r = .error e) :
    serve r s = rejectRequest e r s := by
  simp [serve, h]

/-- Everything rejecting a request can do (R83). -/
theorem rejectRequest_cases {e : DecodeError} {r : Request} {s t : State} (h : rejectRequest e r s = .next t) :
    (s.faultCause ≠ 0#4 ∧ r.header = 0#32 ∧ t = s.respond .ok (.word s.statusWord)) ∨
    (s.faultCause ≠ 0#4 ∧ t = s.respond .faulted .none) ∨
    (s.faultCause = 0#4 ∧ e ≠ .bundleShape ∧ t = s.raise .illegalEncoding (Header.opcode r.header)) := by
  unfold rejectRequest at h
  by_cases hf : s.faulted = true
  · rw [if_pos hf] at h
    split at h
    · injection h with h
      exact .inl ⟨(faulted_iff s).1 hf, ‹_›, h.symm⟩
    · injection h with h
      exact .inr (.inl ⟨(faulted_iff s).1 hf, h.symm⟩)
  · rw [if_neg hf] at h
    have hs : s.faultCause = 0#4 := (not_faulted_iff s).1 (by simpa using hf)
    cases e <;> first
      | (injection h with h; exact .inr (.inr ⟨hs, by simp, h.symm⟩))
      | cases h

/-- Everything serving a request can do (R83). -/
theorem serve_cases {r : Request} {s t : State} (h : serve r s = .next t) :
    (∃ i, decode r = .ok i ∧ i.inWidth s.cfg = true ∧ exec i s = .next t) ∨
    (s.faultCause ≠ 0#4 ∧ r.header = 0#32 ∧ t = s.respond .ok (.word s.statusWord)) ∨
    (s.faultCause ≠ 0#4 ∧ t = s.respond .faulted .none) ∨
    (s.faultCause = 0#4 ∧ Header.opcode r.header ≠ .reserved ∧
      t = s.raise .illegalEncoding (Header.opcode r.header)) := by
  cases hd : decode r with
  | ok i =>
    cases hw : i.inWidth s.cfg with
    | true => exact .inl ⟨i, rfl, hw, by rwa [serve_of_decode hd hw] at h⟩
    | false =>
      rw [serve_of_wide hd hw] at h
      rcases rejectRequest_cases h with h | h | ⟨_, h, _⟩
      · exact .inr (.inl h)
      · exact .inr (.inr (.inl h))
      · exact absurd rfl h
  | error e =>
    rw [serve_of_error hd] at h
    have hr : Header.opcode r.header ≠ .reserved := by
      intro ho
      have hc : checkHeader r.header = none := checkHeader_none.2 (.inl ho)
      simp [decode, hc, decodeOperands, ho] at hd
    rcases rejectRequest_cases h with h | h | ⟨hs, _, h⟩
    · exact .inr (.inl h)
    · exact .inr (.inr (.inl h))
    · exact .inr (.inr (.inr ⟨hs, hr, h⟩))

/-- Everything a step can do: hold (nothing left in the stream), reset, let an agent that issues no request pass (the
host may take a burst then), or serve one request for its requester. The served state is `s` with only the place and
the agents' fields moved on, and the host may put further tasks in front of its own. -/
theorem step_cases {s t : State} (h : step s = .next t) :
    (s.remaining = [] ∧ t = s) ∨
    (∃ rest, s.remaining = .reset :: rest ∧ t = s.advance.applyReset) ∨
    (∃ a rest tasks n, s.remaining = a :: rest ∧ a ≠ .reset ∧
      (n = s.burstsTaken ∨ (n = s.burstsTaken + 1 ∧ n ≤ s.out.length)) ∧
      t = { s.advance with hostTasks := tasks, burstsTaken := n }) ∨
    (∃ a rest r tasks events next tasks' v, s.remaining = a :: rest ∧ a ≠ .reset ∧
      serve r { s.advance with hostTasks := tasks, lineEvents := events, timerNext := next } = .next v ∧
      t = { v with hostTasks := tasks' }) := by
  cases hs : s.remaining with
  | nil => exact .inl ⟨rfl, by simpa [step, hs] using h.symm⟩
  | cons a rest =>
    rw [step_cons hs] at h
    cases a with
    | reset =>
      injection h with h
      exact .inr (.inl ⟨rest, rfl, h.symm⟩)
    | request r =>
      exact .inr (.inr (.inr ⟨_, rest, r, s.hostTasks, s.lineEvents, s.timerNext, t.hostTasks, t, rfl, by simp, h, rfl⟩))
    | edgeSource =>
      simp only [arrive, edgeSourceTurn] at h
      split at h
      · injection h with h
        exact .inr (.inr (.inl ⟨_, rest, s.hostTasks, s.burstsTaken, rfl, by simp, .inl rfl, h.symm⟩))
      · exact .inr (.inr (.inr ⟨_, rest, _, s.hostTasks, _, s.timerNext, t.hostTasks, t, rfl, by simp, h, rfl⟩))
    | timer =>
      simp only [arrive, timerTurn] at h
      split at h
      · cases h
      · exact .inr (.inr (.inr ⟨_, rest, _, s.hostTasks, s.lineEvents, _, t.hostTasks, t, rfl, by simp, h, rfl⟩))
    | host =>
      simp only [arrive, hostTurn] at h
      split at h
      · injection h with h
        exact .inr (.inr (.inl ⟨_, rest, s.hostTasks, s.burstsTaken, rfl, by simp, .inl rfl, h.symm⟩))
      · rename_i task more _
        split at h
        · injection h with h
          refine .inr (.inr (.inl ⟨_, rest, t.hostTasks, t.burstsTaken, rfl, by simp, ?_, ?_⟩))
          · rcases takeBurst_cases s.advance more with ⟨b, hb, hv⟩ | ⟨_, hv⟩
            · refine .inr ⟨by rw [← h, hv]; rfl, ?_⟩
              rw [← h, hv]
              exact (List.getElem?_eq_some_iff.1 hb).1
            · exact .inl (by rw [← h, hv]; rfl)
          · rw [← h]
            unfold State.takeBurst
            split <;> rfl
        · split at h
          · rename_i v hv
            injection h with h
            subst h
            refine .inr (.inr (.inr ⟨_, rest, _, _, s.lineEvents, s.timerNext, (v.continueHost task).hostTasks, v, rfl,
              by simp, hv, ?_⟩))
            unfold State.continueHost
            split <;> rfl
          · cases h
          · cases h

end Sys2Proof.Machine
end

