-- ==== Sys2Proof/Laws/Run.lean ====
section
/-! SUPPORT. Runs of the machine, step by step. -/

namespace Sys2Proof.Machine

@[simp] theorem run_zero (s : State) : Host.Core.run Sys2Proof.core 0 s = .next s := rfl

/-- A run goes on from the first step's next state. -/
theorem run_succ_of_step {s t : State} (k : Nat) (h : step s = .next t) :
    Host.Core.run Sys2Proof.core (k + 1) s = Host.Core.run Sys2Proof.core k t := by
  have : Sys2Proof.core.step s = .next t := h
  simp only [Host.Core.run, this]

/-- What holds at the start and is kept by every step holds at the end of every run. -/
theorem run_invariant {p : State → Prop} (hstep : ∀ s t, p s → step s = .next t → p t) (k : Nat) {s t : State}
    (hs : p s) (h : Host.Core.run Sys2Proof.core k s = .next t) : p t := by
  induction k generalizing s with
  | zero => cases h; exact hs
  | succ k ih =>
    cases hu : step s with
    | next u =>
      rw [run_succ_of_step k hu] at h
      exact ih (hstep s u hs hu) h
    | fault f =>
      have : Sys2Proof.core.step s = .fault f := hu
      simp only [Host.Core.run, this] at h
      cases h
    | refused r =>
      have : Sys2Proof.core.step s = .refused r := hu
      simp only [Host.Core.run, this] at h
      cases h

end Sys2Proof.Machine
end

