-- ==== Sys2Proof/Tests/Slice0.lean ====
section
/-! SUPPORT. Tests with expected results from spec/ (95_test_vectors.md unless a test names another file), and for every
statement with hypotheses a state and operands that meet them. -/

namespace Sys2Proof.Tests

open Sys2Proof Sys2Proof.Machine

/-! ### Helpers -/

/-- The next state of an instruction. -/
def after (i : Instr) (s : State) : Option State := nextState? (exec i s)

/-- The response to an instruction. -/
def answerOf (i : Instr) (s : State) : Option Response := (after i s).bind (·.responses.getLast?)

/-- The response to one request put in front of a state's stream. -/
def servedAs (r : Request) (s : State) : Option Response :=
  (nextState? (step { s with stream := [.request r] })).bind (·.responses.getLast?)

/-- The two nominal bit pulses and the nominal Preamble of 95_test_vectors.md. -/
abbrev Z : Pulse := ⟨.zero, 503000#64⟩
abbrev O : Pulse := ⟨.one, 1582000#64⟩
abbrev P : Pulse := ⟨.preamble, 4400000#64⟩
/-- An Invalid pulse of a duration. -/
abbrev I (d : Nat) : Pulse := ⟨.invalid, BitVec.ofNat 64 d⟩

/-- The bit pulses of a bit list, the first on the wire first (R86). -/
def wire (bs : List Nat) : List Pulse := bs.map fun b => if b = 1 then O else Z

/-- `FA`, the frame of 0xB23F70 (section 2, V-FR). -/
def FA : List Pulse :=
  wire [1,0,1,1,0,0,1,0] ++ wire [0,1,0,0,1,1,0,1] ++ wire [0,0,1,1,1,1,1,1] ++
  wire [1,1,0,0,0,0,0,0] ++ wire [0,1,1,1,0,0,0,0] ++ wire [1,0,0,0,1,1,1,1]

/-- A running decoder whose last edge was at `t`. -/
def seen (t : Nat) (pending : List Pulse) : State :=
  { State.reset with lastEdgeTime := BitVec.ofNat 64 t, edgeCount := 2#32, pending := pending }

/-- A block with a fault recorded. -/
def faultedState (cause op : Nibble) : State := { State.reset with faultCause := cause, faultOp := op }

/-- A block whose stream holds only host turns, with the host's tasks. -/
def hosted (turns : Nat) (tasks : List HostTask) : State :=
  { State.reset with stream := List.replicate turns .host, hostTasks := tasks }

/-- The parameters of a block with 24-bit times. -/
abbrev narrow : Config := { tsWidth := 24 }

/-- A vector one pulse longer than a header can count. -/
def tooLong : List Pulse := List.replicate 65536 Z

theorem tooLong_length : tooLong.length = 65536 := by rw [tooLong, List.length_replicate]

/-! ### Well-formedness: an ill-formed term for each check -/

theorem test_wf_p2b : (Instr.p2b tooLong).wf = false := by simp [Instr.wf, tooLong_length]
theorem test_wf_validate : (Instr.validate tooLong).wf = false := by simp [Instr.wf, tooLong_length]
theorem test_wf_checksum : (Instr.checksum tooLong).wf = false := by simp [Instr.wf, tooLong_length]
theorem test_wf_f2r : (Instr.f2r tooLong).wf = false := by simp [Instr.wf, tooLong_length]
theorem test_fits_none : Bundle.fits .classify 0 .none = false := by decide
theorem test_fits_nanos : Bundle.fits .status 0 (.nanos 1#64) = false := by decide
theorem test_fits_pulses : Bundle.fits .validate 2 (.pulses [Z.toFormatP]) = false := by decide
theorem test_fits_byte : Bundle.fits .encode 0 (.byte 1#8) = false := by decide
theorem test_fits_command : Bundle.fits .decode 0 (.command 1#16) = false := by decide
theorem test_fits_record : Bundle.fits .b2p 0 (.record 1#24) = false := by decide
theorem test_bands_zero_one_overlap : ¬ Config.bandsOk { zeroHi := 1350001 } := by decide
theorem test_bands_one_pre_overlap : ¬ Config.bandsOk { preLo := 1649999 } := by decide
theorem test_bands_nominal_zero : ¬ Config.bandsOk { nomZeroUs := 650 } := by decide
theorem test_bands_nominal_one : ¬ Config.bandsOk { nomOneUs := 1350 } := by decide
theorem test_bands_nominal_pre : ¬ Config.bandsOk { nomPreUs := 6000 } := by decide
theorem test_widths_band : ¬ Config.widthsOk { preHi := 2 ^ 64 + 1 } := by decide
theorem test_widths_symbols :
    ¬ Config.widthsOk { nomZeroUs := 2 ^ 32 } ∧ ¬ Config.widthsOk { nomOneUs := 2 ^ 32 } ∧
    ¬ Config.widthsOk { nomPreUs := 2 ^ 32 } := by decide
theorem test_widths_gaps :
    ¬ Config.widthsOk { gapUs := 2 ^ 32 } ∧ ¬ Config.widthsOk { sepUs := 2 ^ 32 } := by decide
theorem test_widths_pending :
    ¬ Config.widthsOk { pendingCap := 65536 } ∧ ¬ Config.widthsOk { pendingCap := 0 } := by decide
theorem test_widths_carriers :
    ¬ Config.widthsOk { tsWidth := 65 } ∧ ¬ Config.widthsOk { ecWidth := 33 } ∧
    ¬ Config.widthsOk { ecWidth := 0 } := by decide
theorem test_inWidth_times :
    (Instr.classify 0x1000000#64).inWidth narrow = false ∧ (Instr.edge .falling 0x1000000#64).inWidth narrow = false ∧
    (Instr.tick 0x1000000#64).inWidth narrow = false ∧ (Instr.tick 0xFFFFFF#64).inWidth narrow = true := by decide
theorem test_inWidth_pulses :
    (Instr.p2b [Z, I 0x1000000]).inWidth narrow = false ∧ (Instr.validate [I 0x1000000]).inWidth narrow = false ∧
    (Instr.checksum [I 0x1000000]).inWidth narrow = false ∧ (Instr.f2r [I 0x1000000]).inWidth narrow = false := by
  decide
theorem test_codes_degrees : ¬ Codes.ok { tempTable := [(22, 0x7#4)] } := by decide
theorem test_codes_temperature_twice :
    ¬ Codes.ok { tempTable := ({} : Codes).tempTable.map fun r => if r.1 = 17 then (17, 0xB#4) else r } := by decide
theorem test_codes_off_temperature : ¬ Codes.ok { tempOff := 0x7#4 } := by decide
theorem test_codes_modes : ¬ Codes.ok { modeHeat := 0x0#4 } := by decide
theorem test_codes_fans : ¬ Codes.ok { fanLow := 0x3#4 } := by decide
theorem test_codes_states : ¬ Codes.ok { stateOff := 0xF#4 } := by decide
theorem test_codes_scenario : ¬ Codes.ok { flagsByte := 0xB3#8 } := by decide

/-! ### Decoding: a word of every row written out from the spec's encoding (30_encoding.md R71 to R77, V-HD) -/

theorem test_word_status : decode ⟨0b00000000000000000000000000000000#32, .none⟩ = .ok .status := rfl
theorem test_word_classify :
    decode ⟨0b00000000000000000000000000000001#32, .nanos 503000#64⟩ = .ok (.classify 503000#64) := rfl
theorem test_word_p2b :
    decode ⟨0b00000000000000100000000000000010#32, .pulses [⟨0b01#2, 5#64⟩, ⟨0b11#2, 6#64⟩]⟩ =
      .ok (.p2b [⟨.one, 5#64⟩, ⟨.invalid, 6#64⟩]) := rfl
theorem test_word_b2p : decode ⟨0b00000000000000000000000000000011#32, .byte 0x4D#8⟩ = .ok (.b2p 0x4D#8) := rfl
theorem test_word_encode :
    decode ⟨0b00000000000000000000000000000100#32, .command 0x05B1#16⟩ = .ok (.encode 0x05B1#16) := rfl
theorem test_word_decode :
    decode ⟨0b00000000000000000000000000000101#32, .record 0xB23F70#24⟩ = .ok (.decode 0xB23F70#24) := rfl
theorem test_word_assemble :
    decode ⟨0b00000000000000000000000000000110#32, .record 0xB23F70#24⟩ = .ok (.assemble 0xB23F70#24) := rfl
theorem test_word_timing :
    decode ⟨0b00000000000000000000000000000111#32, .record 0xB23F70#24⟩ = .ok (.timing 0xB23F70#24) := rfl
theorem test_word_validate :
    decode ⟨0b00000000000000010000000000001000#32, .pulses [⟨0b10#2, 7#64⟩]⟩ =
      .ok (.validate [⟨.preamble, 7#64⟩]) := rfl
theorem test_word_checksum :
    decode ⟨0b00000000000000010000000000001001#32, .pulses [⟨0b00#2, 7#64⟩]⟩ =
      .ok (.checksum [⟨.zero, 7#64⟩]) := rfl
theorem test_word_f2r :
    decode ⟨0b00000000000000000000000000001010#32, .pulses []⟩ = .ok (.f2r []) := rfl
theorem test_word_edge_falling :
    decode ⟨0b00000000000000000000000000011011#32, .nanos 9#64⟩ = .ok (.edge .falling 9#64) := rfl
theorem test_word_edge_rising :
    decode ⟨0b00000000000000000000000000001011#32, .nanos 9#64⟩ = .ok (.edge .rising 9#64) := rfl
theorem test_word_tick :
    decode ⟨0b00000000000000000000000000001100#32, .nanos 9#64⟩ = .ok (.tick 9#64) := rfl
theorem test_word_abort : decode ⟨0b00000000000000000000000000001101#32, .none⟩ = .ok .abort := rfl
theorem test_word_lineFault : decode ⟨0b00000000000000000000000000001110#32, .none⟩ = .ok .lineFault := rfl
theorem test_word_reserved :
    decode ⟨0b10000000000000000000000000011111#32, .byte 1#8⟩ = .ok (.reserved 0x8000001#28 (.byte 1#8)) := rfl

/-- V-HD 3, 4, 5: the header checks. -/
theorem test_header_e : servedAs ⟨0x00000011#32, .nanos 1#64⟩ State.reset = some ⟨.faulted, .none⟩ ∧
    (nextState? (serve ⟨0x00000011#32, .nanos 1#64⟩ State.reset)).map (fun t => (t.faultCause, t.faultOp)) =
      some (2#4, 1#4) := by decide
theorem test_header_n_rsv :
    (nextState? (serve ⟨0x00010001#32, .nanos 1#64⟩ State.reset)).map (·.faultCause) = some 2#4 ∧
    (nextState? (serve ⟨0x00000020#32, .none⟩ State.reset)).map (fun t => (t.faultCause, t.faultOp)) =
      some (2#4, 0#4) := by decide

/-- A word of the opcode table placed by `withFetchWord` runs first (V-HD 1). -/
theorem test_fetch_word :
    decodeTableWord 32 0x1B = some (.edge .falling 0#64) ∧
    (nextState? (step (State.reset.withFetchWord 32 0x1B))).map (·.edgeCount) = some 1#32 := by decide

/-! ### One step per instruction -/

/-- V-HD 6 and 8: STATUS after opcode 0xF. -/
theorem test_status_faulted : answerOf .status (faultedState 1#4 0xF#4) = some ⟨.ok, .word 0x00001E03#32⟩ := by decide
/-- 43_edge_decoder.md R200: 99 pending pulses and an edge seen. -/
theorem test_status_pending :
    answerOf .status (seen 0 (List.replicate 99 P)) = some ⟨.ok, .word 0x00630100#32⟩ := by decide

/-- V-CL 2 and 3. -/
theorem test_classify_zero_edge :
    answerOf (.classify 350000#64) State.reset = some ⟨.ok, .pulse ⟨.invalid, 350000#64⟩⟩ ∧
    answerOf (.classify 350001#64) State.reset = some ⟨.ok, .pulse ⟨.zero, 350001#64⟩⟩ := by decide
/-- V-CL 8, 12 and 14. -/
theorem test_classify_upper :
    answerOf (.classify 1649999#64) State.reset = some ⟨.ok, .pulse ⟨.one, 1649999#64⟩⟩ ∧
    answerOf (.classify 5999999#64) State.reset = some ⟨.ok, .pulse ⟨.preamble, 5999999#64⟩⟩ ∧
    answerOf (.classify (-1#64)) State.reset = some ⟨.ok, .pulse ⟨.invalid, -1#64⟩⟩ := by decide

/-- V-BB 1. -/
theorem test_p2b : answerOf (.p2b [O, Z, O, O, Z, Z, O, Z]) State.reset = some ⟨.ok, .byte 0xB2#8⟩ := by decide
/-- V-BB 6: the length is checked first. -/
theorem test_p2b_length_first :
    (after (.p2b [I 0, Z, Z, Z, Z, Z, Z]) State.reset).map (fun t => (t.faultCause, t.faultOp)) =
      some (3#4, 2#4) := by decide

/-- V-BB 9. -/
theorem test_b2p :
    answerOf (.b2p 0x4D#8) State.reset = some ⟨.ok, .pulses [Z, O, Z, Z, O, O, Z, O]⟩ := by decide

/-- V-CM 1 and 16. -/
theorem test_encode :
    answerOf (.encode 0x05B1#16) State.reset = some ⟨.ok, .record 0xB23F70#24⟩ ∧
    (after (.encode 0x0431#16) State.reset).map (fun t => (t.faultCause, t.faultOp)) = some (5#4, 4#4) := by decide
/-- V-CM 8, 13 and 18: FanOnly and off ignore the degrees; a reserved bit. [CODES] -/
theorem test_encode_forced :
    answerOf (.encode 0x07F9#16) State.reset = some ⟨.ok, .record 0xB23FE4#24⟩ ∧
    answerOf (.encode 0x07F0#16) State.reset = some ⟨.ok, .record 0xB27BE0#24⟩ ∧
    (after (.encode 0x0DB1#16) State.reset).map (·.faultCause) = some 2#4 := by decide

/-- V-CM 19, 15 and 25. [CODES] -/
theorem test_decode :
    answerOf (.decode 0x003F70#24) State.reset = some ⟨.ok, .command 0x05B1#16⟩ ∧
    answerOf (.decode 0xB2BFE4#24) State.reset = some ⟨.ok, .command 0x0009#16⟩ ∧
    answerOf (.decode 0xB23B70#24) State.reset = some ⟨.ok, .command 0x0000#16⟩ := by decide
/-- V-CM 20, 21, 22 and 23. [CODES] -/
theorem test_decode_absent :
    answerOf (.decode 0xB20070#24) State.reset = some ⟨.absent, .none⟩ ∧
    answerOf (.decode 0xB23FF0#24) State.reset = some ⟨.absent, .none⟩ ∧
    answerOf (.decode 0xB23F71#24) State.reset = some ⟨.absent, .none⟩ ∧
    answerOf (.decode 0xB21F70#24) State.reset = some ⟨.absent, .none⟩ := by decide

/-- V-FR 1. -/
theorem test_assemble : answerOf (.assemble 0xB23F70#24) State.reset = some ⟨.ok, .pulses FA⟩ := by decide

/-- V-TL: the first twenty entries. -/
theorem test_timing_start : (timing Config.hw 0xB23F70#24).take 20 =
    [4400#32, 4400#32, 576#32, 1582#32, 576#32, 503#32, 576#32, 1582#32, 576#32, 1582#32, 576#32, 503#32, 576#32,
     503#32, 576#32, 1582#32, 576#32, 503#32, 576#32, 503#32] := by decide
/-- V-TL: the entries around the separator and at the end. -/
theorem test_timing_separator :
    ((timing Config.hw 0xB23F70#24).drop 96).take 8 =
      [576#32, 1582#32, 576#32, 5000#32, 4400#32, 4400#32, 576#32, 1582#32] ∧
    (timing Config.hw 0xB23F70#24).drop 195 = [1582#32, 576#32, 1582#32, 576#32] := by decide

/-- V-VA 7. -/
theorem test_validate :
    answerOf (.validate ([I 7, I 0] ++ FA ++ [P, I 1] ++ FA ++ [I 9])) State.reset = some ⟨.ok, .pulses FA⟩ := by decide
/-- V-VA 2 and 4. -/
theorem test_validate_absent :
    answerOf (.validate ([P] ++ FA ++ [P, P] ++ FA.set 20 Z)) State.reset = some ⟨.absent, .none⟩ ∧
    answerOf (.validate (FA ++ FA.dropLast)) State.reset = some ⟨.absent, .none⟩ := by decide

/-- V-FR 3 and 4. -/
theorem test_checksum :
    answerOf (.checksum FA) State.reset = some ⟨.ok, .bit true⟩ ∧
    answerOf (.checksum (FA.set 15 Z)) State.reset = some ⟨.ok, .bit false⟩ := by decide
/-- V-FR 6 and 7. -/
theorem test_checksum_faults :
    (after (.checksum FA.dropLast) State.reset).map (fun t => (t.faultCause, t.faultOp)) = some (3#4, 9#4) ∧
    (after (.checksum (FA.set 0 (I 0))) State.reset).map (·.faultCause) = some 4#4 := by decide

/-- V-FR 9 and 10. -/
theorem test_f2r :
    answerOf (.f2r (wire [1,0,1,1,0,0,1,0] ++ wire [0,0,1,1,1,1,1,1] ++ wire [0,1,1,1,0,0,0,0])) State.reset =
      some ⟨.ok, .record 0xB23F70#24⟩ ∧
    answerOf (.f2r (FA.set 15 Z)) State.reset = some ⟨.ok, .record 0xB23F70#24⟩ := by decide
/-- V-FR 11 and 12. -/
theorem test_f2r_faults :
    (after (.f2r (FA.take 32)) State.reset).map (·.faultCause) = some 3#4 ∧
    (after (.f2r (FA.set 10 P)) State.reset).map (fun t => (t.faultCause, t.faultOp)) = some (4#4, 0xA#4) := by decide

/-- V-ED 3, its last edge, and V-ED 1. -/
theorem test_edge :
    (after (.edge .falling 20#64) (seen 20 [])).map (·.pending) = some [I 0] ∧
    (after (.edge .falling 5000#64) State.reset).map (fun t => (t.pending, t.edgeCount, t.lastEdgeTime)) =
      some ([], 1#32, 5000#64) := by decide
set_option maxRecDepth 4000 in
/-- V-ED 4 and the last edge of V-ED 10. -/
theorem test_edge_fault_and_full :
    (after (.edge .falling 999#64) (seen 1000 [])).map (fun t => (t.faultCause, t.faultOp)) = some (6#4, 0xB#4) ∧
    (after (.edge .falling 503000#64) (seen 0 (List.replicate 256 Z))).map
      (fun t => (t.pending.length, t.pendingOvf, t.statusWord)) = some (256, true, 0x01000180#32) := by decide

/-- V-ED 5 and 6. -/
theorem test_tick :
    (after (.tick 101582000#64) (seen 1582000 [O])).map (fun t => (t.pending, t.out)) = some ([O], []) ∧
    (after (.tick 101582001#64) (seen 1582000 [O])).map (fun t => (t.pending, t.out)) =
      some ([], [⟨[O], false⟩]) := by decide
/-- V-ED 12, its second request. -/
theorem test_tick_stopped :
    answerOf (.tick 5#64) { State.reset with runState := .lineFailed } = some ⟨.stopped, .none⟩ := by decide

/-- V-ED 11 and 13. -/
theorem test_abort :
    (after .abort State.reset).map (·.statusWord) = some 0x00000020#32 ∧
    (after .abort { State.reset with runState := .lineFailed }).map (·.statusWord) = some 0x00000040#32 := by decide

/-- V-ED 12, and P5: a LINE_FAULT after ABORT changes nothing. -/
theorem test_lineFault :
    (after .lineFault State.reset).map (·.statusWord) = some 0x00000040#32 ∧
    (after .lineFault { seen 0 [Z] with runState := .aborted }).map (·.statusWord) = some 0x00010120#32 := by decide

/-- V-HD 6. -/
theorem test_reserved :
    (nextState? (serve ⟨0x0000000F#32, .none⟩ State.reset)).map (fun t => (t.faultCause, t.faultOp)) =
      some (1#4, 0xF#4) := by decide

/-- P4: reset clears a fault, and while faulted CLASSIFY is answered FAULTED. -/
theorem test_reset :
    answerOf (.classify 503000#64) (faultedState 5#4 4#4) = some ⟨.faulted, .none⟩ ∧
    (nextState? (step { faultedState 5#4 4#4 with stream := [.reset] })).map (·.statusWord) = some 0#32 := by decide

/-- The host takes the first burst, and its next task is RECEIVE_CHECK of it (10_state.md R20(b), 60_exceptions.md
section 4); a stage answered FAULTED ends the pipeline (log 12). -/
theorem test_acceptBurst :
    (nextState? (hostTurn { hosted 0 [.acceptBurst] with out := [⟨FA ++ FA, false⟩, ⟨[P], false⟩] })).map
      (fun t => (t.burstsTaken, t.hostTasks)) = some (1, [.receiveCheck (FA ++ FA)]) ∧
    (nextState? (hostTurn { faultedState 1#4 0xF#4 with hostTasks := [.receiveChecksum FA] })).map
      (fun t => (t.hostTasks, t.responses)) = some ([], [⟨.faulted, .none⟩]) := by decide

/-! ### The textual form (30_encoding.md R86 to R88) -/

theorem test_text_encode :
    parseLine Config.hw "ENCODE on, cool, high, 22".toList = some (.request ⟨4#32, .command 0x05B1#16⟩) := by decide
theorem test_text_record :
    parseLine Config.hw "DECODE B2:3F:70".toList = some (.request ⟨5#32, .record 0xB23F70#24⟩) ∧
    parseLine Config.hw "TIMING 0xB23F70".toList = some (.request ⟨7#32, .record 0xB23F70#24⟩) := by decide
theorem test_text_edge :
    parseLine Config.hw "EDGE fall, 1_503_000".toList = some (.request ⟨0x1B#32, .nanos 1503000#64⟩) ∧
    parseLine Config.hw "TICK 0b101".toList = some (.request ⟨0xC#32, .nanos 5#64⟩) := by decide
theorem test_text_pulses :
    parseLine Config.hw "P2B [O,Z(7),I,P]".toList =
      some (.request ⟨0x00040002#32, .pulses [⟨1#2, 1582000#64⟩, ⟨0#2, 7#64⟩, ⟨3#2, 0#64⟩, ⟨2#2, 4400000#64⟩]⟩) := by
  decide
theorem test_text_bits :
    parseLine Config.hw "VALIDATE [P] ++ bits\"10 1\"".toList =
      some (.request ⟨0x00040008#32,
        .pulses [⟨2#2, 4400000#64⟩, ⟨1#2, 1582000#64⟩, ⟨0#2, 503000#64⟩, ⟨1#2, 1582000#64⟩]⟩) := by decide
theorem test_text_pseudo :
    parseLine Config.hw "SEND on, cool, high, 22".toList = some (.send 0x05B1#16) ∧
    parseLine Config.hw "RECEIVE_CHECK []".toList = some (.receiveCheck []) := by decide
theorem test_text_rejected :
    parseLine Config.hw "NOP".toList = none ∧ parseLine Config.hw "B2P 256".toList = none ∧
    parseLine Config.hw "EDGE fall 7".toList = none := by decide

/-! ### Witnesses: for every statement with hypotheses, a state and operands that meet them, clause by clause -/

/-- A healthy block with one request in its stream. -/
def asked (h : Header) (b : Bundle) : State := { State.reset with stream := [.request ⟨h, b⟩] }

theorem witness_StepRunsDecodedInstruction :
    (asked 0x1B#32 (.nanos 9#64)).remaining = .request ⟨0x1B#32, .nanos 9#64⟩ :: [] ∧
    decode ⟨0x1B#32, .nanos 9#64⟩ = .ok (.edge .falling 9#64) ∧
    (Instr.edge .falling 9#64).inWidth (asked 0x1B#32 (.nanos 9#64)).cfg = true ∧
    decodeTableWord 32 0x1B = some (.edge .falling 0#64) := ⟨rfl, rfl, by decide, by decide⟩

theorem witness_IdleBlockHoldsState : State.reset.remaining = [] := rfl

/-- The place of the stream and the agent's list of each clause; the timer at the last time that fits and at the first that
does not. -/
theorem witness_AgentsIssueTheirRequests :
    (∃ s : State, s.remaining = [.edgeSource] ∧ s.lineEvents = []) ∧
    (∃ s : State, s.remaining = [.edgeSource] ∧ s.lineEvents = [.edge .rising (-1#64)] ∧
      (-1#64).toNat < 2 ^ s.cfg.tsWidth) ∧
    (∃ s : State, s.remaining = [.edgeSource] ∧ s.lineEvents = [.edge .rising 0x1000000#64] ∧
      2 ^ s.cfg.tsWidth ≤ (0x1000000#64).toNat ∧ s.faultCause = 0#4) ∧
    (∃ s : State, s.remaining = [.edgeSource] ∧ s.lineEvents = [.failure]) ∧
    (∃ s : State, s.remaining = [.timer] ∧ s.timerNext = 2 ^ 64 - 1 ∧ s.timerNext < 2 ^ s.cfg.tsWidth) ∧
    (∃ s : State, s.remaining = [.timer] ∧ 2 ^ s.cfg.tsWidth ≤ s.timerNext) ∧
    (∃ s : State, s.remaining = [.host] ∧ s.hostTasks = []) ∧
    (hosted 1 [.request ⟨0#32, .none⟩]).remaining = [.host] :=
  ⟨⟨{ State.reset with stream := [.edgeSource] }, rfl, rfl⟩,
    ⟨{ State.reset with stream := [.edgeSource], lineEvents := [.edge .rising (-1#64)] }, rfl, rfl, by decide⟩,
    ⟨{ State.resetAt narrow with stream := [.edgeSource], lineEvents := [.edge .rising 0x1000000#64] }, rfl, rfl,
      by decide, rfl⟩,
    ⟨{ State.reset with stream := [.edgeSource], lineEvents := [.failure] }, rfl, rfl⟩,
    ⟨{ State.reset with stream := [.timer], timerNext := 2 ^ 64 - 1 }, rfl, rfl, by decide⟩,
    ⟨{ State.reset with stream := [.timer], timerNext := 2 ^ 64 }, rfl, by decide⟩,
    ⟨hosted 1 [], rfl, rfl⟩, rfl⟩

/-- The host's requests: one that decodes, one that breaks the header checks, one of another shape and one with a wide
operand; and while faulted, STATUS and another. -/
theorem witness_AgentsIssueTheirRequests_host :
    decode ⟨0#32, .none⟩ = .ok .status ∧ Instr.status.inWidth Config.hw = true ∧
    (checkHeader 0x00000011#32 ≠ none ∧ State.reset.faultCause = 0#4) ∧
    (checkHeader 0x1#32 = none ∧ Bundle.fits (Header.opcode 0x1#32) (Header.n 0x1#32).toNat .none = false) ∧
    (decode ⟨0x1#32, .nanos 0x1000000#64⟩ = .ok (.classify 0x1000000#64) ∧
      (Instr.classify 0x1000000#64).inWidth narrow = false) ∧
    (faultedState 1#4 0xF#4).faultCause ≠ 0#4 := ⟨rfl, rfl, by decide, by decide, ⟨rfl, by decide⟩, by decide⟩

/-- An emitted burst the host has not taken, and none; a step that takes one. -/
theorem witness_HostTakesBurstsInOrder :
    let s : State := { hosted 1 [.acceptBurst] with out := [⟨FA, false⟩] }
    (s.remaining = [.host] ∧ s.hostTasks = [.acceptBurst] ∧ s.out[s.burstsTaken]? = some ⟨FA, false⟩) ∧
    (hosted 1 [.acceptBurst]).out.length ≤ (hosted 1 [.acceptBurst]).burstsTaken ∧
    ∃ t, step s = .next t ∧ t.burstsTaken ≠ s.burstsTaken := ⟨by decide, by decide, _, rfl, by decide⟩

theorem witness_InputIsNeverWritten : ∃ t, step (asked 0x1B#32 (.nanos 9#64)) = .next t := ⟨_, rfl⟩

/-- The longest vector a header can count. -/
theorem witness_DecodeInvertsEncode : (Instr.validate (List.replicate 65535 Z)).wf = true := by
  rw [Instr.wf, List.length_replicate]
  decide

theorem witness_EncodeInvertsDecode :
    decode ⟨0xFFFFFFFF#32, .none⟩ = .ok (.reserved 0xFFFFFFF#28 .none) := rfl

theorem witness_LegalHeadersAreTheTables : (⟨.edge, 0xFFFFFFEF#32, 0x0000000B#32⟩ : OpcodeRow) ∈ opcodeTable := by decide

/-- One request per clause, and one per header check. -/
theorem witness_RequestChecksInOrder :
    ((faultedState 1#4 0xF#4).faultCause ≠ 0#4 ∧ (0x00000000#32).extractLsb' 0 4 = 0x0#4 ∧
      (0x00000000#32).extractLsb' 4 28 = 0#28) ∧
    (¬ ((0x00000020#32).extractLsb' 0 4 = 0x0#4 ∧ (0x00000020#32).extractLsb' 4 28 = 0#28)) ∧
    (State.reset.faultCause = 0#4 ∧ (0xFFFFFFFF#32).extractLsb' 0 4 = 0xF#4) ∧
    ((0x0000002E#32).extractLsb' 0 4 ≠ 0xF#4 ∧ (0x0000002E#32).extractLsb' 5 11 ≠ 0#11) ∧
    ((0x0000001A#32).extractLsb' 0 4 ≠ 0xB#4 ∧ (0x0000001A#32).getLsbD 4 = true) ∧
    ((0x80000007#32).extractLsb' 0 4 = 0x7#4 ∧ (0x80000007#32).extractLsb' 16 16 ≠ 0#16) ∧
    Bundle.fits (Header.opcode 0x00010008#32) (Header.n 0x00010008#32).toNat (.pulses [⟨3#2, 0#64⟩]) = true ∧
    Bundle.fits (Header.opcode 0x0000001B#32) (Header.n 0x0000001B#32).toNat (.nanos 0#64) = true ∧
    (Instr.edge .falling 0xFFFFFF#64).inWidth narrow = true ∧
    (Instr.edge .falling 0x1000000#64).inWidth narrow = false := by decide

theorem witness_BundleOfAnotherShapeStops :
    (asked 0x1#32 .none).faultCause = 0#4 ∧ checkHeader 0x1#32 = none ∧
    Bundle.fits (Header.opcode 0x1#32) (Header.n 0x1#32).toNat .none = false := by decide

theorem witness_ReservedOpcodeRaisesIllegalOp :
    State.reset.faultCause = 0#4 ∧ (0xFFFFFFFF#32).extractLsb' 0 4 = 0xF#4 := by decide

theorem witness_FaultedBlockServesOnlyStatus :
    (faultedState 6#4 0xB#4).faultCause ≠ 0#4 ∧ (Instr.abort) ≠ .status := by decide

theorem witness_OnlyResetClearsFault :
    (∃ s t : State, s.faultCause ≠ 0#4 ∧ step s = .next t ∧ s.remaining = [.reset]) ∧
    (∃ s t : State, s.faultCause ≠ 0#4 ∧ step s = .next t ∧ ∀ rest, s.remaining ≠ .reset :: rest) :=
  ⟨⟨{ faultedState 5#4 4#4 with stream := [.reset] }, _, by decide, rfl, rfl⟩,
    ⟨{ faultedState 5#4 4#4 with stream := [.request ⟨0xD#32, .none⟩] }, _, by decide, rfl, by simp [State.remaining, faultedState, State.reset, State.resetAt]⟩⟩

theorem witness_FaultEntryIsPrecise :
    ∃ t : State, (asked 0x2#32 (.pulses [])).faultCause = 0#4 ∧ step (asked 0x2#32 (.pulses [])) = .next t ∧
      t.faultCause ≠ 0#4 := ⟨_, rfl, rfl, by decide⟩

/-- A request for every cause, and one that raises none. -/
theorem witness_FaultCauseTable :
    (after (.reserved 0#28 .none) State.reset).map (·.faultCause) = some 1#4 ∧
    (after (.encode 0x000B#16) State.reset).map (·.faultCause) = some 2#4 ∧
    (after (.f2r FA.dropLast) State.reset).map (·.faultCause) = some 3#4 ∧
    (after (.f2r (FA.set 47 P)) State.reset).map (·.faultCause) = some 4#4 ∧
    (after (.encode 0x0431#16) State.reset).map (·.faultCause) = some 5#4 ∧
    (after (.edge .rising 0#64) (seen 1 [])).map (·.faultCause) = some 6#4 ∧
    (after (.tick 0#64) State.reset).map (·.faultCause) = some 0#4 ∧
    State.reset.faultCause = 0#4 ∧ State.reset.cfg.codes.ok := by decide

theorem witness_ScenarioA : State.reset.cfg.codes.ok ∧ State.reset.faultCause = 0#4 := by decide

theorem witness_StatusWordLayout : (seen 0 (List.replicate 65535 Z)).pending.length ≤ 65535 :=
  Nat.le_of_eq (by rw [seen, List.length_replicate])

theorem witness_healthy : State.reset.faultCause = 0#4 := rfl

theorem witness_configuration : Config.hw.bandsOk ∧ Config.hw.widthsOk ∧ Config.hw.codes.ok := by decide

theorem witness_P2bPacksFirstPulseHighest :
    ([O, Z, O, O, Z, Z, O, Z].length = 8 ∧ ∀ p ∈ [O, Z, O, O, Z, Z, O, Z], p.cat = .zero ∨ p.cat = .one) ∧
    [O, Z, O, O, Z, Z, O].length ≠ 8 ∧
    ([Z, Z, Z, Z, Z, Z, Z, I 0].length = 8 ∧
      ∃ p ∈ [Z, Z, Z, Z, Z, Z, Z, I 0], p.cat = .preamble ∨ p.cat = .invalid) := by decide

theorem witness_BytesSurviveThePulses :
    [Z, Z, Z, Z, O, O, O, O].length = 8 ∧ ∀ p ∈ [Z, Z, Z, Z, O, O, O, O], p.cat = .zero ∨ p.cat = .one := by decide

theorem witness_CommandWordFields : unpackCommand 0x05B1#16 = some ⟨true, .cool, .high, 22#5⟩ := by decide

/-- The least illegal mode, a reserved bit, and the degrees at the ends of the table and beside them. -/
theorem witness_EncodeBuildsRecord :
    (State.reset.faultCause = 0#4 ∧ State.reset.cfg.codes.ok) ∧
    5 ≤ ((0x000B#16).extractLsb' 1 3 : BitVec 3).toNat ∧ (0x0DB1#16).extractLsb' 11 5 ≠ 0#5 ∧
    (0#5).toNat = 0 ∧ (17, 0x0#4) ∈ Config.hw.codes.tempTable ∧ (30, 0xB#4) ∈ Config.hw.codes.tempTable ∧
    (¬ (17 ≤ (16#5).toNat ∧ (16#5).toNat ≤ 30) ∧ (16#5).toNat ≠ 0) ∧ ¬ (17 ≤ (31#5).toNat ∧ (31#5).toNat ≤ 30) := by
  decide

/-- One record per clause: off FanOnly, off, on FanOnly, on with a degree and with the off temperature, and the four ways
to be unmapped. -/
theorem witness_DecodeReadsRecord (k : Codes) (hk : k = State.reset.cfg.codes) :
    (State.reset.faultCause = 0#4 ∧ k.ok) ∧
    ((0xB27BE4#24).extractLsb' 8 4 = k.stateOff ∧ (0xB27BE4#24).extractLsb' 4 4 = k.tempOff ∧
      (0xB27BE4#24).extractLsb' 0 4 = k.modeDry) ∧
    ((0xB27BE0#24).extractLsb' 8 4 = k.stateOff ∧ modeCode k .cool = (0xB27BE0#24).extractLsb' 0 4) ∧
    ((0xB29FE4#24).extractLsb' 8 4 = k.stateOn ∧ fanCode k .low = (0xB29FE4#24).extractLsb' 12 4) ∧
    ((30, (0xB29FBC#24).extractLsb' 4 4) ∈ k.tempTable ∧ modeCode k .heat = (0xB29FBC#24).extractLsb' 0 4) ∧
    ((0xB23FE0#24).extractLsb' 4 4 = k.tempOff ∧ modeCode k .cool = (0xB23FE0#24).extractLsb' 0 4) ∧
    ((0xB20070#24).extractLsb' 8 4 ≠ k.stateOff ∧ (0xB20070#24).extractLsb' 8 4 ≠ k.stateOn) ∧
    ([Mode.cool, .heat, .dry, .auto].all fun m => modeCode k m != (0xB23F71#24).extractLsb' 0 4) = true ∧
    ([Fan.auto, .low, .medium, .high].all fun f => fanCode k f != (0xB21F70#24).extractLsb' 12 4) = true ∧
    ((0xB23FF0#24).extractLsb' 4 4 ≠ k.tempOff ∧
      (k.tempTable.all fun r => r.2 != (0xB23FF0#24).extractLsb' 4 4) = true) := by
  subst hk
  decide

/-- 96 equal halves; a difference at the last place; a length beside 96. -/
theorem witness_ValidateTrimsCapture :
    ((FA ++ FA).filter isBit).length = 96 ∧ ((FA ++ FA).take 48).map (·.cat) = ((FA ++ FA).drop 48).map (·.cat) ∧
    (O.cat ≠ Z.cat ∧ (FA ++ FA.set 47 Z)[47]? = some O ∧ (FA ++ FA.set 47 Z)[47 + 48]? = some Z) ∧
    ((FA ++ FA ++ [O]).filter isBit).length ≠ 96 := by decide

theorem witness_ChecksumComparesComplements :
    (FA.length = 48 ∧ ∀ p ∈ FA, p.cat = .zero ∨ p.cat = .one) ∧ FA.dropLast.length ≠ 48 ∧
    ((FA.set 47 P).length = 48 ∧ ∃ p ∈ FA.set 47 P, p.cat = .preamble ∨ p.cat = .invalid) := by decide

theorem witness_F2rTakesPlainBytes :
    ((FA.take 24).length = 24 ∧ ∀ p ∈ FA.take 24, p.cat = .zero ∨ p.cat = .one) ∧
    ((FA.take 25).length ≠ 24 ∧ (FA.take 25).length ≠ 48) ∧
    (((FA.take 24).set 23 (I 0)).length = 24 ∧
      ∃ p ∈ (FA.take 24).set 23 (I 0), p.cat = .preamble ∨ p.cat = .invalid) := by decide

theorem witness_ValidatedFramesNeverFault : validate (FA ++ FA) = some FA := by decide

/-- A time equal to the last edge's and one below it; an accumulator with one place left; a full one has 256. -/
theorem witness_EdgeMarksAndAppends :
    (seen 20 []).runState = .running ∧ (seen 20 []).edgeCount ≠ 0#32 ∧ (20#64).toNat < (seen 21 []).lastEdgeTime.toNat ∧
    (seen 20 []).lastEdgeTime.toNat ≤ (20#64).toNat ∧ State.reset.edgeCount = 0#32 ∧
    (List.replicate 255 Z).length < State.reset.cfg.pendingCap ∧
    State.reset.cfg.pendingCap ≤ (List.replicate 256 Z).length ∧
    { State.reset with runState := .aborted }.runState ≠ .running := by
  refine ⟨rfl, by decide, by decide, by decide, rfl, ?_, ?_, by decide⟩ <;> rw [List.length_replicate] <;> decide

theorem witness_TickFlushesAfterQuiet :
    ((seen 0 [Z]).runState = .running ∧ (seen 0 [Z]).pending ≠ [] ∧
      (seen 0 [Z]).lastEdgeTime.toNat + (seen 0 [Z]).cfg.idleNs < (100000001#64).toNat) ∧
    (100000000#64).toNat ≤ (seen 0 [Z]).lastEdgeTime.toNat + (seen 0 [Z]).cfg.idleNs ∧ (seen 0 []).pending = [] := by decide

theorem witness_AbortStopsTheLoop :
    State.reset.runState = .running ∧ { State.reset with runState := .lineFailed }.runState ≠ .running := by decide

theorem witness_LineFaultFailsTheLoop :
    State.reset.runState = .running ∧ { State.reset with runState := .aborted }.runState ≠ .running := by decide

theorem witness_RunStateLeavesRunningOnly :
    (∃ t, exec .abort State.reset = .next t ∧ t.runState ≠ State.reset.runState) ∧
    (∃ t, step { State.reset with stream := [.reset] } = .next t) ∧
    (∃ t, exec (.tick 5#64) { State.reset with runState := .lineFailed } = .next t) :=
  ⟨⟨_, rfl, by decide⟩, ⟨_, rfl⟩, ⟨_, rfl⟩⟩

/-- The counter at its largest value. -/
theorem witness_OnlyEdgesMoveTheEdgeRecord :
    ∃ s t : State, exec (.edge .rising 7#64) s = .next t ∧ s.edgeCount = 0xFFFFFFFF#32 ∧ s.edgeCount ≠ 0#32 ∧
      s.cfg.widthsOk :=
  ⟨{ State.reset with edgeCount := 0xFFFFFFFF#32 }, _, rfl, rfl, by decide, by decide⟩

/-- A step that flushes. -/
theorem witness_AccumulatorAccesses :
    ∃ t, step { seen 0 [Z] with stream := [.request (encode (.tick 100000001#64))] } = .next t ∧ t.out ≠ [] :=
  ⟨_, rfl, by decide⟩

theorem witness_ObservationOnlyGrows : ∃ t, step { State.reset with stream := [.reset] } = .next t := ⟨_, rfl⟩

theorem witness_PulsesAreDeliveredInOrder :
    (∃ t, (∀ a ∈ { seen 0 [Z] with stream := [.timer] }.remaining, a ≠ .reset) ∧
      Host.Core.run Sys2Proof.core 1 { seen 0 [Z] with stream := [.timer] } = .next t) ∧
    ((seen 20 [Z]).runState = .running ∧ (seen 20 [Z]).edgeCount ≠ 0#32 ∧
      (seen 20 [Z]).lastEdgeTime.toNat ≤ (20#64).toNat ∧ (seen 20 [Z]).pending.length < (seen 20 [Z]).cfg.pendingCap) :=
  ⟨⟨_, by decide, rfl⟩, by decide⟩

theorem witness_PureRequestsRepeat :
    ∃ t, exec (.b2p 1#8) State.reset = .next t ∧ t.faultCause = State.reset.faultCause := ⟨_, rfl, rfl⟩

theorem witness_CodecIgnoresDecoder : State.reset.faultCause = 0#4 ∧ (seen 5 [P]).faultCause = 0#4 ∧
    State.reset.cfg = (seen 5 [P]).cfg := by decide

theorem witness_TickAndEdgeTieBothOrders :
    (seen 0 [Z]).faultCause = 0#4 ∧ (seen 0 [Z]).runState = .running ∧ (seen 0 [Z]).edgeCount ≠ 0#32 ∧
    (seen 0 [Z]).pending ≠ [] ∧ (seen 0 [Z]).pending.length < (seen 0 [Z]).cfg.pendingCap ∧
    (seen 0 [Z]).cfg.widthsOk ∧ (100000001#64).toNat < 2 ^ (seen 0 [Z]).cfg.tsWidth ∧
    (seen 0 [Z]).lastEdgeTime.toNat + (seen 0 [Z]).cfg.idleNs < (100000001#64).toNat := by decide

/-- Three ticks after the last edge, the third of them past the quiet period. -/
theorem witness_QuietPeriodFlushesOnce :
    let s : State := { seen 0 [Z] with stream := List.replicate 3 .timer }
    s.faultCause = 0#4 ∧ s.runState = .running ∧ s.pending ≠ [] ∧ s.remaining = List.replicate 3 .timer ∧
    s.cfg.widthsOk ∧ 0 < s.cfg.tickPeriodNs ∧ s.timerNext + 3 * s.cfg.tickPeriodNs ≤ 2 ^ s.cfg.tsWidth ∧ s.timerNext ≤ 100000000 + 50000000 ∧
    s.timerNext + 1 * 50000000 = 100000000 ∧ 100000000 < s.timerNext + 2 * 50000000 := by decide

theorem witness_EdgeTrainsAccumulate :
    (seen 20 []).pending.length ≤ (seen 20 []).cfg.pendingCap ∧ (seen 20 []).edgeCount ≠ 0#32 ∧
    (seen 20 []).edgeCount.toNat ≤ 2 ^ (seen 20 []).cfg.ecWidth - 1 ∧ (seen 20 []).cfg.widthsOk ∧
    (∀ x ∈ [(EdgeType.rising, 20#64), (EdgeType.falling, 503020#64)], x.2.toNat < 2 ^ (seen 20 []).cfg.tsWidth) ∧
    edgesOrdered 20 [(.rising, 20#64), (.falling, 503020#64)] = true ∧
    edgePulses (seen 20 []).cfg 20 [(.rising, 20#64), (.falling, 503020#64)] = [Z] := by decide

/-- From reset, as program P3 starts, and after an earlier edge with a longer quiet period than 100 ms. -/
theorem witness_TransmissionIsReceived :
    (State.reset.cfg = Config.hw ∧ State.reset.pending = [] ∧ State.reset.pendingOvf = false ∧ State.reset.lastEdgeTime.toNat ≤ 1000000 ∧
      1000000 + 179128000 + 100000000 < (300000000#64).toNat) ∧
    ((seen 0 []).cfg = Config.hw ∧ (seen 0 []).edgeCount ≠ 0#32 ∧ (seen 0 []).lastEdgeTime.toNat + 100000000 < 100000001) := by decide

theorem witness_OrderedLineNeverFaults :
    let s : State := { seen 20 [] with
      stream := [.edgeSource, .timer], lineEvents := [.edge .falling 20#64, .failure, .edge .rising 20#64] }
    (∀ a ∈ s.remaining, a = .edgeSource ∨ a = .timer) ∧ lineOrdered s.lastEdgeTime.toNat s.lineEvents = true ∧
    ∃ t, Host.Core.run Sys2Proof.core 2 s = .next t := ⟨by decide, by decide, _, rfl⟩

theorem witness_SendAnswersTimingList :
    (hosted 2 [.send 0x05B1#16]).remaining = [.host, .host] ∧
    encodeWord Config.hw.codes 0x05B1#16 = .ok 0xB23F70#24 ∧
    encodeWord Config.hw.codes 0x0431#16 = .error .unmappedTemp := ⟨rfl, rfl, rfl⟩

/-- A capture for each clause: dropped by VALIDATE, by CHECKSUM and by DECODE, and one that gives a command. -/
theorem witness_ReceiveCheckPipeline :
    ((hosted 4 [.receiveCheck FA]).remaining = [.host, .host, .host, .host] ∧
      ∀ p ∈ FA, p.dur.toNat < 2 ^ (hosted 4 [.receiveCheck FA]).cfg.tsWidth) ∧
    validate [] = none ∧
    (validate (List.replicate 96 Z) = some (List.replicate 48 Z) ∧ checksum (List.replicate 48 Z) = .ok false) ∧
    (checksum (assemble Config.hw 0xB20070#24) = .ok true ∧ f2r (assemble Config.hw 0xB20070#24) = .ok 0xB20070#24 ∧
      dec Config.hw.codes 0xB20070#24 = none) ∧
    (checksum FA = .ok true ∧ f2r FA = .ok 0xB23F70#24 ∧
      dec Config.hw.codes 0xB23F70#24 = some ⟨true, .cool, .high, 22#5⟩) :=
  ⟨⟨rfl, by decide⟩, by decide, ⟨by decide, rfl⟩, ⟨rfl, rfl, by decide⟩, rfl, rfl, by decide⟩

theorem witness_ResetRestoresEveryField :
    { faultedState 5#4 4#4 with stream := [.reset] }.remaining = [Arrival.reset] := rfl

theorem witness_InvariantHoldsAtReset : Config.hw.ok := by decide

theorem witness_StepKeepsInvariant :
    ∃ t, State.Inv { State.reset with stream := [.timer] } ∧ step { State.reset with stream := [.timer] } = .next t :=
  ⟨_, ⟨by decide, by decide, by decide, by decide, by decide, by decide, by decide, by decide, by decide, by decide,
    by decide⟩, rfl⟩

end Sys2Proof.Tests
end

/-! PROOFS. The family `10_state.md`: what a step leaves unwritten (R35), when the receive loop ends (R28), the layout of
the status word (R30), and reset (R34, R250). -/

namespace Sys2Proof.Machine

/-! ### The configuration and the request stream (R35) -/

@[simp] theorem processEdge_cfg (s : State) (e : EdgeType) (ts : Nanos) : (s.processEdge e ts).cfg = s.cfg := by
  rcases processEdge_cases s e ts with ⟨_, _, h⟩ | ⟨_, h⟩ <;> simp [h]

@[simp] theorem processEdge_stream (s : State) (e : EdgeType) (ts : Nanos) :
    (s.processEdge e ts).stream = s.stream := by
  rcases processEdge_cases s e ts with ⟨_, _, h⟩ | ⟨_, h⟩ <;> simp [h]

@[simp] theorem processEdge_runState (s : State) (e : EdgeType) (ts : Nanos) :
    (s.processEdge e ts).runState = s.runState := by
  rcases processEdge_cases s e ts with ⟨_, _, h⟩ | ⟨_, h⟩ <;> simp [h]

/-- No instruction writes the input (R35). -/
theorem exec_keeps_input {i : Instr} {s t : State} (h : exec i s = .next t) :
    t.cfg = s.cfg ∧ t.stream = s.stream := by
  rcases exec_cases h with ⟨_, _, rfl, _⟩ | ⟨_, _, _, rfl⟩ | ⟨_, _, _, _, _, _, rfl⟩ |
    ⟨_, _, _, _, _, rfl⟩ | ⟨_, _, _, rfl⟩ | ⟨_, _, _, rfl⟩ <;> simp

/-- Serving a request does not write the input, rejected or not (R35, R83). -/
theorem serve_keeps_input {r : Request} {s t : State} (h : serve r s = .next t) :
    t.cfg = s.cfg ∧ t.stream = s.stream := by
  rcases serve_cases h with ⟨_, _, _, hi⟩ | ⟨_, _, rfl⟩ | ⟨_, rfl⟩ | ⟨_, _, rfl⟩
  · exact exec_keeps_input hi
  all_goals simp

/-- Settles O5: the agents' turns write their own fields, and serving a request keeps the input. -/
theorem inputIsNeverWritten : Obligations.InputIsNeverWritten := by
  intro s t h
  rcases step_cases h with ⟨_, rfl⟩ | ⟨_, _, rfl⟩ | ⟨_, _, _, _, _, _, _, rfl⟩ |
    ⟨_, _, _, _, _, _, _, _, _, _, hv, rfl⟩
  · exact ⟨rfl, rfl⟩
  · exact ⟨rfl, rfl⟩
  · exact ⟨rfl, rfl⟩
  · obtain ⟨hcfg, hstream⟩ := serve_keeps_input hv
    exact ⟨hcfg, hstream⟩

/-! ### The receive loop's state (R28) -/

/-- A reset step's next state (R250). -/
theorem step_of_reset {s : State} {rest : List Arrival} (h : s.remaining = .reset :: rest) :
    step s = .next s.advance.applyReset := step_cons h

/-- Outside Running a healthy decoder answers EDGE and TICK with STOPPED (R191, R196). -/
theorem exec_of_stopped {i : Instr} {s : State} (hi : i.opcode = .edge ∨ i.opcode = .tick)
    (hs : s.faultCause = 0#4) (hr : s.runState ≠ .running) : exec i s = .next (s.respond .stopped .none) := by
  cases i with
  | edge e ts => simp [exec, execEdge, unlessFaulted_of_healthy _ _ hs, hr]
  | tick now => simp [exec, execTick, unlessFaulted_of_healthy _ _ hs, hr]
  | _ => simp [Instr.opcode] at hi

/-- Only ABORT and LINE_FAULT change `run_state`, and only from Running (R28). -/
theorem exec_runState_cases {i : Instr} {s t : State} (h : exec i s = .next t) :
    t.runState = s.runState ∨
      (s.runState = .running ∧
        ((i = .abort ∧ t.runState = .aborted) ∨ (i = .lineFault ∧ t.runState = .lineFailed))) := by
  rcases exec_cases h with ⟨_, _, rfl, _⟩ | ⟨_, _, _, rfl⟩ | ⟨_, _, _, _, _, _, rfl⟩ |
    ⟨_, _, _, _, _, rfl⟩ | ⟨hi, _, hr, rfl⟩ | ⟨hi, _, hr, rfl⟩
  · exact .inl rfl
  · exact .inl rfl
  · exact .inl (processEdge_runState ..)
  · exact .inl rfl
  · exact .inr ⟨hr, .inl ⟨hi, rfl⟩⟩
  · exact .inr ⟨hr, .inr ⟨hi, rfl⟩⟩

/-- Settles O40: an instruction's possible changes of `run_state`, the reset step, and EDGE and TICK answered without
effect, by a recorded fault or by the ended loop. -/
theorem runStateLeavesRunningOnly : Obligations.RunStateLeavesRunningOnly := by
  refine ⟨fun i s t h hne => (exec_runState_cases h).resolve_left hne, ?_, ?_⟩
  · intro s t rest hr h
    rw [step_of_reset hr] at h
    cases h
    rfl
  · intro i s t hi hr h
    by_cases hs : s.faultCause = 0#4
    · rw [exec_of_stopped hi hs hr] at h
      cases h
      rfl
    · have hne : i ≠ .status := by rintro rfl; simp [Instr.opcode] at hi
      rw [exec_of_faulted hs hne] at h
      cases h
      rfl

/-! ### The status word (R30)

The word is a concatenation: a field is what is left after the fields below it are dropped. -/

theorem statusWord_faulted (s : State) : s.statusWord.getLsbD 0 = s.faulted := by
  simp only [State.statusWord, BitVec.getLsbD_append]
  simp

theorem statusWord_pendingOvf (s : State) : s.statusWord.getLsbD 7 = s.pendingOvf := by
  simp only [State.statusWord, BitVec.getLsbD_append]
  simp

theorem statusWord_seenEdge (s : State) : s.statusWord.getLsbD 8 = s.seenEdge := by
  simp only [State.statusWord, BitVec.getLsbD_append]
  simp

@[simp] theorem statusWord_faultCause (s : State) : s.statusWord.extractLsb' 1 4 = s.faultCause := by
  unfold State.statusWord
  repeat rw [BitVec.extractLsb'_append_eq_of_le (by omega)]
  exact BitVec.extractLsb'_append_eq_right

@[simp] theorem statusWord_runState (s : State) : s.statusWord.extractLsb' 5 2 = s.runState.code := by
  unfold State.statusWord
  repeat rw [BitVec.extractLsb'_append_eq_of_le (by omega)]
  exact BitVec.extractLsb'_append_eq_right

@[simp] theorem statusWord_faultOp (s : State) : s.statusWord.extractLsb' 9 4 = s.faultOp := by
  unfold State.statusWord
  repeat rw [BitVec.extractLsb'_append_eq_of_le (by omega)]
  exact BitVec.extractLsb'_append_eq_right

@[simp] theorem statusWord_reserved (s : State) : s.statusWord.extractLsb' 13 3 = 0#3 := by
  unfold State.statusWord
  repeat rw [BitVec.extractLsb'_append_eq_of_le (by omega)]
  exact BitVec.extractLsb'_append_eq_right

@[simp] theorem statusWord_pendingCount (s : State) :
    s.statusWord.extractLsb' 16 16 = BitVec.ofNat 16 s.pending.length := by
  unfold State.statusWord
  repeat rw [BitVec.extractLsb'_append_eq_of_le (by omega)]
  exact BitVec.extractLsb'_eq_self

theorem RunState.code_eq (r : RunState) :
    r.code = if r = .running then 0#2 else if r = .aborted then 1#2 else 2#2 := by
  cases r <;> rfl

/-- Settles O18: the word is `statusWord`, read field by field. -/
theorem statusWordLayout : Obligations.StatusWordLayout := by
  refine ⟨rfl, fun s => ⟨s.statusWord, rfl, ?_, statusWord_faultCause s, ?_, statusWord_pendingOvf s, ?_,
    statusWord_faultOp s, statusWord_reserved s, fun hlen => ?_⟩⟩
  · rw [statusWord_faulted, faulted_iff]
  · rw [statusWord_runState, RunState.code_eq]
  · rw [statusWord_seenEdge, seenEdge_iff]
  · rw [statusWord_pendingCount, BitVec.toNat_ofNat, Nat.mod_eq_of_lt (by omega)]

/-! ### Reset (R34, R250) -/

/-- Settles O55: the next state is `applyReset`'s, field by field. -/
theorem resetRestoresEveryField : Obligations.ResetRestoresEveryField := by
  intro s rest h
  exact ⟨s.advance.applyReset, step_of_reset h, by simp⟩

/-- Settles O56: a closed fact about one state, so it is evaluated. -/
theorem resetStateValues : Obligations.ResetStateValues := by
  unfold Obligations.ResetStateValues
  decide

end Sys2Proof.Machine

/-! PROOFS. The family `20_memory.md`: the accesses that reach the pending accumulator (R51). -/

namespace Sys2Proof.Machine

/-! ### The pending accumulator (R51) -/

/-- An append adds the pulse at the end, or, when the accumulator is full, leaves it (R194). -/
theorem append_pending_cases (s : State) (p : Pulse) :
    (s.append p).pending = s.pending ∨ (s.append p).pending = s.pending ++ [p] := by
  rcases append_cases s p with ⟨_, h⟩ | ⟨_, h⟩
  · exact .inr (by rw [h])
  · exact .inl (by rw [h])

/-- An edge appends at most its one pulse (R191 to R195). -/
theorem processEdge_pending_cases (s : State) (e : EdgeType) (ts : Nanos) :
    (s.processEdge e ts).pending = s.pending ∨
      ∃ p : Pulse, (s.processEdge e ts).pending = s.pending ++ [p] := by
  rcases processEdge_cases s e ts with ⟨_, _, h⟩ | ⟨_, h⟩
  · rw [h, markEdge_pending]
    exact (append_pending_cases s _).imp_right fun ha => ⟨_, ha⟩
  · exact .inl (by rw [h, markEdge_pending])

@[simp] theorem processEdge_out (s : State) (e : EdgeType) (ts : Nanos) : (s.processEdge e ts).out = s.out := by
  rcases processEdge_cases s e ts with ⟨_, _, h⟩ | ⟨_, h⟩ <;> simp [h]

/-- A flush is due only when something is pending (R196). -/
theorem pending_ne_nil_of_flushDue {s : State} {now : Nanos} (h : s.flushDue now = true) : s.pending ≠ [] :=
  List.ne_nil_of_length_pos (of_decide_eq_true h).1

/-- An instruction leaves the accumulator, appends one pulse at its end (EDGE), or flushes it whole (TICK). -/
theorem exec_pending_out_cases {i : Instr} {s t : State} (h : exec i s = .next t) :
    (t.pending = s.pending ∧ t.out = s.out) ∨
    (∃ p : Pulse, t.pending = s.pending ++ [p] ∧ t.out = s.out) ∨
    (t.pending = [] ∧ s.pending ≠ [] ∧ t.out = s.out ++ [⟨s.pending, s.pendingOvf⟩]) := by
  rcases exec_cases h with ⟨_, _, rfl, _⟩ | ⟨_, _, _, rfl⟩ | ⟨e, ts, _, _, _, _, rfl⟩ |
    ⟨_, _, _, _, hdue, rfl⟩ | ⟨_, _, _, rfl⟩ | ⟨_, _, _, rfl⟩
  · exact .inl ⟨rfl, rfl⟩
  · exact .inl ⟨rfl, rfl⟩
  · rcases processEdge_pending_cases s e ts with hp | ⟨p, hp⟩
    · exact .inl ⟨hp, processEdge_out s e ts⟩
    · exact .inr (.inl ⟨p, hp, processEdge_out s e ts⟩)
  · exact .inr (.inr ⟨rfl, pending_ne_nil_of_flushDue hdue, rfl⟩)
  all_goals exact .inl ⟨rfl, rfl⟩

/-- Serving a request reaches the accumulator only through its instruction: rejecting one leaves it (R83). -/
theorem serve_pending_out_cases {r : Request} {s t : State} (h : serve r s = .next t) :
    (t.pending = s.pending ∧ t.out = s.out) ∨
    (∃ p : Pulse, t.pending = s.pending ++ [p] ∧ t.out = s.out) ∨
    (t.pending = [] ∧ s.pending ≠ [] ∧ t.out = s.out ++ [⟨s.pending, s.pendingOvf⟩]) := by
  rcases serve_cases h with ⟨_, _, _, hi⟩ | ⟨_, _, rfl⟩ | ⟨_, rfl⟩ | ⟨_, _, rfl⟩
  · exact exec_pending_out_cases hi
  all_goals exact .inl ⟨rfl, rfl⟩

/-- Settles O42: only a reset step and serving a request reach the accumulator; an agent's turn moves its own fields on. -/
theorem accumulatorAccesses : Obligations.AccumulatorAccesses := by
  intro s t h
  rcases step_cases h with ⟨_, rfl⟩ | ⟨rest, hr, rfl⟩ | ⟨_, _, _, _, _, _, _, rfl⟩ |
    ⟨_, _, _, _, _, _, _, _, _, _, hv, rfl⟩
  · exact .inl ⟨rfl, rfl⟩
  · exact .inr (.inr (.inr ⟨rfl, rfl, rest, hr⟩))
  · exact .inl ⟨rfl, rfl⟩
  · rcases serve_pending_out_cases hv with hkept | happended | hflushed
    · exact .inl hkept
    · exact .inr (.inl happended)
    · exact .inr (.inr (.inl hflushed))

end Sys2Proof.Machine

/-! PROOFS. The family `30_encoding.md`: the reserved opcode (R80). -/

namespace Sys2Proof

/-- A header selects an opcode exactly when its `op` field is the opcode's code (R71, R77). -/
theorem header_opcode_eq_iff {h : Header} {op : Opcode} : Header.opcode h = op ↔ Header.op h = op.code := by
  constructor
  · rintro rfl
    exact (opcode_code_ofCode _).symm
  · intro hop
    rw [Header.opcode, hop, opcode_ofCode_code]

/-- Opcode 0xF passes the header checks and takes any operands, so nothing else of the request is looked at (R80, log 10). -/
theorem decode_of_opcode_reserved {r : Request} (h : Header.opcode r.header = .reserved) :
    decode r = .ok (.reserved (Header.rest r.header) r.operands) := by
  have hoperands : decodeOperands r.header r.operands = .ok (.reserved (Header.rest r.header) r.operands) := by
    simp only [decodeOperands, h]
  exact decode_ok.2 ⟨checkHeader_none.2 (.inl h), hoperands⟩

namespace Machine

/-- A healthy block answers the reserved instruction with its fault, whatever it carries (R80). -/
theorem exec_reserved_of_healthy {s : State} (rest : BitVec 28) (b : Bundle) (hs : s.faultCause = 0#4) :
    exec (.reserved rest b) s = .next (s.raise .illegalOp .reserved) :=
  congrArg Host.Outcome.next (unlessFaulted_of_healthy s (fun u => u.raise .illegalOp .reserved) hs)

/-- Settles O13: `op` = 0xF selects the reserved opcode, and the state that raising ILLEGAL_OP gives is the one stated. -/
theorem reservedOpcodeRaisesIllegalOp : Obligations.ReservedOpcodeRaisesIllegalOp := by
  intro s h b hs hop
  have hreserved : Header.opcode h = .reserved := header_opcode_eq_iff.2 hop
  exact ⟨decode_of_opcode_reserved hreserved, exec_reserved_of_healthy _ b hs⟩

end Machine

end Sys2Proof

/-! PROOFS. The family `40_pulse_bit.md`: the pulse classifier and the bit/byte codec (R101, R102, R105 to R108). -/

namespace Sys2Proof.Machine

/-- A request whose header passes the checks is read by its operands alone (R83). -/
theorem decode_of_checkHeader {h : Header} {b : Bundle} {i : Instr} (hcheck : checkHeader h = none)
    (hoperands : decodeOperands h b = .ok i) : decode ⟨h, b⟩ = .ok i :=
  decode_ok.2 ⟨hcheck, hoperands⟩

/-! ### P2B (R105, R106) -/

/-- A vector request of P2B is read as the pulses it was made from (R71, R72, R73). -/
theorem decode_p2b_of_length_eight {pv : List Pulse} (h : pv.length = 8) :
    decode ⟨0x00080002#32, .pulses (pv.map Pulse.toFormatP)⟩ = .ok (.p2b pv) := by
  have hoperands : decodeOperands 0x00080002#32 (.pulses (pv.map Pulse.toFormatP)) = .ok (.p2b pv) :=
    expectPulses_ok.2 ⟨_, rfl, by rw [List.length_map, h]; rfl, by simp [Function.comp_def]⟩
  exact decode_of_checkHeader (by decide) hoperands

/-- The length is checked before any pulse is looked at (R105). -/
theorem p2b_of_length_ne {pv : List Pulse} (h : pv.length ≠ 8) : p2b pv = .error .badLength := if_pos h

/-- Eight bit pulses pack into the byte of their bits (R105). -/
theorem p2b_of_isBit {pv : List Pulse} (h : pv.length = 8) (hb : ∀ p ∈ pv, isBit p = true) :
    p2b pv = .ok (packBits (pulseBits pv)) := by
  rw [p2b, if_neg (not_not_intro h), bits_ok hb]
  rfl

/-- Of eight pulses, one that is no bit pulse is enough for NOT_A_BIT (R105). -/
theorem p2b_of_not_isBit {pv : List Pulse} (h : pv.length = 8) (hb : ∃ p ∈ pv, isBit p = false) :
    p2b pv = .error .notABit := by
  rw [p2b, if_neg (not_not_intro h), bits_notABit hb]
  rfl

/-- Bit 7 − i of the packed byte is set exactly when pulse i is One (R105). -/
theorem packBits_pulseBits_getLsbD {pv : List Pulse} (h : pv.length = 8) {i : Nat} {p : Pulse} (hp : pv[i]? = some p) :
    (packBits (pulseBits pv)).getLsbD (7 - i) = true ↔ p.cat = .one := by
  have hi : i < 8 := h ▸ (List.getElem?_eq_some_iff.1 hp).1
  have hbit : (pulseBits pv)[i]? = some (decide (p.cat = .one)) := by rw [pulseBits, List.getElem?_map, hp]; rfl
  have hpack := packBits_getLsbD ((pulseBits_length pv).trans h) hi
  rw [← Option.some.inj (hbit.symm.trans hpack), decide_eq_true_iff]

/-- A healthy block answers P2B with the packed byte or its fault (R106). -/
theorem exec_p2b_of_healthy {s : State} (pv : List Pulse) (hs : s.faultCause = 0#4) :
    exec (.p2b pv) s = .next (s.answer .p2b ((p2b pv).map .byte)) :=
  congrArg Host.Outcome.next (unlessFaulted_of_healthy s (fun u => u.answer .p2b ((p2b pv).map .byte)) hs)

/-- Settles O21: what `p2b` gives on a wrong length, on eight bit pulses, and on eight pulses of which one is no bit pulse. -/
theorem p2bPacksFirstPulseHighest : Obligations.P2bPacksFirstPulseHighest := by
  intro s pv hs
  refine ⟨decode_p2b_of_length_eight, fun hlen hbits => ?_, fun hlen => ?_, fun hlen hbad => ?_⟩
  · have hb : ∀ p ∈ pv, isBit p = true := fun p hp => (isBit_iff p).2 (hbits p hp)
    refine ⟨packBits (pulseBits pv), fun i p hp => packBits_pulseBits_getLsbD hlen hp, ?_⟩
    rw [exec_p2b_of_healthy pv hs, p2b_of_isBit hlen hb]
    rfl
  · rw [exec_p2b_of_healthy pv hs, p2b_of_length_ne hlen]
    rfl
  · obtain ⟨p, hp, hcat⟩ := hbad
    rw [exec_p2b_of_healthy pv hs, p2b_of_not_isBit hlen ⟨p, hp, (isBit_false_iff p).2 hcat⟩]
    rfl

/-! ### CLASSIFY (R101, R102) -/

/-- A healthy block answers CLASSIFY with the classified pulse (R102). -/
theorem exec_classify_of_healthy {s : State} (d : Nanos) (hs : s.faultCause = 0#4) :
    exec (.classify d) s = .next (s.respond .ok (.pulse (classify s.cfg d))) :=
  congrArg Host.Outcome.next (unlessFaulted_of_healthy s (fun u => u.respond .ok (.pulse (classify u.cfg d))) hs)

/-- Settles O19: the category stated is `classifyCategory`, and the hardware's limits are its parameters. -/
theorem classifyAnswersBand : Obligations.ClassifyAnswersBand := by
  intro s d c hs hc
  have hcat : c = classifyCategory s.cfg d.toNat := hc
  refine ⟨decode_of_checkHeader (by decide) rfl, ?_, fun hcfg => ?_⟩
  · rw [hcat]
    exact exec_classify_of_healthy d hs
  · rw [hcat, hcfg]
    rfl

/-! ### B2P (R107, R108) -/

/-- A healthy block answers B2P with the unpacked byte (R108). -/
theorem exec_b2p_of_healthy {s : State} (b : Byte) (hs : s.faultCause = 0#4) :
    exec (.b2p b) s = .next (s.respond .ok (.pulses (b2p s.cfg b))) :=
  congrArg Host.Outcome.next (unlessFaulted_of_healthy s (fun u => u.respond .ok (.pulses (b2p u.cfg b))) hs)

/-- Settles O22: the pulses are those of `b2p`, each of them a nominal pulse. -/
theorem b2pAnswersNominalPulses : Obligations.B2pAnswersNominalPulses := fun s b hs =>
  ⟨decode_of_checkHeader (by decide) rfl, b2p s.cfg b, exec_b2p_of_healthy b hs, b2p_length s.cfg b,
    fun _ hi => b2p_getElem? s.cfg b hi⟩

end Sys2Proof.Machine

/-! PROOFS. The family `41_command_model.md`: format L (R74), ENCODE (R132, R133) and DECODE (R134 to R136). -/

namespace Sys2Proof

/-! ### Format L (R74) -/

@[simp] theorem Mode.ofCode_code (m : Mode) : Mode.ofCode m.code = some m := by cases m <;> rfl

@[simp] theorem Fan.ofCode_code (f : Fan) : Fan.ofCode f.code = f := by cases f <;> rfl

theorem Mode.ofCode_eq_none_iff (c : BitVec 3) : Mode.ofCode c = none ↔ 5 ≤ c.toNat := by
  revert c; decide

theorem packCommand_power (c : Command) : (packCommand c).getLsbD 0 = c.power := by
  simp only [packCommand, BitVec.getLsbD_append]
  simp

@[simp] theorem packCommand_mode (c : Command) : (packCommand c).extractLsb' 1 3 = c.mode.code := by
  rw [packCommand, BitVec.extractLsb'_append_eq_of_le (by omega)]
  exact BitVec.extractLsb'_append_eq_right

@[simp] theorem packCommand_fan (c : Command) : (packCommand c).extractLsb' 4 2 = c.fan.code := by
  unfold packCommand
  repeat rw [BitVec.extractLsb'_append_eq_of_le (by omega)]
  exact BitVec.extractLsb'_append_eq_right

@[simp] theorem packCommand_deg (c : Command) : (packCommand c).extractLsb' 6 5 = c.deg := by
  unfold packCommand
  repeat rw [BitVec.extractLsb'_append_eq_of_le (by omega)]
  exact BitVec.extractLsb'_append_eq_right

@[simp] theorem packCommand_reserved (c : Command) : (packCommand c).extractLsb' 11 5 = 0#5 := by
  unfold packCommand
  repeat rw [BitVec.extractLsb'_append_eq_of_le (by omega)]
  exact BitVec.extractLsb'_eq_self

@[simp] theorem unpackCommand_packCommand (c : Command) : unpackCommand (packCommand c) = some c := by
  rw [unpackCommand, if_neg (not_not_intro (packCommand_reserved c)), packCommand_power, packCommand_mode,
    packCommand_fan, packCommand_deg, Mode.ofCode_code, Fan.ofCode_code]
  rfl

/-- A word is no command exactly when its mode is 5, 6 or 7 or a reserved bit is set (R74, R82). -/
theorem unpackCommand_eq_none_iff (w : CommandWord) :
    unpackCommand w = none ↔ 5 ≤ (w.extractLsb' 1 3 : BitVec 3).toNat ∨ w.extractLsb' 11 5 ≠ 0#5 := by
  by_cases hrsv : w.extractLsb' 11 5 = 0#5
  · simp [unpackCommand, hrsv, Mode.ofCode_eq_none_iff]
  · simp [unpackCommand, hrsv]

/-! ### Format R (R75) -/

/-- A record is its flags byte and its four nibbles in order (R52, R54, R55). -/
theorem mkRecord_nibbles (flags : Byte) (fan state temp mode : Nibble) :
    mkRecord flags (fan ++ state) (temp ++ mode) = flags ++ fan ++ state ++ temp ++ mode := by
  rw [mkRecord, BitVec.append_assoc', BitVec.append_assoc']
  rfl

namespace Machine

/-! ### The wire codes (R131, R134, R138)

On a table that R138 admits each reverse map is the inverse of its code. -/

/-- Where no two images are equal, one image has one origin. -/
theorem eq_of_mem_of_map_nodup {α β : Type} {f : α → β} {l : List α} (hl : (l.map f).Nodup) {x y : α}
    (hx : x ∈ l) (hy : y ∈ l) (hxy : f x = f y) : x = y := by
  induction l with
  | nil => exact absurd hx List.not_mem_nil
  | cons a l ih =>
    obtain ⟨ha, hrest⟩ := List.nodup_cons.1 hl
    rcases List.mem_cons.1 hx with rfl | hxl <;> rcases List.mem_cons.1 hy with rfl | hyl
    · rfl
    · exact absurd (hxy ▸ List.mem_map_of_mem hyl) ha
    · exact absurd (hxy ▸ List.mem_map_of_mem hxl) ha
    · exact ih hrest hxl hyl

/-- The degrees of an admitted table are 17 to 30 (R131). -/
theorem deg_range_of_mem_tempTable {k : Codes} (hk : k.ok) {d : Nat} {t : Nibble} (h : (d, t) ∈ k.tempTable) :
    17 ≤ d ∧ d ≤ 30 := by
  obtain ⟨hdegs, -⟩ := hk
  have hd : d ∈ k.tempTable.map (·.1) := List.mem_map_of_mem h
  rw [hdegs, List.mem_range'_1] at hd
  omega

/-- No two rows of an admitted table have one degree (R131). -/
theorem tempTable_degs_nodup {k : Codes} (hk : k.ok) : (k.tempTable.map (·.1)).Nodup := by
  obtain ⟨hdegs, -⟩ := hk
  rw [hdegs]
  exact List.nodup_range'

/-- Looking a degree up finds its row (R131). -/
theorem lookup_tempTable_eq_some_iff {k : Codes} (hk : k.ok) (d : Nat) (t : Nibble) :
    k.tempTable.lookup d = some t ↔ (d, t) ∈ k.tempTable := by
  have hsound : ∀ u, k.tempTable.lookup d = some u → (d, u) ∈ k.tempTable := fun u hu => by
    obtain ⟨l₁, l₂, hl, -⟩ := List.lookup_eq_some_iff.1 hu
    simp [hl]
  refine ⟨hsound t, fun h => ?_⟩
  cases hu : k.tempTable.lookup d with
  | none => simpa using List.lookup_eq_none_iff.1 hu _ h
  | some u =>
    have hrow : (d, u) = (d, t) := eq_of_mem_of_map_nodup (tempTable_degs_nodup hk) (hsound u hu) h rfl
    rw [(Prod.mk.inj hrow).2]

/-- `TEMP_CODE` is the off code at 0 and the table elsewhere (R131). -/
theorem tempCode_eq_some_iff {k : Codes} (hk : k.ok) (d : Nat) (t : Nibble) :
    tempCode k d = some t ↔ (d = 0 ∧ t = k.tempOff) ∨ (d, t) ∈ k.tempTable := by
  by_cases hd : d = 0
  · have hmem : (0, t) ∉ k.tempTable := fun h => by
      have hrange := deg_range_of_mem_tempTable hk h
      omega
    simp [tempCode, hd, hmem, eq_comm]
  · simp [tempCode, hd, lookup_tempTable_eq_some_iff hk]

/-- `TEMP_CODE` has no value outside 0 and 17..30 (R131, R132). -/
theorem tempCode_eq_none {k : Codes} (hk : k.ok) {d : Nat} (hzero : d ≠ 0) (hrange : ¬ (17 ≤ d ∧ d ≤ 30)) :
    tempCode k d = none := by
  refine Option.eq_none_iff_forall_ne_some.2 fun t ht => ?_
  rcases (tempCode_eq_some_iff hk d t).1 ht with ⟨hd, -⟩ | hrow
  · exact hzero hd
  · exact hrange (deg_range_of_mem_tempTable hk hrow)

/-- `DEG_OF` has the rows of `TEMP_CODE`, read the other way (R134). -/
theorem degOf_eq_some_iff {k : Codes} (hk : k.ok) (t : Nibble) (d : Nat) :
    degOf k t = some d ↔ (d = 0 ∧ t = k.tempOff) ∨ (d, t) ∈ k.tempTable := by
  obtain ⟨-, hcodes, hoff, -⟩ := hk
  cases hrow : k.tempTable.find? fun row => row.2 = t with
  | none =>
    have hmem : (d, t) ∉ k.tempTable := fun h => by simpa using List.find?_eq_none.1 hrow _ h
    simp [degOf, hrow, hmem, and_comm, eq_comm (a := d)]
  | some row =>
    have hin : row ∈ k.tempTable := List.mem_of_find?_eq_some hrow
    have ht : row.2 = t := by simpa using List.find?_some hrow
    have htOff : t ≠ k.tempOff := fun h => hoff (List.mem_map.2 ⟨row, hin, ht.trans h⟩)
    have hmem : (d, t) ∈ k.tempTable ↔ row.1 = d := by
      constructor
      · exact fun h => congrArg Prod.fst (eq_of_mem_of_map_nodup hcodes hin h ht)
      · rintro rfl
        exact ht ▸ hin
    simp [degOf, hrow, hmem, htOff]

theorem degOf_eq_none {k : Codes} (hk : k.ok) {t : Nibble} (hoff : t ≠ k.tempOff)
    (h : ∀ d : Nat, (d, t) ∉ k.tempTable) : degOf k t = none := by
  refine Option.eq_none_iff_forall_ne_some.2 fun d hd => ?_
  rcases (degOf_eq_some_iff hk t d).1 hd with ⟨-, ht⟩ | hrow
  · exact hoff ht
  · exact h d hrow

theorem modeOf_modeCode {k : Codes} (hk : k.ok) {m : Mode} (hm : m ≠ .fanOnly) :
    modeOf k (modeCode k m) = some m := by
  obtain ⟨-, -, -, hmodes, -⟩ := hk
  obtain ⟨⟨hch, hcd, hca⟩, ⟨hhd, hha⟩, hda⟩ := by simpa using hmodes
  cases m with
  | fanOnly => exact absurd rfl hm
  | _ => simp [modeOf, modeCode, Ne.symm hch, Ne.symm hcd, Ne.symm hca, Ne.symm hhd, Ne.symm hha, Ne.symm hda]

/-- `MODE_OF` is the inverse of `MODE_CODE` on the modes but FanOnly (R134). -/
theorem modeOf_eq_some_iff {k : Codes} (hk : k.ok) (c : Nibble) (m : Mode) :
    modeOf k c = some m ↔ m ≠ .fanOnly ∧ modeCode k m = c := by
  constructor
  · intro h
    unfold modeOf at h
    repeat' split at h
    all_goals cases h
    all_goals exact ⟨by decide, Eq.symm ‹_›⟩
  · rintro ⟨hm, rfl⟩
    exact modeOf_modeCode hk hm

theorem modeOf_eq_none {k : Codes} (hk : k.ok) {c : Nibble} (h : ∀ m : Mode, m ≠ .fanOnly → modeCode k m ≠ c) :
    modeOf k c = none :=
  Option.eq_none_iff_forall_ne_some.2 fun m hm =>
    have ⟨hne, hc⟩ := (modeOf_eq_some_iff hk c m).1 hm
    h m hne hc

theorem fanOf_fanCode {k : Codes} (hk : k.ok) (f : Fan) : fanOf k (fanCode k f) = some f := by
  obtain ⟨-, -, -, -, hfans, -⟩ := hk
  obtain ⟨⟨hal, ham, hah⟩, ⟨hlm, hlh⟩, hmh⟩ := by simpa using hfans
  cases f <;>
    simp [fanOf, fanCode, Ne.symm hal, Ne.symm ham, Ne.symm hah, Ne.symm hlm, Ne.symm hlh, Ne.symm hmh]

/-- `FAN_OF` is the inverse of `FAN_CODE` (R134). -/
theorem fanOf_eq_some_iff {k : Codes} (hk : k.ok) (c : Nibble) (f : Fan) :
    fanOf k c = some f ↔ fanCode k f = c := by
  constructor
  · intro h
    unfold fanOf at h
    repeat' split at h
    all_goals cases h
    all_goals exact Eq.symm ‹_›
  · rintro rfl
    exact fanOf_fanCode hk f

theorem fanOf_eq_none {k : Codes} (hk : k.ok) {c : Nibble} (h : ∀ f : Fan, fanCode k f ≠ c) : fanOf k c = none :=
  Option.eq_none_iff_forall_ne_some.2 fun f hf => h f ((fanOf_eq_some_iff hk c f).1 hf)

/-! ### ENCODE (R132, R133) -/

/-- FanOnly forces the off temperature (R132). -/
theorem onTempCode_fanOnly (k : Codes) (p : Bool) (f : Fan) (d : BitVec 5) :
    onTempCode k ⟨p, .fanOnly, f, d⟩ = .ok k.tempOff := rfl

/-- A degree with a code is looked up (R132). -/
theorem onTempCode_of_some {k : Codes} {c : Command} {t : Nibble} (hm : c.mode ≠ .fanOnly)
    (h : tempCode k c.deg.toNat = some t) : onTempCode k c = .ok t := by
  rw [onTempCode, if_neg hm, h]

/-- A degree without a code is UNMAPPED_TEMP (R132). -/
theorem onTempCode_of_none {k : Codes} {c : Command} (hm : c.mode ≠ .fanOnly)
    (h : tempCode k c.deg.toNat = none) : onTempCode k c = .error .unmappedTemp := by
  rw [onTempCode, if_neg hm, h]

/-- The off record keeps only the mode of its command (R132). -/
theorem enc_off (k : Codes) (m : Mode) (f : Fan) (d : BitVec 5) :
    enc k ⟨false, m, f, d⟩ = .ok (k.flagsByte ++ k.fanOff ++ k.stateOff ++ k.tempOff ++ modeCode k m) :=
  congrArg Except.ok (mkRecord_nibbles ..)

/-- A command that is on is encoded with its temperature code (R132). -/
theorem enc_on_ok {k : Codes} {m : Mode} {f : Fan} {d : BitVec 5} {t : Nibble}
    (h : onTempCode k ⟨true, m, f, d⟩ = .ok t) :
    enc k ⟨true, m, f, d⟩ = .ok (k.flagsByte ++ fanCode k f ++ k.stateOn ++ t ++ modeCode k m) := by
  rw [enc, if_neg Bool.noConfusion, h, ← mkRecord_nibbles]
  rfl

/-- Only the temperature code of a command that is on can fail (R132). -/
theorem enc_on_error {k : Codes} {m : Mode} {f : Fan} {d : BitVec 5} {e : FaultCause}
    (h : onTempCode k ⟨true, m, f, d⟩ = .error e) : enc k ⟨true, m, f, d⟩ = .error e := by
  rw [enc, if_neg Bool.noConfusion, h]
  rfl

@[simp] theorem encodeWord_packCommand (k : Codes) (c : Command) : encodeWord k (packCommand c) = enc k c := by
  rw [encodeWord, unpackCommand_packCommand]

/-- A healthy block answers ENCODE with the record or its fault (R133). -/
theorem exec_encode_of_healthy {s : State} (w : CommandWord) (hs : s.faultCause = 0#4) :
    exec (.encode w) s = .next (s.answer .encode ((encodeWord s.cfg.codes w).map .record)) :=
  congrArg Host.Outcome.next
    (unlessFaulted_of_healthy s (fun u => u.answer .encode ((encodeWord u.cfg.codes w).map .record)) hs)

theorem exec_encode_illegal {s : State} {w : CommandWord} (hs : s.faultCause = 0#4)
    (h : unpackCommand w = none) : exec (.encode w) s = .next (s.raise .illegalEncoding .encode) := by
  rw [exec_encode_of_healthy w hs, encodeWord, h]
  rfl

theorem exec_encode_ok {s : State} {c : Command} {r : Record} (hs : s.faultCause = 0#4)
    (h : enc s.cfg.codes c = .ok r) :
    exec (.encode (packCommand c)) s = .next (s.respond .ok (.record r)) := by
  rw [exec_encode_of_healthy _ hs, encodeWord_packCommand, h]
  rfl

theorem exec_encode_error {s : State} {c : Command} {e : FaultCause} (hs : s.faultCause = 0#4)
    (h : enc s.cfg.codes c = .error e) :
    exec (.encode (packCommand c)) s = .next (s.raise e .encode) := by
  rw [exec_encode_of_healthy _ hs, encodeWord_packCommand, h]
  rfl

/-- Settles O25: which record or fault `enc` gives on each path, and the state that answering it leads to. -/
theorem encodeBuildsRecord : Obligations.EncodeBuildsRecord := by
  rintro s k hs rfl hk
  refine ⟨fun w => decode_of_checkHeader (by decide) rfl, fun w hw => ?_, fun m f d => ?_, fun f d => ?_,
    fun m f d t hm ht => ?_, fun m f d hm hzero hrange => ?_⟩
  · exact exec_encode_illegal hs ((unpackCommand_eq_none_iff w).2 hw)
  · exact exec_encode_ok hs (enc_off _ m f d)
  · exact exec_encode_ok hs (enc_on_ok (onTempCode_fanOnly _ true f d))
  · have hcode := (tempCode_eq_some_iff hk d.toNat t).2 ht
    exact exec_encode_ok hs (enc_on_ok (onTempCode_of_some hm hcode))
  · have hcode := tempCode_eq_none hk hzero hrange
    exact exec_encode_error hs (enc_on_error (onTempCode_of_none hm hcode))

/-! ### DECODE (R135, R136) -/

theorem isFanOnly_iff (k : Codes) (r : Record) :
    isFanOnly k r = true ↔ Record.tempCode r = k.tempOff ∧ Record.modeCode r = k.modeDry := decide_eq_true_iff

/-- An off record is read for its mode alone (R135). -/
theorem dec_of_stateOff {k : Codes} {r : Record} (h : Record.stateCode r = k.stateOff) :
    dec k r = (if isFanOnly k r then some .fanOnly else modeOf k (Record.modeCode r)).map fun m =>
      ⟨false, m, .auto, 0#5⟩ := if_pos h

/-- An on record needs its fan code and, unless it is FanOnly's, its mode and temperature codes (R135). -/
theorem dec_of_stateOn {k : Codes} {r : Record} (hk : k.ok) (h : Record.stateCode r = k.stateOn) :
    dec k r = (fanOf k (Record.fanCode r)).bind fun f =>
      if isFanOnly k r then some ⟨true, .fanOnly, f, 0#5⟩
      else (modeOf k (Record.modeCode r)).bind fun m =>
        (degOf k (Record.tempCode r)).map fun d => ⟨true, m, f, BitVec.ofNat 5 d⟩ := by
  obtain ⟨-, -, -, -, -, hstates, -⟩ := hk
  have hoff : Record.stateCode r ≠ k.stateOff := h ▸ hstates
  rw [dec, if_neg hoff, if_pos h]
  cases fanOf k (Record.fanCode r) with
  | none => rfl
  | some f => cases modeOf k (Record.modeCode r) <;> cases degOf k (Record.tempCode r) <;> rfl

/-- A state code that is neither is unmapped (R135). -/
theorem dec_of_state_unmapped {k : Codes} {r : Record} (hoff : Record.stateCode r ≠ k.stateOff)
    (hon : Record.stateCode r ≠ k.stateOn) : dec k r = none := by
  rw [dec, if_neg hoff, if_neg hon]

/-- Off with the FanOnly convention (R135). -/
theorem dec_off_fanOnly {k : Codes} {r : Record} (hoff : Record.stateCode r = k.stateOff)
    (hfan : isFanOnly k r = true) : dec k r = some ⟨false, .fanOnly, .auto, 0#5⟩ := by
  rw [dec_of_stateOff hoff, if_pos hfan]
  rfl

theorem dec_off {k : Codes} {r : Record} {m : Mode} (hoff : Record.stateCode r = k.stateOff)
    (hfan : ¬ isFanOnly k r = true) (hm : modeOf k (Record.modeCode r) = some m) :
    dec k r = some ⟨false, m, .auto, 0#5⟩ := by
  rw [dec_of_stateOff hoff, if_neg hfan, hm]
  rfl

/-- On with the FanOnly convention (R135). -/
theorem dec_on_fanOnly {k : Codes} {r : Record} {f : Fan} (hk : k.ok) (hon : Record.stateCode r = k.stateOn)
    (hfan : isFanOnly k r = true) (hf : fanOf k (Record.fanCode r) = some f) :
    dec k r = some ⟨true, .fanOnly, f, 0#5⟩ := by
  rw [dec_of_stateOn hk hon, hf, Option.bind_some, if_pos hfan]

theorem dec_on {k : Codes} {r : Record} {m : Mode} {f : Fan} {d : BitVec 5} (hk : k.ok)
    (hon : Record.stateCode r = k.stateOn) (hfan : ¬ isFanOnly k r = true)
    (hf : fanOf k (Record.fanCode r) = some f) (hm : modeOf k (Record.modeCode r) = some m)
    (hd : degOf k (Record.tempCode r) = some d.toNat) : dec k r = some ⟨true, m, f, d⟩ := by
  rw [dec_of_stateOn hk hon, hf, Option.bind_some, if_neg hfan, hm, hd]
  simp

theorem dec_off_unmapped {k : Codes} {r : Record} (hoff : Record.stateCode r = k.stateOff)
    (hfan : ¬ isFanOnly k r = true) (hm : modeOf k (Record.modeCode r) = none) : dec k r = none := by
  rw [dec_of_stateOff hoff, if_neg hfan, hm]
  rfl

theorem dec_on_fan_unmapped {k : Codes} {r : Record} (hk : k.ok) (hon : Record.stateCode r = k.stateOn)
    (hf : fanOf k (Record.fanCode r) = none) : dec k r = none := by
  rw [dec_of_stateOn hk hon, hf]
  rfl

/-- Of the codes an on record needs, one that is unmapped is enough for none (R135). -/
theorem dec_on_unmapped {k : Codes} {r : Record} (hk : k.ok) (hon : Record.stateCode r = k.stateOn)
    (hfan : ¬ isFanOnly k r = true)
    (h : modeOf k (Record.modeCode r) = none ∨ degOf k (Record.tempCode r) = none) : dec k r = none := by
  rw [dec_of_stateOn hk hon]
  rcases h with hm | hd
  · simp [hfan, hm]
  · simp [hfan, hd]

/-- A healthy block answers DECODE with the record's command, format L (R136). -/
theorem exec_decode_some {s : State} {r : Record} {c : Command} (hs : s.faultCause = 0#4)
    (h : dec s.cfg.codes r = some c) : exec (.decode r) s = .next (s.respond .ok (.command (packCommand c))) := by
  simp [exec, execDecode, unlessFaulted_of_healthy _ _ hs, h]

/-- A record that is no command is ABSENT, not a fault (R136). -/
theorem exec_decode_none {s : State} {r : Record} (hs : s.faultCause = 0#4)
    (h : dec s.cfg.codes r = none) : exec (.decode r) s = .next (s.respond .absent .none) := by
  simp [exec, execDecode, unlessFaulted_of_healthy _ _ hs, h]

/-- Settles O27: which command `dec` gives on each path, and that it gives none when a code it reads is unmapped. -/
theorem decodeReadsRecord : Obligations.DecodeReadsRecord := by
  rintro s k r fc sc tc mc fanOnly hs rfl hk rfl rfl rfl rfl hfan
  have hF : fanOnly ↔ isFanOnly s.cfg.codes r = true := hfan.trans (isFanOnly_iff _ r).symm
  refine ⟨decode_of_checkHeader (by decide) rfl, fun hoff hfo => ?_, fun m hoff hfo hm hmc => ?_,
    fun f hon hfo hfc => ?_, fun m f d hon hfo hfc hm hmc ht => ?_, fun hun => exec_decode_none hs ?_⟩
  · exact exec_decode_some hs (dec_off_fanOnly hoff (hF.1 hfo))
  · have hmode := (modeOf_eq_some_iff hk _ m).2 ⟨hm, hmc⟩
    exact exec_decode_some hs (dec_off hoff (mt hF.2 hfo) hmode)
  · have hfanOf := (fanOf_eq_some_iff hk _ f).2 hfc
    exact exec_decode_some hs (dec_on_fanOnly hk hon (hF.1 hfo) hfanOf)
  · have hmode := (modeOf_eq_some_iff hk _ m).2 ⟨hm, hmc⟩
    have hfanOf := (fanOf_eq_some_iff hk _ f).2 hfc
    have hdeg := (degOf_eq_some_iff hk _ d.toNat).2 ht
    exact exec_decode_some hs (dec_on hk hon (mt hF.2 hfo) hfanOf hmode hdeg)
  · rcases hun with ⟨hoff, hon⟩ | ⟨hoff, hfo, hmode⟩ | ⟨hon, hfc⟩ | ⟨hon, hfo, hmode | ⟨htOff, htable⟩⟩
    · exact dec_of_state_unmapped hoff hon
    · exact dec_off_unmapped hoff (mt hF.2 hfo) (modeOf_eq_none hk hmode)
    · exact dec_on_fan_unmapped hk hon (fanOf_eq_none hk hfc)
    · exact dec_on_unmapped hk hon (mt hF.2 hfo) (.inl (modeOf_eq_none hk hmode))
    · exact dec_on_unmapped hk hon (mt hF.2 hfo) (.inr (degOf_eq_none hk htOff htable))

end Machine

end Sys2Proof

/-! PROOFS. The family `42_frame_codec.md`: ASSEMBLE, TIMING, VALIDATE, CHECKSUM and F2R (R160 to R172). -/

namespace Sys2Proof

/-! ### Vector requests and records (R71 to R75) -/

/-- The header of VALIDATE as a number: `n` above `op` (R71). -/
theorem mkHeader_validate (n : Nat) : mkHeader .validate false n = BitVec.ofNat 32 (n * 65536 + 8) := by
  have hnat : (mkHeader .validate false n).toNat = (((n % 65536) <<< 11) <<< 1) <<< 4 ||| 8 := by
    rw [mkHeader, BitVec.toNat_append, BitVec.toNat_append, BitVec.toNat_append, BitVec.toNat_ofNat]
    simp [Opcode.code]
  apply BitVec.eq_of_toNat_eq
  rw [hnat, ← Nat.shiftLeft_add_eq_or_of_lt (by omega), BitVec.toNat_ofNat]
  simp only [Nat.shiftLeft_eq]
  omega

/-- Byte `j` of a record is its bits from `23 - 8j` down (R52, R75). -/
theorem Record.bytes_getLsbD {r : Record} {j i : Nat} {b : Byte} (hb : (Record.bytes r)[j]? = some b) (hi : i < 8) :
    b.getLsbD (7 - i) = r.getLsbD (23 - (8 * j + i)) := by
  have hbit : ∀ k, (r.extractLsb' k 8 : Byte).getLsbD (7 - i) = r.getLsbD (k + (7 - i)) := fun k => by
    simp [show 7 - i < 8 by omega]
  match j, hb with
  | 0, hb => cases hb; exact (hbit 16).trans (congrArg r.getLsbD (by omega))
  | 1, hb => cases hb; exact (hbit 8).trans (congrArg r.getLsbD (by omega))
  | 2, hb => cases hb; exact (hbit 0).trans (congrArg r.getLsbD (by omega))

@[simp] theorem Record.flags_mkRecord (f a t : Byte) : Record.flags (mkRecord f a t) = f := by
  unfold Record.flags mkRecord
  repeat rw [BitVec.extractLsb'_append_eq_of_le (by omega)]
  exact BitVec.extractLsb'_eq_self

@[simp] theorem Record.fanAndState_mkRecord (f a t : Byte) : Record.fanAndState (mkRecord f a t) = a := by
  rw [Record.fanAndState, mkRecord, BitVec.extractLsb'_append_eq_of_le (by omega)]
  exact BitVec.extractLsb'_append_eq_right

@[simp] theorem Record.tempAndMode_mkRecord (f a t : Byte) : Record.tempAndMode (mkRecord f a t) = t :=
  BitVec.extractLsb'_append_eq_right

@[simp] theorem Record.bytes_mkRecord (f a t : Byte) : Record.bytes (mkRecord f a t) = [f, a, t] := by
  simp [Record.bytes]

namespace Machine

/-- A vector request is read as the pulses it was made from (R71, R72, R73). -/
theorem decode_pulses {h : Header} {k : List Pulse → Instr} {pv : List Pulse} (hcheck : checkHeader h = none)
    (hread : ∀ b, decodeOperands h b = b.expectPulses (Header.n h).toNat k) (hlen : pv.length = (Header.n h).toNat) :
    decode ⟨h, .pulses (pv.map Pulse.toFormatP)⟩ = .ok (k pv) := by
  refine decode_of_checkHeader hcheck ((hread _).trans (expectPulses_ok.2 ⟨_, rfl, ?_, ?_⟩))
  · rw [List.length_map, hlen]
  · simp [Function.comp_def]

theorem decode_validate {pv : List Pulse} (h : pv.length ≤ 65535) :
    decode ⟨BitVec.ofNat 32 (pv.length * 65536 + 8), .pulses (pv.map Pulse.toFormatP)⟩ = .ok (.validate pv) := by
  rw [← mkHeader_validate]
  refine decode_pulses (checkHeader_none.2 (.inr (by simp [Opcode.isVector]))) (fun b => ?_) ?_
  · simp only [decodeOperands, opcode_mkHeader]
  · rw [n_mkHeader, BitVec.toNat_ofNat]
    omega

/-! ### ASSEMBLE (R160, R161) -/

/-- In a concatenation of blocks of one length, place `w * j + i` is place `i` of block `j`. -/
theorem getElem?_flatMap_blocks {α β : Type} {f : α → List β} {w i : Nat} (hi : i < w) {l : List α}
    (hw : ∀ a ∈ l, (f a).length = w) (j : Nat) :
    (l.flatMap f)[w * j + i]? = l[j]?.bind fun a => (f a)[i]? := by
  induction l generalizing j with
  | nil => rfl
  | cons a l ih =>
    obtain ⟨ha, hl⟩ := List.forall_mem_cons.1 hw
    rw [List.flatMap_cons]
    cases j with
    | zero => simp [List.getElem?_append_left (show i < (f a).length by omega)]
    | succ j =>
      have hplace : w * (j + 1) + i - (f a).length = w * j + i := by rw [ha, Nat.mul_succ]; omega
      rw [List.getElem?_append_right (by rw [ha, Nat.mul_succ]; omega), hplace, ih hl, List.getElem?_cons_succ]

/-- Pulse `i` of byte `j` of a frame is the nominal pulse of its bit, and 8 places on that of the complement (R160). -/
theorem assemble_getElem? (cfg : Config) (r : Record) {j i : Nat} (hj : j < 3) (hi : i < 8) :
    (assemble cfg r)[16 * j + i]? = some (nominalPulse cfg (r.getLsbD (23 - (8 * j + i)))) ∧
    (assemble cfg r)[16 * j + 8 + i]? = some (nominalPulse cfg (!r.getLsbD (23 - (8 * j + i)))) := by
  obtain ⟨b, hb⟩ : ∃ b, (Record.bytes r)[j]? = some b := ⟨_, List.getElem?_eq_getElem hj⟩
  have hblock : ∀ k, k < 16 → (assemble cfg r)[16 * j + k]? = (b2p cfg b ++ b2p cfg (~~~b))[k]? := fun k hk => by
    rw [assemble, getElem?_flatMap_blocks hk (by simp), hb, Option.bind_some]
  rw [← Record.bytes_getLsbD hb hi]
  constructor
  · rw [hblock i (by omega), List.getElem?_append_left (by simpa using hi), b2p_getElem? _ _ hi]
  · rw [Nat.add_assoc, hblock (8 + i) (by omega), List.getElem?_append_right (by simp), b2p_length,
      Nat.add_sub_cancel_left, b2p_getElem? _ _ hi, BitVec.getLsbD_not, decide_eq_true (by omega), Bool.true_and]

/-- A healthy block answers ASSEMBLE with the frame (R161). -/
theorem exec_assemble_of_healthy {s : State} (r : Record) (hs : s.faultCause = 0#4) :
    exec (.assemble r) s = .next (s.respond .ok (.pulses (assemble s.cfg r))) :=
  congrArg Host.Outcome.next (unlessFaulted_of_healthy s (fun u => u.respond .ok (.pulses (assemble u.cfg r))) hs)

/-- Settles O29: the pulses are those of `assemble`, a block of sixteen for each byte. -/
theorem assembleAnswersFrame : Obligations.AssembleAnswersFrame := by
  rintro s r _ _ hs rfl rfl
  refine ⟨decode_of_checkHeader (by decide) rfl, assemble s.cfg r, exec_assemble_of_healthy r hs,
    assemble_length s.cfg r, fun j i hj hi => ?_⟩
  obtain ⟨hplain, hcomplement⟩ := assemble_getElem? s.cfg r hj hi
  rw [hplain, hcomplement]
  cases r.getLsbD (23 - (8 * j + i)) <;> exact ⟨rfl, rfl⟩

/-! ### TIMING (R163 to R166) -/

/-- The nominal time of a bit pulse (R163). -/
def bitTime (cfg : Config) (p : Pulse) : Micros :=
  BitVec.ofNat 32 (if p.cat = .one then cfg.nomOneUs else cfg.nomZeroUs)

theorem us_of_isBit (cfg : Config) {p : Pulse} (h : isBit p = true) : us cfg p = some (bitTime cfg p) := by
  rcases (isBit_iff p).1 h with hc | hc <;> simp [us, bitTime, hc]

/-- The entries of the symbols of a sequence of pulses, a gap after each (R164). -/
def symbolEntries (cfg : Config) (fr : List Pulse) : List Micros := fr.flatMap fun p => [bitTime cfg p, gap cfg]

theorem symbolEntries_cons (cfg : Config) (p : Pulse) (fr : List Pulse) :
    symbolEntries cfg (p :: fr) = bitTime cfg p :: gap cfg :: symbolEntries cfg fr := rfl

@[simp] theorem symbolEntries_length (cfg : Config) (fr : List Pulse) :
    (symbolEntries cfg fr).length = 2 * fr.length := by
  induction fr with
  | nil => rfl
  | cons p fr ih => rw [symbolEntries_cons, List.length_cons, List.length_cons, List.length_cons, ih, Nat.mul_succ]

/-- The symbol of pulse `k` and its gap (R164). -/
theorem symbolEntries_getElem? (cfg : Config) {fr : List Pulse} {k : Nat} {p : Pulse} (hp : fr[k]? = some p) :
    (symbolEntries cfg fr)[2 * k]? = some (bitTime cfg p) ∧ (symbolEntries cfg fr)[2 * k + 1]? = some (gap cfg) := by
  have hblock : ∀ i, i < 2 → (symbolEntries cfg fr)[2 * k + i]? = [bitTime cfg p, gap cfg][i]? := fun i hi => by
    rw [symbolEntries, getElem?_flatMap_blocks hi (fun _ _ => rfl), hp, Option.bind_some]
  exact ⟨hblock 0 (by omega), hblock 1 (by omega)⟩

/-- The framing of a sequence of bit pulses and its symbols (R164). -/
theorem rep_of_isBit (cfg : Config) {fr : List Pulse} (hb : ∀ p ∈ fr, isBit p = true) :
    rep cfg fr = [BitVec.ofNat 32 cfg.nomPreUs, BitVec.ofNat 32 cfg.nomPreUs, gap cfg] ++ symbolEntries cfg fr := by
  rw [rep, symbolEntries, List.flatMap_def, List.flatMap_def,
    List.map_congr_left fun p hp => by rw [us_of_isBit cfg (hb p hp)]]

/-- The repetition of an assembled frame (R164). -/
theorem rep_assemble (cfg : Config) (r : Record) : rep cfg (assemble cfg r) =
    [BitVec.ofNat 32 cfg.nomPreUs, BitVec.ofNat 32 cfg.nomPreUs, gap cfg] ++ symbolEntries cfg (assemble cfg r) :=
  rep_of_isBit cfg (assemble_isBit cfg r)

@[simp] theorem rep_assemble_length (cfg : Config) (r : Record) : (rep cfg (assemble cfg r)).length = 99 := by
  simp [rep_assemble]

@[simp] theorem timing_length (cfg : Config) (r : Record) : (timing cfg r).length = 199 := by simp [timing]

/-- The first 99 entries are the first repetition (R165). -/
theorem timing_getElem?_first (cfg : Config) (r : Record) {j : Nat} (hj : j < 99) :
    (timing cfg r)[j]? = (rep cfg (assemble cfg r))[j]? := by
  rw [timing, List.append_assoc, List.getElem?_append_left (by simpa using hj)]

/-- Entry 99 is the separator (R165). -/
theorem timing_getElem?_separator (cfg : Config) (r : Record) :
    (timing cfg r)[99]? = some (BitVec.ofNat 32 cfg.sepUs) := by
  rw [timing, List.append_assoc, List.getElem?_append_right (by simp)]
  simp

/-- The entries from 100 on are the second repetition (R165). -/
theorem timing_getElem?_second (cfg : Config) (r : Record) (j : Nat) :
    (timing cfg r)[100 + j]? = (rep cfg (assemble cfg r))[j]? := by
  rw [timing, List.getElem?_append_right (by simp)]
  simp

/-- Pulse `k` of the frame gives entries `3 + 2k` and `4 + 2k` (R164, R165). -/
theorem timing_getElem?_symbol (cfg : Config) {r : Record} {k : Nat} {p : Pulse} (hp : (assemble cfg r)[k]? = some p) :
    (timing cfg r)[3 + 2 * k]? = some (bitTime cfg p) ∧ (timing cfg r)[4 + 2 * k]? = some (gap cfg) := by
  have hk : k < 48 := assemble_length cfg r ▸ (List.getElem?_eq_some_iff.1 hp).1
  have hshift : ∀ i, i < 96 → (timing cfg r)[3 + i]? = (symbolEntries cfg (assemble cfg r))[i]? := fun i hi => by
    rw [timing_getElem?_first cfg r (by omega), rep_assemble, List.getElem?_append_right (by simp)]
    simp
  obtain ⟨htime, hgap⟩ := symbolEntries_getElem? cfg hp
  constructor
  · rw [hshift _ (by omega), htime]
  · rw [show 4 + 2 * k = 3 + (2 * k + 1) by omega, hshift _ (by omega), hgap]

/-- A byte and its complement unpack to eight pulses of each bit (R160). -/
theorem b2p_complement_countP (cfg : Config) (b : Byte) {c : Category} (hc : c = .zero ∨ c = .one) :
    (b2p cfg b ++ b2p cfg (~~~b)).countP (fun p => p.cat = c) = 8 := by
  have hflip : ∀ i ∈ List.range 8, (nominalPulse cfg ((~~~b).getLsbD (7 - i))).cat = c ↔
      ¬ (nominalPulse cfg (b.getLsbD (7 - i))).cat = c := fun i _ => by
    rw [BitVec.getLsbD_not, decide_eq_true (by omega), Bool.true_and]
    rcases hc with rfl | rfl <;> cases b.getLsbD (7 - i) <;> simp
  have hnot : (b2p cfg (~~~b)).countP (fun p => p.cat = c) =
      (List.range 8).countP fun i => ¬ (nominalPulse cfg (b.getLsbD (7 - i))).cat = c := by
    rw [b2p, List.countP_map]
    exact List.countP_congr fun i hi => by simpa using hflip i hi
  have hplain : (b2p cfg b).countP (fun p => p.cat = c) =
      (List.range 8).countP fun i => (nominalPulse cfg (b.getLsbD (7 - i))).cat = c := by
    rw [b2p, List.countP_map]
    rfl
  have hall := List.length_eq_countP_add_countP (fun i => decide ((nominalPulse cfg (b.getLsbD (7 - i))).cat = c))
    (l := List.range 8)
  rw [List.countP_append, hplain, hnot]
  simpa using hall.symm

/-- A frame has 24 pulses of each bit, whatever its record (R160, R166). -/
theorem assemble_countP (cfg : Config) (r : Record) {c : Category} (hc : c = .zero ∨ c = .one) :
    (assemble cfg r).countP (fun p => p.cat = c) = 24 := by
  rw [assemble, List.countP_flatMap, Record.bytes]
  simp [b2p_complement_countP cfg _ hc, -List.countP_append]

/-- What the symbols of a sequence of bit pulses last, gaps included (R166). -/
theorem sum_symbolEntries {cfg : Config} (hw : cfg.widthsOk) {fr : List Pulse} (hb : ∀ p ∈ fr, isBit p = true) :
    ((symbolEntries cfg fr).map (·.toNat)).sum =
      fr.countP (fun p => p.cat = .one) * cfg.nomOneUs + fr.countP (fun p => p.cat = .zero) * cfg.nomZeroUs +
        fr.length * cfg.gapUs := by
  obtain ⟨-, -, -, hzero, hone, -, hgap, -⟩ := hw
  induction fr with
  | nil =>
    simp only [symbolEntries, List.flatMap_nil, List.map_nil, List.sum_nil, List.countP_nil, List.length_nil,
      Nat.zero_mul, Nat.add_zero]
  | cons p fr ih =>
    obtain ⟨hp, hfr⟩ := List.forall_mem_cons.1 hb
    have hcons : ((symbolEntries cfg (p :: fr)).map (·.toNat)).sum =
        (bitTime cfg p).toNat + ((gap cfg).toNat + ((symbolEntries cfg fr).map (·.toNat)).sum) := by
      rw [symbolEntries_cons, List.map_cons, List.map_cons, List.sum_cons, List.sum_cons]
    have hgapNat : (gap cfg).toNat = cfg.gapUs := Nat.mod_eq_of_lt hgap
    rw [hcons, ih hfr, hgapNat]
    rcases (isBit_iff p).1 hp with hc | hc
    · have htime : (bitTime cfg p).toNat = cfg.nomZeroUs := by simpa [bitTime, hc] using Nat.mod_eq_of_lt hzero
      rw [htime, List.countP_cons_of_neg (by simp [hc]), List.countP_cons_of_pos (by simp [hc]), List.length_cons,
        Nat.succ_mul, Nat.succ_mul]
      omega
    · have htime : (bitTime cfg p).toNat = cfg.nomOneUs := by simpa [bitTime, hc] using Nat.mod_eq_of_lt hone
      rw [htime, List.countP_cons_of_pos (by simp [hc]), List.countP_cons_of_neg (by simp [hc]), List.length_cons,
        Nat.succ_mul, Nat.succ_mul]
      omega

/-- The transmission lasts the same whatever its record (R166). -/
theorem sum_timing {cfg : Config} (hw : cfg.widthsOk) (r : Record) :
    ((timing cfg r).map (·.toNat)).sum =
      2 * (2 * cfg.nomPreUs + cfg.gapUs + 24 * cfg.nomOneUs + 24 * cfg.nomZeroUs + 48 * cfg.gapUs) + cfg.sepUs := by
  have hsymbols := sum_symbolEntries hw (assemble_isBit cfg r)
  rw [assemble_countP cfg r (.inl rfl), assemble_countP cfg r (.inr rfl), assemble_length] at hsymbols
  obtain ⟨-, -, -, -, -, hpre, hgap, hsep, -⟩ := hw
  have hgapNat : (gap cfg).toNat = cfg.gapUs := Nat.mod_eq_of_lt hgap
  simp only [timing, rep_assemble, List.map_append, List.sum_append, List.map_cons, List.map_nil, List.sum_cons,
    List.sum_nil, BitVec.toNat_ofNat, Nat.mod_eq_of_lt hpre, Nat.mod_eq_of_lt hsep, hsymbols, hgapNat]
  omega

/-- A healthy block answers TIMING with the timing list (R166). -/
theorem exec_timing_of_healthy {s : State} (r : Record) (hs : s.faultCause = 0#4) :
    exec (.timing r) s = .next (s.respond .ok (.timing (timing s.cfg r))) :=
  congrArg Host.Outcome.next (unlessFaulted_of_healthy s (fun u => u.respond .ok (.timing (timing u.cfg r))) hs)

/-- Settles O31: the entries of `timing` by place, and their sum from the 24 pulses of each bit. -/
theorem timingListEntries : Obligations.TimingListEntries := by
  intro s r hs
  have hframing : ∀ j, j < 3 → (timing s.cfg r)[j]? =
      [BitVec.ofNat 32 s.cfg.nomPreUs, BitVec.ofNat 32 s.cfg.nomPreUs, gap s.cfg][j]? := fun j hj => by
    rw [timing_getElem?_first s.cfg r (by omega), rep_assemble, List.getElem?_append_left (by simpa using hj)]
  refine ⟨decode_of_checkHeader (by decide) rfl, timing s.cfg r, exec_timing_of_healthy r hs, timing_length s.cfg r,
    hframing 0 (by omega), hframing 1 (by omega), hframing 2 (by omega),
    fun k p hp => timing_getElem?_symbol s.cfg hp, timing_getElem?_separator s.cfg r, fun j hj => ?_,
    fun hw => sum_timing hw r, fun hcfg => ?_⟩
  · rw [timing_getElem?_second, timing_getElem?_first s.cfg r hj]
  · rw [hcfg, sum_timing (by decide) r]
    rfl

/-! ### VALIDATE (R167, R168) -/

/-- A sequence that splits into two halves of `n` has equal categories in both exactly when each place agrees with the
place `n` on. -/
theorem halves_cat_eq_iff {b : List Pulse} {n : Nat} (h : b.length = 2 * n) :
    (b.take n).map (·.cat) = (b.drop n).map (·.cat) ↔
      ∀ i p q, i < n → b[i]? = some p → b[i + n]? = some q → p.cat = q.cat := by
  have hfirst : ∀ i, i < n → ((b.take n).map (·.cat))[i]? = b[i]?.map (·.cat) := fun i hi => by
    rw [List.getElem?_map, List.getElem?_take_of_lt hi]
  have hsecond : ∀ i, ((b.drop n).map (·.cat))[i]? = b[i + n]?.map (·.cat) := fun i => by
    rw [List.getElem?_map, List.getElem?_drop, Nat.add_comm]
  constructor
  · intro heq i p q hi hp hq
    have hplace : b[i]?.map (·.cat) = b[i + n]?.map (·.cat) := by rw [← hfirst i hi, heq, hsecond]
    rw [hp, hq] at hplace
    exact Option.some.inj hplace
  · intro hcat
    refine List.ext_getElem? fun i => ?_
    by_cases hi : i < n
    · have hp : b[i]? = some b[i] := List.getElem?_eq_getElem (by omega)
      have hq : b[i + n]? = some b[i + n] := List.getElem?_eq_getElem (by omega)
      rw [hfirst i hi, hsecond, hp, hq, Option.map_some, Option.map_some, hcat i _ _ hi hp hq]
    · rw [List.getElem?_eq_none (by rw [List.length_map, List.length_take]; omega),
        List.getElem?_eq_none (by rw [List.length_map, List.length_drop]; omega)]

/-- The bit pulses of a capture by the category test of R100. -/
theorem filter_isBit (pv : List Pulse) :
    pv.filter isBit = pv.filter fun p => decide (p.cat = .zero ∨ p.cat = .one) :=
  List.filter_congr fun p _ => Bool.eq_iff_iff.2 ((isBit_iff p).trans decide_eq_true_iff.symm)

/-- 96 bit pulses whose categories repeat are trimmed to the first 48 (R167). -/
theorem validate_of_repeats {pv : List Pulse} (hlen : (pv.filter isBit).length = 96)
    (hcat : ((pv.filter isBit).take 48).map (·.cat) = ((pv.filter isBit).drop 48).map (·.cat)) :
    validate pv = some ((pv.filter isBit).take 48) := by
  rw [validate, if_neg (not_not_intro hlen)]
  exact if_pos hcat

/-- Another number of bit pulses, or halves that differ, give no frame (R167). -/
theorem validate_eq_none {pv : List Pulse} (h : (pv.filter isBit).length ≠ 96 ∨
    ((pv.filter isBit).take 48).map (·.cat) ≠ ((pv.filter isBit).drop 48).map (·.cat)) : validate pv = none := by
  refine Option.eq_none_iff_forall_ne_some.2 fun f hf => ?_
  obtain ⟨hlen, rfl, hcat⟩ := validate_some hf
  exact h.elim (absurd hlen) (absurd hcat)

/-- A healthy block answers VALIDATE with the frame (R168). -/
theorem exec_validate_some {s : State} {pv f : List Pulse} (hs : s.faultCause = 0#4) (h : validate pv = some f) :
    exec (.validate pv) s = .next (s.respond .ok (.pulses f)) := by
  simp [exec, execValidate, unlessFaulted_of_healthy _ _ hs, h]

/-- A malformed capture is ABSENT, not a fault (R168). -/
theorem exec_validate_none {s : State} {pv : List Pulse} (hs : s.faultCause = 0#4) (h : validate pv = none) :
    exec (.validate pv) s = .next (s.respond .absent .none) := by
  simp [exec, execValidate, unlessFaulted_of_healthy _ _ hs, h]

/-- Settles O32: what `validate` gives on captures that repeat and on the others, place by place. -/
theorem validateTrimsCapture : Obligations.ValidateTrimsCapture := by
  intro s pv b hs hb
  obtain rfl : b = pv.filter isBit := hb.trans (filter_isBit pv).symm
  refine ⟨decode_validate, fun hlen hcat => ?_, fun hbad => ?_⟩
  · exact exec_validate_some hs (validate_of_repeats hlen ((halves_cat_eq_iff hlen).2 hcat))
  · refine exec_validate_none hs (validate_eq_none ?_)
    by_cases hlen : (pv.filter isBit).length = 96
    · obtain hne | ⟨i, p, q, hi, hp, hq, hcat⟩ := hbad
      · exact .inl hne
      · exact .inr fun heq => hcat ((halves_cat_eq_iff hlen).1 heq i p q hi hp hq)
    · exact .inl hlen

/-! ### The bytes of a sequence of bit pulses (R105, R169, R171) -/

/-- Bit `7 - i` of byte `k` tells whether pulse `8k + i` is One (R105). -/
theorem byteAt_getLsbD {pv : List Pulse} {k i : Nat} {p : Pulse} (hlen : 8 * k + 8 ≤ pv.length) (hi : i < 8)
    (hp : pv[8 * k + i]? = some p) : (byteAt pv k).getLsbD (7 - i) = decide (p.cat = .one) := by
  have hbit : (pulseBits pv)[8 * k + i]? = some (decide (p.cat = .one)) := by
    rw [pulseBits, List.getElem?_map, hp]
    rfl
  exact Option.some.inj ((packBits_chunk (by simpa using hlen) hi).symm.trans hbit)

/-- A byte is another's complement exactly when they differ in every bit. -/
theorem eq_not_iff_getLsbD_ne (b c : Byte) :
    b = ~~~c ↔ ∀ i, i < 8 → b.getLsbD (7 - i) ≠ c.getLsbD (7 - i) := by
  constructor
  · rintro rfl i hi
    simp [show 7 - i < 8 by omega]
  · intro hne
    refine BitVec.eq_of_getLsbD_eq fun k hk => ?_
    have hk' := hne (7 - k) (by omega)
    rw [show 7 - (7 - k) = k by omega] at hk'
    rw [BitVec.getLsbD_not, decide_eq_true hk, Bool.true_and]
    exact Bool.eq_not.2 hk'

/-- Bit pulses have different categories exactly when one of them is One and the other is not (R104). -/
theorem cat_ne_iff {p q : Pulse} (hp : isBit p = true) (hq : isBit q = true) :
    p.cat ≠ q.cat ↔ decide (p.cat = .one) ≠ decide (q.cat = .one) := by
  rcases (isBit_iff p).1 hp with hp | hp <;> rcases (isBit_iff q).1 hq with hq | hq <;> simp [hp, hq]

/-- The byte at `k` is the complement of the one at `l` exactly when their pulses differ in category (R169). -/
theorem byteAt_eq_not_iff {pv : List Pulse} (hb : ∀ p ∈ pv, isBit p = true) {k l : Nat}
    (hk : 8 * k + 8 ≤ pv.length) (hl : 8 * l + 8 ≤ pv.length) :
    byteAt pv k = ~~~byteAt pv l ↔
      ∀ i p q, i < 8 → pv[8 * k + i]? = some p → pv[8 * l + i]? = some q → p.cat ≠ q.cat := by
  rw [eq_not_iff_getLsbD_ne]
  constructor
  · intro hne i p q hi hp hq
    rw [cat_ne_iff (hb p (List.mem_of_getElem? hp)) (hb q (List.mem_of_getElem? hq)), ← byteAt_getLsbD hk hi hp,
      ← byteAt_getLsbD hl hi hq]
    exact hne i hi
  · intro hcat i hi
    have hp : pv[8 * k + i]? = some pv[8 * k + i] := List.getElem?_eq_getElem (by omega)
    have hq : pv[8 * l + i]? = some pv[8 * l + i] := List.getElem?_eq_getElem (by omega)
    rw [byteAt_getLsbD hk hi hp, byteAt_getLsbD hl hi hq]
    exact (cat_ne_iff (hb _ (List.getElem_mem _)) (hb _ (List.getElem_mem _))).1 (hcat i _ _ hi hp hq)

/-- A sequence with a pulse that is no bit pulse has no bytes (R169, R171). -/
theorem packBytes_of_not_isBit {pv : List Pulse} (hb : ∃ p ∈ pv, isBit p = false) :
    packBytes pv = .error .notABit := by
  rw [packBytes, bits_notABit hb]
  rfl

/-! ### CHECKSUM (R169, R170) -/

/-- The length is checked before any pulse is looked at (R169). -/
theorem checksum_of_length_ne {pv : List Pulse} (h : pv.length ≠ 48) : checksum pv = .error .badLength := if_pos h

/-- Of 48 pulses, one that is no bit pulse is enough for NOT_A_BIT (R169). -/
theorem checksum_of_not_isBit {pv : List Pulse} (h : pv.length = 48) (hb : ∃ p ∈ pv, isBit p = false) :
    checksum pv = .error .notABit := by
  rw [checksum, if_neg (not_not_intro h), packBytes_of_not_isBit hb]
  rfl

/-- The checksum of 48 bit pulses holds exactly when each of their even bytes is followed by its complement (R169). -/
theorem checksum_of_isBit {pv : List Pulse} (h : pv.length = 48) (hb : ∀ p ∈ pv, isBit p = true) :
    ∃ v : Bool, checksum pv = .ok v ∧ (v = true ↔ ∀ j, j < 3 → byteAt pv (2 * j) = ~~~byteAt pv (2 * j + 1)) := by
  refine ⟨_, checksum_ok h hb, ?_⟩
  simp only [Bool.and_true, Bool.and_eq_true, beq_iff_eq]
  constructor
  · rintro ⟨h0, h1, h2⟩ j hj
    match j, hj with
    | 0, _ => exact h0
    | 1, _ => exact h1
    | 2, _ => exact h2
  · exact fun hall => ⟨hall 0 (by omega), hall 1 (by omega), hall 2 (by omega)⟩

/-- A healthy block answers CHECKSUM with the bit or its fault (R170). -/
theorem exec_checksum_of_healthy {s : State} (pv : List Pulse) (hs : s.faultCause = 0#4) :
    exec (.checksum pv) s = .next (s.answer .checksum ((checksum pv).map .bit)) :=
  congrArg Host.Outcome.next
    (unlessFaulted_of_healthy s (fun u => u.answer .checksum ((checksum pv).map .bit)) hs)

/-- Settles O33: what `checksum` gives on a wrong length, on bit pulses, and on a pulse that is none. -/
theorem checksumComparesComplements : Obligations.ChecksumComparesComplements := by
  intro s pv hs
  refine ⟨fun hlen => decode_pulses (by decide) (fun _ => rfl) hlen, fun hlen hbits => ?_, fun hlen => ?_,
    fun hlen hbad => ?_⟩
  · have hb : ∀ p ∈ pv, isBit p = true := fun p hp => (isBit_iff p).2 (hbits p hp)
    obtain ⟨v, hv, hpairs⟩ := checksum_of_isBit hlen hb
    have hpair : ∀ j, j < 3 → (byteAt pv (2 * j) = ~~~byteAt pv (2 * j + 1) ↔ ∀ i p q, i < 8 →
        pv[16 * j + i]? = some p → pv[16 * j + 8 + i]? = some q → p.cat ≠ q.cat) := fun j hj => by
      rw [byteAt_eq_not_iff hb (by omega) (by omega), show 8 * (2 * j) = 16 * j by omega,
        show 8 * (2 * j + 1) = 16 * j + 8 by omega]
    refine ⟨v, hpairs.trans ⟨?_, ?_⟩, ?_⟩
    · exact fun hall j i p q hj => (hpair j hj).1 (hall j hj) i p q
    · exact fun hcat j hj => (hpair j hj).2 fun i p q => hcat j i p q hj
    · rw [exec_checksum_of_healthy pv hs, hv]
      rfl
  · rw [exec_checksum_of_healthy pv hs, checksum_of_length_ne hlen]
    rfl
  · obtain ⟨p, hp, hcat⟩ := hbad
    rw [exec_checksum_of_healthy pv hs, checksum_of_not_isBit hlen ⟨p, hp, (isBit_false_iff p).2 hcat⟩]
    rfl

/-! ### F2R (R171, R172) -/

/-- The length is checked before any pulse is looked at (R171). -/
theorem f2r_of_length_ne {pv : List Pulse} (h24 : pv.length ≠ 24) (h48 : pv.length ≠ 48) :
    f2r pv = .error .badLength := if_pos ⟨h24, h48⟩

/-- Of 24 or 48 pulses, one that is no bit pulse, in a complement too, is enough for NOT_A_BIT (R171). -/
theorem f2r_of_not_isBit {pv : List Pulse} (h : pv.length = 24 ∨ pv.length = 48) (hb : ∃ p ∈ pv, isBit p = false) :
    f2r pv = .error .notABit := by
  rw [f2r, if_neg (fun hne => h.elim hne.1 hne.2), packBytes_of_not_isBit hb]

/-- F2R takes every byte of 24 bit pulses and every second one of 48 (R171). -/
theorem f2r_of_isBit {pv : List Pulse} {m : Nat} (h : (pv.length = 24 ∧ m = 1) ∨ (pv.length = 48 ∧ m = 2))
    (hb : ∀ p ∈ pv, isBit p = true) :
    ∃ r, f2r pv = .ok r ∧ Record.bytes r = [byteAt pv 0, byteAt pv m, byteAt pv (m * 2)] := by
  rcases h with ⟨hlen, rfl⟩ | ⟨hlen, rfl⟩
  · exact ⟨_, f2r_24 hlen hb, Record.bytes_mkRecord ..⟩
  · exact ⟨_, f2r_48 hlen hb, Record.bytes_mkRecord ..⟩

/-- A healthy block answers F2R with the record or its fault (R172). -/
theorem exec_f2r_of_healthy {s : State} (pv : List Pulse) (hs : s.faultCause = 0#4) :
    exec (.f2r pv) s = .next (s.answer .f2r ((f2r pv).map .record)) :=
  congrArg Host.Outcome.next (unlessFaulted_of_healthy s (fun u => u.answer .f2r ((f2r pv).map .record)) hs)

/-- The bits of the record that F2R answers are its plain bytes' pulses, the bytes lying `8 * m` apart (R171). -/
theorem getLsbD_of_bytes_eq_byteAt {pv : List Pulse} {r : Record} {m j i : Nat} {p : Pulse}
    (hr : Record.bytes r = [byteAt pv 0, byteAt pv m, byteAt pv (m * 2)]) (hlen : 24 * m ≤ pv.length) (hm : 1 ≤ m)
    (hj : j < 3) (hi : i < 8) (hp : pv[8 * m * j + i]? = some p) :
    r.getLsbD (23 - (8 * j + i)) = true ↔ p.cat = .one := by
  have hbyte : (Record.bytes r)[j]? = some (byteAt pv (m * j)) := by
    match j, hj with
    | 0, _ => simp [hr]
    | 1, _ => simp [hr]
    | 2, _ => simp [hr]
  have hfits : 8 * (m * j) + 8 ≤ pv.length := by
    have hmj : m * j ≤ m * 2 := Nat.mul_le_mul_left m (by omega)
    omega
  rw [← Record.bytes_getLsbD hbyte hi, byteAt_getLsbD hfits hi (Nat.mul_assoc 8 m j ▸ hp), decide_eq_true_iff]

/-- Settles O34: what `f2r` gives on a wrong length, on bit pulses, and on a pulse that is none. -/
theorem f2rTakesPlainBytes : Obligations.F2rTakesPlainBytes := by
  intro s pv hs
  refine ⟨fun hlen => decode_pulses (by decide) (fun _ => rfl) hlen,
    fun hlen => decode_pulses (by decide) (fun _ => rfl) hlen, fun w hw hbits => ?_, fun h24 h48 => ?_,
    fun hlen hbad => ?_⟩
  · have hb : ∀ p ∈ pv, isBit p = true := fun p hp => (isBit_iff p).2 (hbits p hp)
    obtain ⟨m, rfl, hm⟩ : ∃ m, w = 8 * m ∧ ((pv.length = 24 ∧ m = 1) ∨ (pv.length = 48 ∧ m = 2)) :=
      hw.elim (fun h => ⟨1, h.2, .inl ⟨h.1, rfl⟩⟩) fun h => ⟨2, h.2, .inr ⟨h.1, rfl⟩⟩
    obtain ⟨r, hr, hbytes⟩ := f2r_of_isBit hm hb
    refine ⟨r, fun j i p hj hi hp => getLsbD_of_bytes_eq_byteAt hbytes (by omega) (by omega) hj hi hp, ?_⟩
    rw [exec_f2r_of_healthy pv hs, hr]
    rfl
  · rw [exec_f2r_of_healthy pv hs, f2r_of_length_ne h24 h48]
    rfl
  · obtain ⟨p, hp, hcat⟩ := hbad
    rw [exec_f2r_of_healthy pv hs, f2r_of_not_isBit hlen ⟨p, hp, (isBit_false_iff p).2 hcat⟩]
    rfl

end Machine
end Sys2Proof

/-! PROOFS. The family `43_edge_decoder.md`: EDGE (R191 to R195), TICK (R196, R197), ABORT (R198) and LINE_FAULT (R199). -/

namespace Sys2Proof.Machine

/-! ### EDGE (R191 to R195) -/

/-- While Running, a timestamp below the last edge's is the fault NONMONOTONIC_TS (R191). -/
theorem exec_edge_of_nonmonotonic {s : State} (e : EdgeType) {ts : Nanos} (hs : s.faultCause = 0#4)
    (hr : s.runState = .running) (hts : ts.toNat < s.lastEdgeTime.toNat) :
    exec (.edge e ts) s = .next (s.raise .nonmonotonicTs .edge) := by
  simp [exec, execEdge, unlessFaulted_of_healthy _ _ hs, hr, hts]

/-- While Running, an edge in order is processed and answered OK (R191). -/
theorem exec_edge_of_ordered {s : State} (e : EdgeType) {ts : Nanos} (hs : s.faultCause = 0#4)
    (hr : s.runState = .running) (hts : s.lastEdgeTime.toNat ≤ ts.toNat) :
    exec (.edge e ts) s = .next ((s.processEdge e ts).respond .ok .none) := by
  simp [exec, execEdge, unlessFaulted_of_healthy _ _ hs, hr, Nat.not_lt.2 hts]

/-- A rising edge, and the first edge of either type, are marked and yield no pulse (R192, R195). -/
theorem processEdge_of_no_pulse {s : State} {e : EdgeType} (ts : Nanos) (h : e = .rising ∨ s.edgeCount = 0#32) :
    s.processEdge e ts = s.markEdge ts := by
  rcases processEdge_cases s e ts with ⟨rfl, hseen, -⟩ | ⟨-, hmark⟩
  · exact absurd h (by simp [hseen])
  · exact hmark

/-- A falling edge after an earlier edge appends the classified interval between them (R192, R193). -/
theorem processEdge_falling_of_seen {s : State} (ts : Nanos) (h : s.edgeCount ≠ 0#32) :
    s.processEdge .falling ts = (s.append (classify s.cfg (s.interval ts))).markEdge ts := by
  rcases processEdge_cases s .falling ts with ⟨-, -, happend⟩ | ⟨hno, -⟩
  · exact happend
  · exact absurd hno (by simp [h])

/-- Settles O36: the loop ended, the timestamp out of order, and in order the edge without a pulse, with room for its pulse
and with none. -/
theorem edgeMarksAndAppends : Obligations.EdgeMarksAndAppends := by
  intro s marked ts hs hmarked
  subst hmarked
  refine ⟨decode_of_checkHeader (by decide) rfl, decode_of_checkHeader (by decide) rfl,
    fun e hr => exec_of_stopped (.inl rfl) hs hr, fun e hr hts => exec_edge_of_nonmonotonic e hs hr hts,
    fun hr hts => ⟨?_, fun hfirst => ?_, fun hseen hroom => ?_, fun hseen hfull => ?_⟩⟩
  · rw [exec_edge_of_ordered _ hs hr hts, processEdge_of_no_pulse ts (.inl rfl)]
    rfl
  · rw [exec_edge_of_ordered _ hs hr hts, processEdge_of_no_pulse ts (.inr hfirst)]
    rfl
  · rw [exec_edge_of_ordered _ hs hr hts, processEdge_falling_of_seen ts hseen, append_of_room _ _ hroom]
    rfl
  · rw [exec_edge_of_ordered _ hs hr hts, processEdge_falling_of_seen ts hseen,
      append_of_full _ _ (Nat.not_lt.2 hfull)]
    rfl

/-! ### TICK (R196, R197) -/

/-- A flush is due when something is pending and the quiet period is over (R196). -/
theorem flushDue_iff (s : State) (now : Nanos) :
    s.flushDue now = true ↔ s.pending ≠ [] ∧ s.lastEdgeTime.toNat + s.cfg.idleNs < now.toNat := by
  simp [State.flushDue, List.length_pos_iff]

/-- While Running, TICK flushes when a flush is due (R196). -/
theorem exec_tick_of_due {s : State} {now : Nanos} (hs : s.faultCause = 0#4) (hr : s.runState = .running)
    (hdue : s.flushDue now = true) : exec (.tick now) s = .next (s.flush.respond .ok .none) := by
  simp [exec, execTick, unlessFaulted_of_healthy _ _ hs, hr, hdue]

/-- While Running, TICK changes nothing when no flush is due (R196). -/
theorem exec_tick_of_not_due {s : State} {now : Nanos} (hs : s.faultCause = 0#4) (hr : s.runState = .running)
    (hdue : s.flushDue now ≠ true) : exec (.tick now) s = .next (s.respond .ok .none) := by
  simp [exec, execTick, unlessFaulted_of_healthy _ _ hs, hr, hdue]

/-- Settles O37: the loop ended, a flush due, and none due. -/
theorem tickFlushesAfterQuiet : Obligations.TickFlushesAfterQuiet := by
  intro s now hs
  refine ⟨decode_of_checkHeader (by decide) rfl, fun hr => exec_of_stopped (.inr rfl) hs hr,
    fun hr hpending hquiet => exec_tick_of_due hs hr ((flushDue_iff s now).2 ⟨hpending, hquiet⟩),
    fun hr hnot => exec_tick_of_not_due hs hr fun hdue => ?_⟩
  obtain ⟨hpending, hquiet⟩ := (flushDue_iff s now).1 hdue
  exact hnot.elim hpending (Nat.not_le.2 hquiet)

/-! ### ABORT and LINE_FAULT (R198, R199) -/

/-- A healthy block answers ABORT with OK, its loop ended (R198). -/
theorem exec_abort_of_healthy {s : State} (hs : s.faultCause = 0#4) :
    exec .abort s = .next ((s.endLoop .aborted).respond .ok .none) :=
  congrArg Host.Outcome.next (unlessFaulted_of_healthy s (fun u => (u.endLoop .aborted).respond .ok .none) hs)

/-- A healthy block answers LINE_FAULT with OK, its loop ended (R199). -/
theorem exec_lineFault_of_healthy {s : State} (hs : s.faultCause = 0#4) :
    exec .lineFault s = .next ((s.endLoop .lineFailed).respond .ok .none) :=
  congrArg Host.Outcome.next (unlessFaulted_of_healthy s (fun u => (u.endLoop .lineFailed).respond .ok .none) hs)

/-- Settles O38: ABORT is `endLoop`, from Running and elsewhere. -/
theorem abortStopsTheLoop : Obligations.AbortStopsTheLoop := by
  intro s hs
  refine ⟨decode_of_checkHeader (by decide) rfl, fun hr => ?_, fun hr => ?_⟩
  · rw [exec_abort_of_healthy hs, endLoop_of_running s _ hr]
    rfl
  · rw [exec_abort_of_healthy hs, endLoop_of_stopped s _ hr]
    rfl

/-- Settles O39: LINE_FAULT is `endLoop`, from Running and elsewhere. -/
theorem lineFaultFailsTheLoop : Obligations.LineFaultFailsTheLoop := by
  intro s hs
  refine ⟨decode_of_checkHeader (by decide) rfl, fun hr => ?_, fun hr => ?_⟩
  · rw [exec_lineFault_of_healthy hs, endLoop_of_running s _ hr]
    rfl
  · rw [exec_lineFault_of_healthy hs, endLoop_of_stopped s _ hr]
    rfl

end Sys2Proof.Machine

/-! PROOFS. The family `60_exceptions.md`: what a faulted block serves (R226), the exit from a fault (R227), fault entry
(R225), and a TICK and an EDGE at the same time (R230). -/

namespace Sys2Proof

/-- A request decodes to an instruction of the opcode its header selects (R77, R83). -/
theorem opcode_of_decode {r : Request} {i : Instr} (h : decode r = .ok i) : i.opcode = Header.opcode r.header := by
  obtain ⟨-, hoperands⟩ := decode_ok.1 h
  cases hop : Header.opcode r.header <;> simp only [decodeOperands, hop] at hoperands
  case status | abort | lineFault =>
    obtain ⟨-, rfl⟩ := expectNone_ok.1 hoperands
    rfl
  case classify | edge | tick =>
    obtain ⟨_, -, rfl⟩ := expectNanos_ok.1 hoperands
    rfl
  case p2b | validate | checksum | f2r =>
    obtain ⟨_, -, -, rfl⟩ := expectPulses_ok.1 hoperands
    rfl
  case b2p =>
    obtain ⟨_, -, rfl⟩ := expectByte_ok.1 hoperands
    rfl
  case encode =>
    obtain ⟨_, -, rfl⟩ := expectCommand_ok.1 hoperands
    rfl
  case decode | assemble | timing =>
    obtain ⟨_, -, rfl⟩ := expectRecord_ok.1 hoperands
    rfl
  case reserved =>
    cases hoperands
    rfl

namespace Machine

/-! ### While a fault is recorded (R226, R227) -/

/-- Settles O14: STATUS answers the word whose bit 0 is `faulted`, and the guard refuses every other instruction. -/
theorem faultedBlockServesOnlyStatus : Obligations.FaultedBlockServesOnlyStatus := fun s hs =>
  ⟨⟨(statusWord_faulted s).trans ((faulted_iff s).2 hs), rfl⟩, fun _ hi => exec_of_faulted hs hi⟩

/-- While a fault is recorded an instruction does nothing but respond (R226). -/
theorem exec_responds_of_faulted {i : Instr} {s t : State} (h : exec i s = .next t) (hs : s.faultCause ≠ 0#4) :
    ∃ st r, t = s.respond st r := by
  by_cases hi : i = .status
  · subst hi
    cases h
    exact ⟨_, _, rfl⟩
  · rw [exec_of_faulted hs hi] at h
    cases h
    exact ⟨_, _, rfl⟩

/-- While a fault is recorded a request, decoded or not, gets a response and nothing else happens (R83, R226). -/
theorem serve_responds_of_faulted {r : Request} {s t : State} (h : serve r s = .next t) (hs : s.faultCause ≠ 0#4) :
    ∃ st res, t = s.respond st res := by
  rcases serve_cases h with ⟨_, _, _, hi⟩ | ⟨_, _, rfl⟩ | ⟨_, rfl⟩ | ⟨hhealthy, _⟩
  · exact exec_responds_of_faulted hi hs
  · exact ⟨_, _, rfl⟩
  · exact ⟨_, _, rfl⟩
  · exact absurd hhealthy hs

/-- Settles O15: a reset step is `applyReset`; at any other place an agent moves its own fields on, or a request is
served, which only responds. -/
theorem onlyResetClearsFault : Obligations.OnlyResetClearsFault := by
  intro s t hs h
  refine ⟨fun rest hr => ?_, fun hr => ?_⟩
  · rw [step_of_reset hr] at h
    cases h
    simp
  · rcases step_cases h with ⟨_, rfl⟩ | ⟨rest, hreset, _⟩ | ⟨_, _, _, _, _, _, _, rfl⟩ |
      ⟨_, _, _, _, _, _, _, _, _, _, hv, rfl⟩
    · simp
    · exact absurd hreset (hr rest)
    · simp
    · obtain ⟨_, _, rfl⟩ := serve_responds_of_faulted hv hs
      simp

/-! ### Fault entry (R225) -/

/-- Processing an edge raises no fault (R191). -/
@[simp] theorem processEdge_faultCause (s : State) (e : EdgeType) (ts : Nanos) :
    (s.processEdge e ts).faultCause = s.faultCause := by
  rcases processEdge_cases s e ts with ⟨_, _, h⟩ | ⟨_, h⟩ <;> simp [h]

/-- An instruction that takes a healthy block into a fault raises it, and does nothing else (R221, R225). -/
theorem exec_raises_of_fault_entry {i : Instr} {s t : State} (h : exec i s = .next t) (hs : s.faultCause = 0#4)
    (ht : t.faultCause ≠ 0#4) : ∃ c, t = s.raise c i.opcode := by
  rcases exec_cases h with ⟨_, _, rfl, _⟩ | ⟨c, _, _, rfl⟩ | ⟨_, _, _, _, _, _, rfl⟩ |
    ⟨_, _, _, _, _, rfl⟩ | ⟨_, _, _, rfl⟩ | ⟨_, _, _, rfl⟩
  · exact absurd hs ht
  · exact ⟨c, rfl⟩
  · exact absurd ((processEdge_faultCause ..).trans hs) ht
  all_goals exact absurd hs ht

/-- A request that takes a healthy block into a fault raises it with its header's opcode, and does nothing else
(R225). -/
theorem serve_raises_of_fault_entry {r : Request} {s t : State} (h : serve r s = .next t) (hs : s.faultCause = 0#4)
    (ht : t.faultCause ≠ 0#4) : ∃ c, t = s.raise c (Header.opcode r.header) := by
  rcases serve_cases h with ⟨i, hi, _, hexec⟩ | ⟨hfaulted, _⟩ | ⟨hfaulted, _⟩ | ⟨_, _, rfl⟩
  · rw [← opcode_of_decode hi]
    exact exec_raises_of_fault_entry hexec hs ht
  · exact absurd hs hfaulted
  · exact absurd hs hfaulted
  · exact ⟨_, rfl⟩

/-- Settles O16: the next state is `raise`'s at the place after the request, and the block is faulted there. -/
theorem faultEntryIsPrecise : Obligations.FaultEntryIsPrecise := by
  intro s t r rest hr hs h ht
  have hserve : serve r s.advance = .next t := (step_cons hr).symm.trans h
  have hop : (Header.opcode r.header).code = r.header.extractLsb' 0 4 := opcode_code_ofCode _
  refine ⟨?_, fun i hi => exec_of_faulted ht hi⟩
  obtain ⟨c, rfl⟩ := serve_raises_of_fault_entry hserve hs ht
  rw [← hop]
  rfl

/-! ### A TICK and an EDGE at the same time (R230) -/

@[simp] theorem processEdge_position (s : State) (e : EdgeType) (ts : Nanos) :
    (s.processEdge e ts).position = s.position := by
  rcases processEdge_cases s e ts with ⟨_, _, h⟩ | ⟨_, h⟩ <;> simp [h]

/-- No instruction moves the place in the stream (R22). -/
theorem exec_keeps_position {i : Instr} {s t : State} (h : exec i s = .next t) : t.position = s.position := by
  rcases exec_cases h with ⟨_, _, rfl, _⟩ | ⟨_, _, _, rfl⟩ | ⟨_, _, _, _, _, _, rfl⟩ |
    ⟨_, _, _, _, _, rfl⟩ | ⟨_, _, _, rfl⟩ | ⟨_, _, _, rfl⟩ <;> simp

/-- A step at a request that decodes, its operands within TS_WIDTH bits, runs its instruction (R7, R83). -/
theorem step_of_request {s : State} {r : Request} {rest : List Arrival} {i : Instr}
    (hrem : s.remaining = .request r :: rest) (hd : decode r = .ok i) (hw : i.inWidth s.cfg = true) :
    step s = exec i s.advance := (step_cons hrem).trans (serve_of_decode hd hw)

/-- Two requests in a row run their two instructions, each at the place after its own (R7, R83). -/
theorem run_two_requests {s t u : State} {q r : Request} {i j : Instr}
    (hrem : s.remaining = [.request q, .request r]) (hq : decode q = .ok i) (hr : decode r = .ok j)
    (hwi : i.inWidth s.cfg = true) (hwj : j.inWidth s.cfg = true)
    (ht : exec i s.advance = .next t) (hu : exec j t.advance = .next u) :
    Host.Core.run core 2 s = .next u := by
  obtain ⟨hcfg, hstream⟩ := exec_keeps_input ht
  have hrem' : t.remaining = [.request r] :=
    (remaining_congr hstream (exec_keeps_position ht)).trans (remaining_advance hrem)
  have hfirst : step s = .next t := (step_of_request hrem hq hwi).trans ht
  have hsecond : step t = .next u := (step_of_request hrem' hr (hcfg ▸ hwj)).trans hu
  rw [run_succ_of_step 1 hfirst, run_succ_of_step 0 hsecond, run_zero]

/-- A TICK that is encoded decodes to itself (R72). -/
theorem decode_encode_tick (now : Nanos) : decode (encode (.tick now)) = .ok (.tick now) :=
  decode_of_checkHeader (by decide) rfl

/-- A falling EDGE that is encoded decodes to itself (R71, R72). -/
theorem decode_encode_falling_edge (ts : Nanos) :
    decode (encode (.edge .falling ts)) = .ok (.edge .falling ts) :=
  decode_of_checkHeader (by decide) rfl

/-- A falling edge in order, with room for its pulse, appends it and is marked (R191 to R194). -/
theorem exec_falling_edge_of_room {s : State} {ts : Nanos} (hs : s.faultCause = 0#4) (hr : s.runState = .running)
    (hseen : s.edgeCount ≠ 0#32) (hts : s.lastEdgeTime.toNat ≤ ts.toNat)
    (hroom : s.pending.length < s.cfg.pendingCap) :
    exec (.edge .falling ts) s = .next (({ s with
      pending := s.pending ++ [classify s.cfg (s.interval ts)] }.markEdge ts).respond .ok .none) := by
  rw [exec_edge_of_ordered _ hs hr hts, processEdge_falling_of_seen ts hseen, append_of_room _ _ hroom]

/-- Within the quiet period no flush is due (R196). -/
theorem not_flushDue_of_le {s : State} {now : Nanos} (h : now.toNat ≤ s.lastEdgeTime.toNat + s.cfg.idleNs) :
    s.flushDue now ≠ true := fun hdue => by
  obtain ⟨-, hquiet⟩ := (flushDue_iff s now).1 hdue
  omega

/-- A duration that reaches the end of the last band is in no band (R8, R101). -/
theorem classifyCategory_of_preHi_le {cfg : Config} {d : Nat} (hb : cfg.bandsOk) (h : cfg.preHi ≤ d) :
    classifyCategory cfg d = .invalid := by
  obtain ⟨_, _, ⟨_, _⟩, ⟨_, _⟩, ⟨_, _⟩⟩ := hb
  rw [classifyCategory, if_neg (by omega), if_neg (by omega), if_neg (by omega)]

/-- Tick first: the pending burst is flushed, and the edge's pulse begins the next one (R230). -/
theorem run_tick_then_falling_edge {s : State} {now : Nanos}
    (hrem : s.remaining = [.request (encode (.tick now)), .request (encode (.edge .falling now))])
    (hs : s.faultCause = 0#4) (hr : s.runState = .running) (hseen : s.edgeCount ≠ 0#32) (hpending : s.pending ≠ [])
    (hcap : 1 ≤ s.cfg.pendingCap) (hw : now.toNat < 2 ^ s.cfg.tsWidth)
    (hquiet : s.lastEdgeTime.toNat + s.cfg.idleNs < now.toNat) :
    Host.Core.run core 2 s = .next { s.flush.markEdge now with
      pending := [classify s.cfg (s.interval now)]
      responses := s.responses ++ [⟨.ok, .none⟩, ⟨.ok, .none⟩]
      position := s.position + 2 } := by
  have hordered : s.lastEdgeTime.toNat ≤ now.toNat := by omega
  rw [run_two_requests hrem (decode_encode_tick now) (decode_encode_falling_edge now) (decide_eq_true hw)
    (decide_eq_true hw) (exec_tick_of_due hs hr ((flushDue_iff _ now).2 ⟨hpending, hquiet⟩))
    (exec_falling_edge_of_room hs hr hseen hordered hcap), List.append_cons s.responses]
  rfl

/-- Edge first: the pulse joins the old burst, and the tick comes too early after that edge to flush (R230). -/
theorem run_falling_edge_then_tick {s : State} {now : Nanos}
    (hrem : s.remaining = [.request (encode (.edge .falling now)), .request (encode (.tick now))])
    (hs : s.faultCause = 0#4) (hr : s.runState = .running) (hseen : s.edgeCount ≠ 0#32)
    (hroom : s.pending.length < s.cfg.pendingCap) (hw : now.toNat < 2 ^ s.cfg.tsWidth)
    (hordered : s.lastEdgeTime.toNat ≤ now.toNat) :
    Host.Core.run core 2 s = .next { s.markEdge now with
      pending := s.pending ++ [classify s.cfg (s.interval now)]
      responses := s.responses ++ [⟨.ok, .none⟩, ⟨.ok, .none⟩]
      position := s.position + 2 } := by
  rw [run_two_requests hrem (decode_encode_falling_edge now) (decode_encode_tick now) (decide_eq_true hw)
    (decide_eq_true hw) (exec_falling_edge_of_room hs hr hseen hordered hroom)
    (exec_tick_of_not_due hs hr (not_flushDue_of_le (Nat.le_add_right ..))), List.append_cons s.responses]
  rfl

/-- Settles O47: the two orders are the two runs, and an interval longer than the idle window is above the hardware's
bands. -/
theorem tickAndEdgeTieBothOrders : Obligations.TickAndEdgeTieBothOrders := by
  intro s now tick edge p after hs hr hseen hpending hwidths hroom hw hquiet htick hedge hp hafter
  subst htick hedge hp hafter
  have hcap : 1 ≤ s.cfg.pendingCap := by omega
  have hordered : s.lastEdgeTime.toNat ≤ now.toNat := by omega
  refine ⟨run_tick_then_falling_edge rfl hs hr hseen hpending hcap hw hquiet,
    run_falling_edge_then_tick rfl hs hr hseen hroom hw hordered,
    fun hhw => classifyCategory_of_preHi_le (hhw ▸ by decide) ?_⟩
  have hlimit : s.cfg.preHi ≤ s.cfg.idleNs := hhw ▸ by decide
  rw [BitVec.toNat_ofNat, Nat.mod_eq_of_lt (by omega)]
  omega

end Machine

end Sys2Proof

/-! PROOFS. The request interface: decoding and encoding are inverse (R70 to R77), and the opcode table's patterns are the
header checks (R77, R78). -/

namespace Sys2Proof

/-! ### The headers that pass the checks (R78) -/

/-- A header that the encoder makes passes the checks. -/
theorem checkHeader_mkHeader {op : Opcode} {e : Bool} {n : Nat} (he : op ≠ .edge → e = false)
    (hn : op.isVector = false → n = 0) : checkHeader (mkHeader op e n) = none := by
  refine checkHeader_none.2 (.inr ⟨rsv_mkHeader op e n, fun hop => ?_, fun hv => ?_⟩)
  · rw [opcode_mkHeader] at hop
    rw [e_mkHeader, he hop]
  · rw [opcode_mkHeader] at hv
    rw [n_mkHeader, hn hv]

/-- A header of another opcode than 0xF that passes the checks is the one the encoder makes of its fields. -/
theorem mkHeader_of_checkHeader {h : Header} {op : Opcode} (hcheck : checkHeader h = none) (hop : Header.opcode h = op)
    (hres : op ≠ .reserved) : mkHeader op (Header.e h) (Header.n h).toNat = h ∧
      (op ≠ .edge → Header.e h = false) ∧ (op.isVector = false → Header.n h = 0#16) := by
  subst hop
  rcases checkHeader_none.1 hcheck with h0 | ⟨hrsv, he, hn⟩
  · exact absurd h0 hres
  · exact ⟨mkHeader_fields h hrsv, he, hn⟩

/-- A header without `e` and `n` that passes the checks is its opcode's one header. -/
theorem mkHeader_of_plain {h : Header} {op : Opcode} (hcheck : checkHeader h = none) (hop : Header.opcode h = op)
    (hplain : op ≠ .reserved ∧ op ≠ .edge ∧ op.isVector = false) : mkHeader op false 0 = h := by
  obtain ⟨hres, hedge, hv⟩ := hplain
  obtain ⟨hfields, he, hn⟩ := mkHeader_of_checkHeader hcheck hop hres
  rwa [he hedge, hn hv] at hfields

/-- A vector header that passes the checks is its opcode and its count. -/
theorem mkHeader_of_vector {h : Header} {op : Opcode} (hcheck : checkHeader h = none) (hop : Header.opcode h = op)
    (hv : op.isVector = true) : mkHeader op false (Header.n h).toNat = h := by
  obtain ⟨hfields, he, -⟩ := mkHeader_of_checkHeader hcheck hop (by rintro rfl; cases hv)
  rwa [he (by rintro rfl; cases hv)] at hfields

/-- A header of EDGE that passes the checks is its bit `e`. -/
theorem mkHeader_of_edge {h : Header} (hcheck : checkHeader h = none) (hop : Header.opcode h = .edge) :
    mkHeader .edge (Header.e h) 0 = h := by
  obtain ⟨hfields, -, hn⟩ := mkHeader_of_checkHeader hcheck hop (by decide)
  rwa [hn rfl] at hfields

/-- A header is its opcode and the bits above it (R71). -/
theorem rest_append_op (h : Header) : Header.rest h ++ Header.op h = h := by
  rw [Header.rest, Header.op, BitVec.extractLsb'_append_extractLsb'_eq_extractLsb' (show 4 = 0 + 4 from rfl)]
  exact BitVec.extractLsb'_eq_self

namespace Machine

/-! ### Decoding inverts encoding -/

/-- The encoding of a vector instruction is read as its pulses (R72, R73, R79). -/
theorem decode_encode_vector {op : Opcode} {k : List Pulse → Instr} {pv : List Pulse} (hv : op.isVector = true)
    (hread : ∀ h b, Header.opcode h = op → decodeOperands h b = b.expectPulses (Header.n h).toNat k)
    (hlen : pv.length ≤ 65535) :
    decode ⟨mkHeader op false pv.length, .pulses (pv.map Pulse.toFormatP)⟩ = .ok (k pv) := by
  refine decode_pulses (checkHeader_mkHeader (fun _ => rfl) (by simp [hv])) (fun b => hread _ b (opcode_mkHeader ..)) ?_
  rw [n_mkHeader, BitVec.toNat_ofNat, Nat.mod_eq_of_lt (by omega)]

/-- The encoding of a reserved instruction is read as the bits above the opcode and the operands (R80). -/
theorem decode_encode_reserved (rest : BitVec 28) (b : Bundle) :
    decode (encode (.reserved rest b)) = .ok (.reserved rest b) := by
  have hrest : Header.rest (rest ++ Opcode.reserved.code) = rest := BitVec.extractLsb'_append_eq_left
  rw [decode_of_opcode_reserved (Laws.HeaderOpcode.reserved rest b)]
  exact congrArg (fun v => Except.ok (Instr.reserved v b)) hrest

/-- Settles O6: a vector operand has the length its header counts, the reserved opcode keeps all its bits, and every other
header is a closed word. -/
theorem decodeInvertsEncode : Obligations.DecodeInvertsEncode := by
  intro i hwf
  cases i with
  | p2b pv | validate pv | checksum pv | f2r pv =>
    exact decode_encode_vector rfl (fun h b hop => by simp only [decodeOperands, hop]) (of_decide_eq_true hwf)
  | reserved rest b => exact decode_encode_reserved rest b
  | edge e ts => cases e <;> exact decode_of_checkHeader (by decide) rfl
  | status | classify | b2p | encode | decode | assemble | timing | tick | abort | lineFault =>
    exact decode_of_checkHeader (by decide) rfl

/-! ### Encoding inverts decoding -/

/-- The pulses of a vector operand, read and written again, are the operand, and their number fits its header (R79). -/
theorem encode_decode_vector {h : Header} {op : Opcode} {pv : List FormatP} (hcheck : checkHeader h = none)
    (hop : Header.opcode h = op) (hv : op.isVector = true) (hlen : pv.length = (Header.n h).toNat) :
    (pv.map FormatP.toPulse).length ≤ 65535 ∧
      (⟨mkHeader op false (pv.map FormatP.toPulse).length,
        .pulses ((pv.map FormatP.toPulse).map Pulse.toFormatP)⟩ : Request) = ⟨h, .pulses pv⟩ := by
  have hmax := (Header.n h).isLt
  have hpulses : (pv.map FormatP.toPulse).map Pulse.toFormatP = pv := by simp [Function.comp_def]
  rw [hpulses, List.length_map, hlen, mkHeader_of_vector hcheck hop hv]
  exact ⟨by omega, rfl⟩

/-- Settles O7: a header that passes the checks is the one the encoder makes of the fields that the decoder reads. -/
theorem encodeInvertsDecode : Obligations.EncodeInvertsDecode := by
  rintro ⟨h, b⟩ i hd
  obtain ⟨hcheck, hoperands⟩ : checkHeader h = none ∧ decodeOperands h b = .ok i := decode_ok.1 hd
  cases hop : Header.opcode h <;> simp only [decodeOperands, hop] at hoperands
  case status | abort | lineFault =>
    obtain ⟨rfl, rfl⟩ := expectNone_ok.1 hoperands
    exact ⟨rfl, congrArg (Request.mk · _) (mkHeader_of_plain hcheck hop (by decide))⟩
  case classify | tick =>
    obtain ⟨_, rfl, rfl⟩ := expectNanos_ok.1 hoperands
    exact ⟨rfl, congrArg (Request.mk · _) (mkHeader_of_plain hcheck hop (by decide))⟩
  case b2p =>
    obtain ⟨_, rfl, rfl⟩ := expectByte_ok.1 hoperands
    exact ⟨rfl, congrArg (Request.mk · _) (mkHeader_of_plain hcheck hop (by decide))⟩
  case encode =>
    obtain ⟨_, rfl, rfl⟩ := expectCommand_ok.1 hoperands
    exact ⟨rfl, congrArg (Request.mk · _) (mkHeader_of_plain hcheck hop (by decide))⟩
  case decode | assemble | timing =>
    obtain ⟨_, rfl, rfl⟩ := expectRecord_ok.1 hoperands
    exact ⟨rfl, congrArg (Request.mk · _) (mkHeader_of_plain hcheck hop (by decide))⟩
  case edge =>
    obtain ⟨_, rfl, rfl⟩ := expectNanos_ok.1 hoperands
    rw [encode, edgeType_bit_ofBit]
    exact ⟨rfl, congrArg (Request.mk · _) (mkHeader_of_edge hcheck hop)⟩
  case p2b | validate | checksum | f2r =>
    obtain ⟨_, rfl, hlen, rfl⟩ := expectPulses_ok.1 hoperands
    obtain ⟨hmax, hencode⟩ := encode_decode_vector hcheck hop rfl hlen
    exact ⟨decide_eq_true hmax, hencode⟩
  case reserved =>
    obtain rfl : i = .reserved (Header.rest h) b := (Except.ok.inj hoperands).symm
    have hcode : Header.op h = Opcode.reserved.code := header_opcode_eq_iff.1 hop
    exact ⟨rfl, congrArg (Request.mk · b) (hcode ▸ rest_append_op h)⟩

/-! ### The opcode table (R77, R78) -/

/-- Two headers are equal exactly when their four fields are (R71). -/
theorem header_eq_iff (g h : Header) : g = h ↔
    Header.op g = Header.op h ∧ Header.rsv g = Header.rsv h ∧ Header.e g = Header.e h ∧ Header.n g = Header.n h := by
  refine ⟨by rintro rfl; exact ⟨rfl, rfl, rfl, rfl⟩, fun ⟨hop, hrsv, he, hn⟩ => BitVec.eq_of_getLsbD_eq fun i hi => ?_⟩
  have hfield : ∀ {k w : Nat}, (g.extractLsb' k w : BitVec w) = h.extractLsb' k w → k ≤ i → i < k + w →
      g.getLsbD i = h.getLsbD i := fun {k w} hkw hk hw => by
    have hbit := congrArg (BitVec.getLsbD · (i - k)) hkw
    simpa [show i - k < w by omega, Nat.add_sub_cancel' hk] using hbit
  obtain h4 | rfl | h16 | h32 : i < 4 ∨ i = 4 ∨ (5 ≤ i ∧ i < 16) ∨ 16 ≤ i := by omega
  · exact hfield hop (by omega) (by omega)
  · exact he
  · exact hfield hrsv (by omega) (by omega)
  · exact hfield hn (by omega) (by omega)

@[simp] theorem op_and (g h : Header) : Header.op (g &&& h) = Header.op g &&& Header.op h := BitVec.extractLsb'_and
@[simp] theorem e_and (g h : Header) : Header.e (g &&& h) = (Header.e g && Header.e h) := BitVec.getLsbD_and
@[simp] theorem rsv_and (g h : Header) : Header.rsv (g &&& h) = Header.rsv g &&& Header.rsv h := BitVec.extractLsb'_and
@[simp] theorem n_and (g h : Header) : Header.n (g &&& h) = Header.n g &&& Header.n h := BitVec.extractLsb'_and

/-- What a row asks of the fields: its opcode, and unless that is 0xF no reserved bit, `e` only in EDGE and `n` only in
the vector opcodes (R78). -/
theorem opcodeTable_fields : ∀ row ∈ opcodeTable,
    (Header.op row.mask = 0xF#4 ∧ Header.op row.pattern = row.opcode.code) ∧
    (Header.e row.mask = (row.opcode != .reserved && row.opcode != .edge) ∧ Header.e row.pattern = false) ∧
    (Header.rsv row.mask = (if row.opcode = .reserved then 0#11 else 0x7FF#11) ∧ Header.rsv row.pattern = 0#11) ∧
    (Header.n row.mask = (if row.opcode = .reserved ∨ row.opcode.isVector = true then 0#16 else 0xFFFF#16) ∧
      Header.n row.pattern = 0#16) := by
  decide

/-- A header has a row's mask and pattern exactly when it passes the checks with the row's opcode (R78). -/
theorem and_mask_eq_pattern_iff (h : Header) {row : OpcodeRow} (hrow : row ∈ opcodeTable) :
    h &&& row.mask = row.pattern ↔ checkHeader h = none ∧ Header.opcode h = row.opcode := by
  obtain ⟨⟨hopM, hopP⟩, ⟨heM, heP⟩, ⟨hrsvM, hrsvP⟩, hnM, hnP⟩ := opcodeTable_fields row hrow
  have hop : Header.op h &&& 0xF#4 = Header.op h := BitVec.and_allOnes
  have hrsv : Header.rsv h &&& 0x7FF#11 = Header.rsv h := BitVec.and_allOnes
  have hn : Header.n h &&& 0xFFFF#16 = Header.n h := BitVec.and_allOnes
  rw [header_eq_iff, op_and, rsv_and, e_and, n_and, hopM, hopP, hrsvM, hrsvP, heM, heP, hnM, hnP, hop,
    ← header_opcode_eq_iff, checkHeader_none, and_comm]
  refine and_congr_left fun hopcode => ?_
  rw [hopcode]
  cases row.opcode <;> simp [Opcode.isVector, hrsv, hn]

/-- Settles O8: a row's mask and pattern are the header checks, field by field; the opcode tells the rows apart. -/
theorem legalHeadersAreTheTables : Obligations.LegalHeadersAreTheTables := by
  have hfirst : ∀ (h : Header) (row : OpcodeRow), row ∈ opcodeTable →
      (h &&& row.mask = row.pattern ↔ checkHeader h = none ∧ (h.extractLsb' 0 4 : BitVec 4) = row.opcode.code) :=
    fun h row hrow => (and_mask_eq_pattern_iff h hrow).trans (and_congr_right fun _ => header_opcode_eq_iff)
  have hopcodes : opcodeTable.Pairwise (fun a b => a.opcode ≠ b.opcode) := by decide
  refine ⟨hfirst, hopcodes.imp_of_mem fun {a b} ha hb hne h hboth => hne ?_⟩
  exact ((and_mask_eq_pattern_iff h ha).1 hboth.1).2.symm.trans ((and_mask_eq_pattern_iff h hb).1 hboth.2).2

end Machine
end Sys2Proof

/-! PROOFS. What a step does with a request, whether it decodes or not (R83, R226; logs 1 to 3, 11, 14), and what an
agent's turn does (R20, R231, R233, R234; logs 5, 6, 12, 18). -/

namespace Sys2Proof

/-! ### Operand bundles (R72) -/

/-- A bundle of the header's shape is read as an instruction; a bundle of another shape is rejected as such. -/
theorem decodeOperands_cases (h : Header) (b : Bundle) :
    (b.fits (Header.opcode h) (Header.n h).toNat = true ∧ ∃ i, decodeOperands h b = .ok i) ∨
      (b.fits (Header.opcode h) (Header.n h).toNat = false ∧ decodeOperands h b = .error .bundleShape) := by
  cases hop : Header.opcode h
  case p2b | validate | checksum | f2r =>
    cases b with
    | pulses pv => by_cases hlen : pv.length = (Header.n h).toNat <;>
        simp [decodeOperands, hop, Bundle.fits, Bundle.expectPulses, hlen]
    | _ => simp [decodeOperands, hop, Bundle.fits, Bundle.expectPulses]
  case status | abort | lineFault => cases b <;> simp [decodeOperands, hop, Bundle.fits, Bundle.expectNone]
  case classify | edge | tick => cases b <;> simp [decodeOperands, hop, Bundle.fits, Bundle.expectNanos]
  case b2p => cases b <;> simp [decodeOperands, hop, Bundle.fits, Bundle.expectByte]
  case encode => cases b <;> simp [decodeOperands, hop, Bundle.fits, Bundle.expectCommand]
  case decode | assemble | timing => cases b <;> simp [decodeOperands, hop, Bundle.fits, Bundle.expectRecord]
  case reserved => cases b <;> simp [decodeOperands, hop, Bundle.fits]

/-- A legal header with a bundle of its shape decodes. -/
theorem decode_of_fits {r : Request} (hcheck : checkHeader r.header = none)
    (hfits : r.operands.fits (Header.opcode r.header) (Header.n r.header).toNat = true) : ∃ i, decode r = .ok i := by
  rcases decodeOperands_cases r.header r.operands with ⟨-, i, hi⟩ | ⟨hnot, -⟩
  · exact ⟨i, decode_ok.2 ⟨hcheck, hi⟩⟩
  · simp [hfits] at hnot

/-- A legal header with a bundle of another shape is rejected for its shape (log 3). -/
theorem decode_of_not_fits {r : Request} (hcheck : checkHeader r.header = none)
    (hfits : r.operands.fits (Header.opcode r.header) (Header.n r.header).toNat = false) :
    decode r = .error .bundleShape := by
  rcases decodeOperands_cases r.header r.operands with ⟨hfit, -⟩ | ⟨-, hi⟩
  · simp [hfits] at hfit
  · simp [decode, hcheck, hi]

/-- The header checks reject for the header, never for the operands (R83). -/
theorem checkHeader_ne_bundleShape (h : Header) : checkHeader h ≠ some .bundleShape := by
  unfold checkHeader
  repeat' split
  all_goals simp

/-- A header with no bit set is STATUS's (R77). -/
theorem decode_of_zero_header {r : Request} {i : Instr} (h : decode r = .ok i) : r.header = 0#32 ↔ i = .status := by
  obtain ⟨-, rfl⟩ := Machine.encodeInvertsDecode r i h
  constructor
  · intro hzero
    have hop : i.opcode = .status := (opcode_of_decode h).trans (by rw [hzero]; rfl)
    cases i <;> first | rfl | cases hop
  · rintro rfl
    rfl

/-! ### Words of the opcode table (log 2) -/

/-- The operand bundle of an opcode-table word holds no time but 0. -/
theorem zeroBundle_nanos {h : Header} {t : Nanos} (hz : zeroBundle h = .nanos t) : t = 0#64 := by
  unfold zeroBundle at hz
  split at hz <;> cases hz <;> rfl

/-- The pulses of an opcode-table word have duration 0. -/
theorem zeroBundle_pulses {h : Header} {pv : List FormatP} (hz : zeroBundle h = .pulses pv) :
    ∀ p ∈ pv, p.dur = 0#64 := by
  unfold zeroBundle at hz
  split at hz <;> cases hz
  all_goals exact fun p hp => congrArg FormatP.dur (List.eq_of_mem_replicate hp)

/-- An instruction of an opcode-table word fits every width of times. -/
theorem inWidth_of_decodeTableWord {nbits w : Nat} {i : Instr} (h : decode (tableRequest nbits w) = .ok i)
    (c : Config) : i.inWidth c = true := by
  obtain ⟨-, hencode⟩ := Machine.encodeInvertsDecode _ i h
  have hbundle : (encode i).operands = zeroBundle (tableRequest nbits w).header := congrArg Request.operands hencode
  have hpulses : ∀ pv : List Pulse, zeroBundle (tableRequest nbits w).header = .pulses (pv.map Pulse.toFormatP) →
      (pv.all fun p => decide (p.dur.toNat < 2 ^ c.tsWidth)) = true := fun pv hz =>
    List.all_eq_true.2 fun p hp => by
      have hdur : p.dur = 0#64 := zeroBundle_pulses hz _ (List.mem_map_of_mem hp)
      rw [hdur]
      exact decide_eq_true (Nat.two_pow_pos _)
  have htime : ∀ t, zeroBundle (tableRequest nbits w).header = .nanos t → decide (t.toNat < 2 ^ c.tsWidth) = true :=
    fun t hz => by
      rw [zeroBundle_nanos hz]
      exact decide_eq_true (Nat.two_pow_pos _)
  cases i with
  | p2b pv | validate pv | checksum pv | f2r pv => exact hpulses pv hbundle.symm
  | classify t | edge _ t | tick t => exact htime t hbundle.symm
  | status | b2p | encode | decode | assemble | timing | abort | lineFault | reserved => rfl

namespace Machine

/-! ### Serving a request (R83) -/

/-- While faulted the all-zero header is served as STATUS (R83, R226; log 11). -/
theorem serve_of_faulted_status {r : Request} {s : State} (hs : s.faultCause ≠ 0#4) (hr : r.header = 0#32) :
    serve r s = .next (s.respond .ok (.word s.statusWord)) := by
  have hreject : ∀ e, rejectRequest e r s = execStatus s := fun e =>
    (if_pos ((faulted_iff s).2 hs)).trans (if_pos hr)
  cases hd : decode r with
  | error e => exact (serve_of_error hd).trans (hreject e)
  | ok i =>
    obtain rfl := (decode_of_zero_header hd).1 hr
    exact serve_of_decode hd rfl

/-- While faulted every other request answers FAULTED (R83, R226; log 11). -/
theorem serve_of_faulted {r : Request} {s : State} (hs : s.faultCause ≠ 0#4) (hr : r.header ≠ 0#32) :
    serve r s = .next (s.respond .faulted .none) := by
  have hreject : ∀ e, rejectRequest e r s = .next (s.respond .faulted .none) := fun e =>
    (if_pos ((faulted_iff s).2 hs)).trans (if_neg hr)
  cases hd : decode r with
  | error e => exact (serve_of_error hd).trans (hreject e)
  | ok i =>
    cases hw : i.inWidth s.cfg with
    | true => exact (serve_of_decode hd hw).trans (exec_of_faulted hs (mt (decode_of_zero_header hd).2 hr))
    | false => exact (serve_of_wide hd hw).trans (hreject _)

/-- A healthy block raises ILLEGAL_ENCODING on a header that breaks the checks (R83). -/
theorem serve_of_illegal_header {r : Request} {s : State} (hs : s.faultCause = 0#4) (hcheck : checkHeader r.header ≠ none) :
    serve r s = .next { s with
      faultCause := 2#4
      faultOp := Header.op r.header
      responses := s.responses ++ [⟨.faulted, .none⟩] } := by
  obtain ⟨e, he⟩ := Option.ne_none_iff_exists'.1 hcheck
  have hd : decode r = .error e := by simp [decode, he]
  have hhealthy : ¬ s.faulted = true := by simp [(not_faulted_iff s).2 hs]
  have hraise : serve r s = .next (s.raise .illegalEncoding (Header.opcode r.header)) := by
    rw [serve_of_error hd]
    cases e with
    | bundleShape => exact absurd he (checkHeader_ne_bundleShape _)
    | reservedBits | edgeBit | countBits => exact if_neg hhealthy
  rw [hraise, State.raise, Header.opcode, opcode_code_ofCode]
  rfl

/-- A healthy block stops on a request rejected for its bundle (log 3). -/
theorem rejectRequest_bundleShape_of_healthy (r : Request) {s : State} (hs : s.faultCause = 0#4) :
    rejectRequest .bundleShape r s = .fault .bundleShape :=
  if_neg (by simp [(not_faulted_iff s).2 hs])

/-- A healthy block stops on a bundle of another shape or width than a legal header selects (log 3). -/
theorem serve_of_bundleShape {r : Request} {s : State} (hs : s.faultCause = 0#4) (hcheck : checkHeader r.header = none)
    (hbundle : r.operands.fits (Header.opcode r.header) (Header.n r.header).toNat = false ∨
      ∃ i, decode r = .ok i ∧ i.inWidth s.cfg = false) : serve r s = .fault .bundleShape := by
  rcases hbundle with hshape | ⟨i, hd, hw⟩
  · exact (serve_of_error (decode_of_not_fits hcheck hshape)).trans (rejectRequest_bundleShape_of_healthy r hs)
  · exact (serve_of_wide hd hw).trans (rejectRequest_bundleShape_of_healthy r hs)

/-- Settles O11: the step is that of serving the request at the next place. -/
theorem bundleOfAnotherShapeStops : Obligations.BundleOfAnotherShapeStops :=
  fun _ _ _ hrem hs hcheck hbundle => (step_cons hrem).trans (serve_of_bundleShape hs hcheck hbundle)

/-- Settles O1: the request comes next in the stream, and a table word's operands fit every width. -/
theorem stepRunsDecodedInstruction : Obligations.StepRunsDecodedInstruction := by
  refine ⟨fun s r rest i hrem hd hw => step_of_request hrem hd hw, ?_⟩
  rintro s u nbits w i rfl hi
  have hd : decode (tableRequest nbits w) = .ok i := by
    unfold decodeTableWord at hi
    cases hdec : decode (tableRequest nbits w) with
    | error e => rw [hdec] at hi; cases hi
    | ok j => rw [hdec] at hi; cases hi; rfl
  have hrem := withFetchWord_remaining s nbits w
  exact ⟨step_of_request hrem hd (inWidth_of_decodeTableWord hd _), remaining_advance hrem, rfl⟩

/-- Settles O2: by induction on the number of steps, each of which holds the state. -/
theorem idleBlockHoldsState : Obligations.IdleBlockHoldsState := by
  intro s k hrem
  induction k with
  | zero => rfl
  | succ k ih => rw [run_succ_of_step k (step_nil hrem), ih]

/-! ### R83's order of checks -/

/-- The vector opcodes by their codes (R71). -/
theorem isVector_opcode_eq_false_iff (h : Header) : (Header.opcode h).isVector = false ↔
    Header.op h ≠ 0x2#4 ∧ Header.op h ≠ 0x8#4 ∧ Header.op h ≠ 0x9#4 ∧ Header.op h ≠ 0xA#4 := by
  rw [Header.opcode]
  generalize Header.op h = c
  revert c
  decide

/-- A header is all zero exactly when its opcode and the bits above it are (R71). -/
theorem header_eq_zero_iff (h : Header) : h = 0#32 ↔ Header.op h = 0x0#4 ∧ Header.rest h = 0#28 := by
  constructor
  · rintro rfl
    exact ⟨rfl, rfl⟩
  · rintro ⟨hop, hrest⟩
    rw [← rest_append_op h, hop, hrest]
    rfl

/-- The header checks by the codes of the fields, for another opcode than 0xF (R78). -/
theorem checkHeader_none_iff_fields {h : Header} (hres : Header.op h ≠ 0xF#4) : checkHeader h = none ↔
    Header.rsv h = 0#11 ∧ (Header.op h ≠ 0xB#4 → Header.e h = false) ∧
      (Header.op h ≠ 0x2#4 ∧ Header.op h ≠ 0x8#4 ∧ Header.op h ≠ 0x9#4 ∧ Header.op h ≠ 0xA#4 → Header.n h = 0#16) := by
  have hopcode : Header.opcode h ≠ .reserved := mt header_opcode_eq_iff.1 hres
  rw [checkHeader_none, or_iff_right hopcode, ← isVector_opcode_eq_false_iff, Ne, header_opcode_eq_iff]
  rfl

/-- Settles O10: each clause is what serving the request does in its case. -/
theorem requestChecksInOrder : Obligations.RequestChecksInOrder := by
  rintro s t r rest op hrem rfl rfl
  have hstep : step s = serve r s.advance := step_cons hrem
  refine ⟨fun hs hop hrest => ?_, fun hs hnot => ?_, fun hs hop => ?_, fun hs hop hbad => ?_,
    fun hs hop hrsv he hn hfits => ?_⟩
  · exact hstep.trans (serve_of_faulted_status hs ((header_eq_zero_iff _).2 ⟨hop, hrest⟩))
  · exact hstep.trans (serve_of_faulted hs (mt (header_eq_zero_iff _).1 hnot))
  · have hd := decode_of_opcode_reserved (header_opcode_eq_iff.2 hop)
    rw [hstep, serve_of_decode hd rfl, exec_reserved_of_healthy _ _ hs, hop]
    rfl
  · have hcheck : checkHeader r.header ≠ none := fun hnone => by
      obtain ⟨hrsv, he, hn⟩ := (checkHeader_none_iff_fields hop).1 hnone
      rcases hbad with hbad | ⟨hedge, hbad⟩ | ⟨h2, h8, h9, hA, hbad⟩
      · exact hbad hrsv
      · exact absurd ((he hedge).symm.trans hbad) (by decide)
      · exact hbad (hn ⟨h2, h8, h9, hA⟩)
    exact hstep.trans (serve_of_illegal_header hs hcheck)
  · have hcheck : checkHeader r.header = none :=
      (checkHeader_none_iff_fields hop).2 ⟨hrsv, he, fun ⟨h2, h8, h9, hA⟩ => hn h2 h8 h9 hA⟩
    obtain ⟨i, hd⟩ := decode_of_fits hcheck hfits
    exact ⟨i, hd, (congrArg Opcode.code (opcode_of_decode hd)).trans (opcode_code_ofCode _),
      fun hw => hstep.trans (serve_of_decode hd hw),
      fun hw => hstep.trans (serve_of_bundleShape hs hcheck (.inr ⟨i, hd, hw⟩))⟩

/-! ### One response per request (R70, R84, R85) -/

@[simp] theorem processEdge_responses (s : State) (e : EdgeType) (ts : Nanos) :
    (s.processEdge e ts).responses = s.responses := by
  rcases processEdge_cases s e ts with ⟨_, _, h⟩ | ⟨_, h⟩ <;> simp [h]

/-- Every instruction completes. -/
theorem exec_completes (i : Instr) (s : State) : ∃ t, exec i s = .next t := by
  cases i <;> exact ⟨_, rfl⟩

/-- An instruction responds once, and a response whose status is not OK has no result (R70, R85). -/
theorem exec_responds_once {i : Instr} {s t : State} (h : exec i s = .next t) :
    ∃ resp : Response, t.responses = s.responses ++ [resp] ∧ (resp.status ≠ .ok → resp.result = .none) := by
  rcases exec_cases h with ⟨st, r, rfl, hr⟩ | ⟨_, _, _, rfl⟩ | ⟨_, _, _, _, _, _, rfl⟩ |
    ⟨_, _, _, _, _, rfl⟩ | ⟨_, _, _, rfl⟩ | ⟨_, _, _, rfl⟩
  · exact ⟨⟨st, r⟩, rfl, hr⟩
  · exact ⟨⟨.faulted, .none⟩, rfl, fun _ => rfl⟩
  all_goals exact ⟨⟨.ok, .none⟩, by simp, fun _ => rfl⟩

/-- Settles O12: every instruction has a next state, and it has one response more. -/
theorem oneResponsePerRequest : Obligations.OneResponsePerRequest := by
  intro i s
  obtain ⟨t, ht⟩ := exec_completes i s
  obtain ⟨resp, hresp, hresult⟩ := exec_responds_once ht
  exact ⟨t, resp, ht, hresp, hresult⟩

/-! ### The agents' turns (R20, R231, R233, R234) -/

/-- A single request leaves the host nothing further to do (log 12). -/
@[simp] theorem continueHost_request (s : State) (r : Request) : s.continueHost (.request r) = s := by
  have hnext : ∀ resp, HostTask.next (.request r) resp = [] := fun _ => rfl
  unfold State.continueHost
  split <;> simp [hnext]

/-- A host with nothing to do passes its turn (log 14). -/
theorem hostTurn_of_no_task {s : State} (h : s.hostTasks = []) : hostTurn s = .next s := by
  simp [hostTurn, h]

/-- The host's turn at a task that issues a request serves it, reads its response and goes on (log 12). -/
theorem hostTurn_of_issue {s v : State} {task : HostTask} {more : List HostTask} {r : Request}
    (h : s.hostTasks = task :: more) (hr : task.issue = some r)
    (hv : serve r { s with hostTasks := more } = .next v) : hostTurn s = .next (v.continueHost task) := by
  simp [hostTurn, h, hr, hv]

/-- The host's turn at a request is serving it. -/
theorem hostTurn_of_request {s : State} {r : Request} {more : List HostTask} (h : s.hostTasks = .request r :: more) :
    hostTurn s = serve r { s with hostTasks := more } := by
  cases hv : serve r { s with hostTasks := more } with
  | next v => rw [hostTurn_of_issue h rfl hv, continueHost_request]
  | fault f => simp [hostTurn, h, HostTask.issue, hv]
  | refused f => simp [hostTurn, h, HostTask.issue, hv]

/-- The host's turn at the taking of a burst (R231; log 18). -/
theorem hostTurn_of_acceptBurst {s : State} {more : List HostTask} (h : s.hostTasks = .acceptBurst :: more) :
    hostTurn s = .next (s.takeBurst more) := by
  simp [hostTurn, h, HostTask.issue]

/-- An edge source with nothing to deliver passes its turn (log 14). -/
theorem edgeSourceTurn_of_no_event {s : State} (h : s.lineEvents = []) : edgeSourceTurn s = .next s := by
  simp [edgeSourceTurn, h]

/-- The edge source's turn is serving the request of its next event (R234). -/
theorem edgeSourceTurn_of_event {s : State} {v : LineEvent} {more : List LineEvent} (h : s.lineEvents = v :: more) :
    edgeSourceTurn s = serve v.issue { s with lineEvents := more } := by
  simp [edgeSourceTurn, h]

/-- A step at the edge source's turn serves its next event (R234). -/
theorem step_of_event {s : State} {rest : List Arrival} {v : LineEvent} {more : List LineEvent}
    (hrem : s.remaining = .edgeSource :: rest) (h : s.lineEvents = v :: more) :
    step s = serve v.issue { s.advance with lineEvents := more } :=
  (step_cons hrem).trans (edgeSourceTurn_of_event (s := s.advance) h)

/-- An instruction that is encoded decodes to itself (R70 to R77). -/
theorem decode_encode {i : Instr} (h : i.wf = true) : decode (encode i) = .ok i := decodeInvertsEncode i h

/-- The timer's turn issues TICK at its time, within TS_WIDTH bits (R233; log 5). -/
theorem timerTurn_of_fits {s : State} (h : s.timerNext < 2 ^ s.cfg.tsWidth) :
    timerTurn s = exec (.tick (BitVec.ofNat 64 s.timerNext)) { s with timerNext := s.timerNext + s.cfg.tickPeriodNs } := by
  have hw : (BitVec.ofNat 64 s.timerNext).toNat < 2 ^ s.cfg.tsWidth := Nat.lt_of_le_of_lt (Nat.mod_le _ _) h
  rw [timerTurn, if_neg (Nat.not_le.2 h)]
  exact serve_of_decode (decode_encode rfl) (decide_eq_true hw)

/-- A step at the timer's turn runs TICK at the timer's time (R233; log 5). -/
theorem step_of_timer {s : State} {rest : List Arrival} (hrem : s.remaining = .timer :: rest)
    (h : s.timerNext < 2 ^ s.cfg.tsWidth) : step s = exec (.tick (BitVec.ofNat 64 s.timerNext))
      { s.advance with timerNext := s.timerNext + s.cfg.tickPeriodNs } :=
  (step_cons hrem).trans (timerTurn_of_fits (s := s.advance) h)

/-- Settles O3: each agent's turn at each thing it can have to issue. -/
theorem agentsIssueTheirRequests : Obligations.AgentsIssueTheirRequests := by
  intro s rest
  refine ⟨fun hrem => ⟨fun hnone => ?_, fun e ts more hev hw => ?_, fun e ts more hev hw hs => ?_, fun more hev => ?_⟩,
    fun hrem => ⟨fun hw => ?_, fun hw => ?_⟩, fun hrem => ⟨fun hnone => ?_, ?_⟩⟩
  · exact (step_cons hrem).trans (edgeSourceTurn_of_no_event hnone)
  · exact (step_of_event hrem hev).trans (serve_of_decode (decode_encode rfl) (decide_eq_true hw))
  · have hwide : (Instr.edge e ts).inWidth s.cfg = false := decide_eq_false (Nat.not_lt.2 hw)
    have hcheck : checkHeader (encode (.edge e ts)).header = none := (decode_ok.1 (decode_encode rfl)).1
    exact (step_of_event hrem hev).trans (serve_of_bundleShape hs hcheck (.inr ⟨_, decode_encode rfl, hwide⟩))
  · exact (step_of_event hrem hev).trans (serve_of_decode (decode_encode (i := .lineFault) rfl) rfl)
  · exact step_of_timer hrem hw
  · exact (step_cons hrem).trans (if_pos hw)
  · exact (step_cons hrem).trans (hostTurn_of_no_task hnone)
  · rintro r more u htasks rfl
    have hstep : step s = serve r { s.advance with hostTasks := more } :=
      (step_cons hrem).trans (hostTurn_of_request htasks)
    refine ⟨fun i hd hw => hstep.trans (serve_of_decode hd hw), fun hs hcheck => ?_, fun hs hcheck hbundle => ?_,
      fun hs hr => hstep.trans (serve_of_faulted_status hs hr), fun hs hr => hstep.trans (serve_of_faulted hs hr)⟩
    · exact hstep.trans (serve_of_illegal_header hs hcheck)
    · exact hstep.trans (serve_of_bundleShape hs hcheck hbundle)

/-! ### The host's taking of bursts (R20(b), R231) -/

@[simp] theorem processEdge_burstsTaken (s : State) (e : EdgeType) (ts : Nanos) :
    (s.processEdge e ts).burstsTaken = s.burstsTaken := by
  rcases processEdge_cases s e ts with ⟨_, _, h⟩ | ⟨_, h⟩ <;> simp [h]

/-- No instruction takes a burst. -/
theorem exec_keeps_burstsTaken {i : Instr} {s t : State} (h : exec i s = .next t) : t.burstsTaken = s.burstsTaken := by
  rcases exec_cases h with ⟨_, _, rfl, _⟩ | ⟨_, _, _, rfl⟩ | ⟨_, _, _, _, _, _, rfl⟩ |
    ⟨_, _, _, _, _, rfl⟩ | ⟨_, _, _, rfl⟩ | ⟨_, _, _, rfl⟩ <;> simp

/-- Serving a request takes no burst. -/
theorem serve_keeps_burstsTaken {r : Request} {s t : State} (h : serve r s = .next t) :
    t.burstsTaken = s.burstsTaken := by
  rcases serve_cases h with ⟨_, _, _, hi⟩ | ⟨_, _, rfl⟩ | ⟨_, rfl⟩ | ⟨_, _, rfl⟩
  · exact exec_keeps_burstsTaken hi
  all_goals rfl

/-- A host's turn that takes a burst has the taking of one as its next task. -/
theorem hostTurn_takes {s t : State} (h : hostTurn s = .next t) (hne : t.burstsTaken ≠ s.burstsTaken) :
    ∃ more, s.hostTasks = .acceptBurst :: more ∧ t.burstsTaken = s.burstsTaken + 1 ∧ t.burstsTaken ≤ s.out.length := by
  cases htasks : s.hostTasks with
  | nil =>
    rw [hostTurn_of_no_task htasks] at h
    cases h
    exact absurd rfl hne
  | cons task more =>
    cases hr : task.issue with
    | some r =>
      cases hv : serve r { s with hostTasks := more } with
      | next v =>
        rw [hostTurn_of_issue htasks hr hv] at h
        cases h
        exact absurd ((continueHost_burstsTaken v task).trans (serve_keeps_burstsTaken hv)) hne
      | fault f => simp [hostTurn, htasks, hr, hv] at h
      | refused f => simp [hostTurn, htasks, hr, hv] at h
    | none =>
      obtain rfl : task = .acceptBurst := by cases task <;> first | rfl | cases hr
      rw [hostTurn_of_acceptBurst htasks] at h
      cases h
      rcases takeBurst_cases s more with ⟨b, hb, htake⟩ | ⟨-, htake⟩
      · rw [htake]
        exact ⟨more, rfl, rfl, (List.getElem?_eq_some_iff.1 hb).1⟩
      · exact absurd (by rw [htake]) hne

/-- Settles O4: the host's turn is `takeBurst`, and of the other places none takes a burst. -/
theorem hostTakesBurstsInOrder : Obligations.HostTakesBurstsInOrder := by
  refine ⟨fun s rest more hrem htasks => ?_, fun s t h hne => ?_⟩
  · have hstep : step s = .next (s.advance.takeBurst more) :=
      (step_cons hrem).trans (hostTurn_of_acceptBurst htasks)
    refine ⟨fun b hb => ?_, fun hnone => ?_⟩
    · rcases takeBurst_cases s.advance more with ⟨c, hc, htake⟩ | ⟨hlen, -⟩
      · obtain rfl : b = c := Option.some.inj (hb.symm.trans hc)
        rw [hstep, htake]
        rfl
      · exact absurd (List.getElem?_eq_some_iff.1 hb).1 (Nat.not_lt.2 hlen)
    · rcases takeBurst_cases s.advance more with ⟨c, hc, -⟩ | ⟨-, htake⟩
      · exact absurd (List.getElem?_eq_some_iff.1 hc).1 (Nat.not_lt.2 hnone)
      · rw [hstep, htake]
  · cases hrem : s.remaining with
    | nil =>
      rw [step_nil hrem] at h
      cases h
      exact absurd rfl hne
    | cons a rest =>
      rw [step_cons hrem] at h
      cases a with
      | host =>
        obtain ⟨more, htasks, htaken, hle⟩ := hostTurn_takes h hne
        exact ⟨htaken, hle, rest, more, rfl, htasks⟩
      | request r => exact absurd (serve_keeps_burstsTaken h) hne
      | reset =>
        cases h
        exact absurd rfl hne
      | edgeSource =>
        cases hev : s.advance.lineEvents with
        | nil =>
          rw [arrive, edgeSourceTurn_of_no_event hev] at h
          cases h
          exact absurd rfl hne
        | cons v more =>
          rw [arrive, edgeSourceTurn_of_event hev] at h
          exact absurd (serve_keeps_burstsTaken h) hne
      | timer =>
        simp only [arrive, timerTurn] at h
        split at h
        · cases h
        · exact absurd (serve_keeps_burstsTaken h) hne

end Machine
end Sys2Proof

/-! PROOFS. Written words and lines (R77, R86), the configuration (R8, R138), and the classifier's bands (R101). -/

namespace Sys2Proof.Machine

/-- Settles O9: closed facts about seven requests, so they are evaluated. -/
theorem writtenWordsDecode : Obligations.WrittenWordsDecode := ⟨rfl, rfl, rfl, rfl, rfl, rfl, rfl⟩

/-- Settles O54: closed facts about seven lines, so they are evaluated. -/
theorem textLinesRead : Obligations.TextLinesRead := by
  unfold Obligations.TextLinesRead
  decide

/-- Settles O57: a closed fact about the default parameters, so it is evaluated. -/
theorem hardwareConfigurationIsAdmitted : Obligations.HardwareConfigurationIsAdmitted := by
  unfold Obligations.HardwareConfigurationIsAdmitted
  decide

/-- Settles O58: closed facts about the default parameters, so they are evaluated. -/
theorem hardwareParametersAreTheDefaults : Obligations.HardwareParametersAreTheDefaults := by
  unfold Obligations.HardwareParametersAreTheDefaults
  decide

/-! ### The bands (R8, R101) -/

/-- The bands lie one above the other, and none is empty (R8). -/
theorem bands_ordered {cfg : Config} (hb : cfg.bandsOk) :
    cfg.zeroLo < cfg.zeroHi ∧ cfg.zeroHi ≤ cfg.oneLo ∧ cfg.oneLo < cfg.oneHi ∧ cfg.oneHi ≤ cfg.preLo ∧
      cfg.preLo < cfg.preHi := by
  obtain ⟨_, _, ⟨_, _⟩, ⟨_, _⟩, ⟨_, _⟩⟩ := hb
  omega

/-- A duration below the Zero band, between the bands or above them is Invalid, and every other lies in one band (R101). -/
theorem classifyCategory_cases (cfg : Config) (d : Nat) :
    (cfg.zeroLo < d ∧ d < cfg.zeroHi ∧ classifyCategory cfg d = .zero) ∨
    (¬ (cfg.zeroLo < d ∧ d < cfg.zeroHi) ∧ cfg.oneLo < d ∧ d < cfg.oneHi ∧ classifyCategory cfg d = .one) ∨
    (¬ (cfg.zeroLo < d ∧ d < cfg.zeroHi) ∧ ¬ (cfg.oneLo < d ∧ d < cfg.oneHi) ∧ cfg.preLo < d ∧ d < cfg.preHi ∧
      classifyCategory cfg d = .preamble) ∨
    (¬ (cfg.zeroLo < d ∧ d < cfg.zeroHi) ∧ ¬ (cfg.oneLo < d ∧ d < cfg.oneHi) ∧ ¬ (cfg.preLo < d ∧ d < cfg.preHi) ∧
      classifyCategory cfg d = .invalid) := by
  unfold classifyCategory
  split
  · simp_all
  · split
    · simp_all
    · split <;> simp_all

/-- Settles O20: of the four cases of the classifier each fits one clause, because the bands lie one above the other. -/
theorem bandsAreDisjoint : Obligations.BandsAreDisjoint := by
  intro cfg d hb
  obtain ⟨h0, h1, h2, h3, h4⟩ := bands_ordered hb
  have hcat : (classify cfg d).cat = classifyCategory cfg d.toNat := rfl
  rw [hcat]
  rcases classifyCategory_cases cfg d.toNat with ⟨_, _, hc⟩ | ⟨_, _, _, hc⟩ | ⟨_, _, _, _, hc⟩ | ⟨_, _, _, hc⟩ <;>
    rw [hc] <;> simp only [reduceCtorEq, false_iff, true_iff] <;> omega

/-! ### Scenario A (R131) -/

end Sys2Proof.Machine

/-! PROOFS. Round trips: bytes and bit pulses (40_pulse_bit.md section 3), format L (R74), commands and records
(41_command_model.md section 2), frames and records (42_frame_codec.md sections 1 and 5). -/

namespace Sys2Proof

/-! ### Format L (R74) -/

theorem Mode.code_eq (m : Mode) : m.code = if m = .cool then 0#3 else if m = .heat then 1#3 else if m = .dry then 2#3
    else if m = .auto then 3#3 else 4#3 := by
  cases m <;> rfl

theorem Fan.code_eq (f : Fan) : f.code = if f = .auto then 0#2 else if f = .low then 1#2 else if f = .medium then 2#2
    else 3#2 := by
  cases f <;> rfl

@[simp] theorem Fan.code_ofCode (c : BitVec 2) : (Fan.ofCode c).code = c := by
  revert c; decide

theorem Mode.code_of_ofCode {c : BitVec 3} {m : Mode} (h : Mode.ofCode c = some m) : m.code = c := by
  revert c m; decide

/-- A command word is its five fields (R74). -/
theorem commandWord_fields (w : CommandWord) :
    w.extractLsb' 11 5 ++ w.extractLsb' 6 5 ++ w.extractLsb' 4 2 ++ w.extractLsb' 1 3 ++ BitVec.ofBool (w.getLsbD 0) = w := by
  have hpower : BitVec.ofBool (w.getLsbD 0) = w.extractLsb' 0 1 := BitVec.eq_of_getLsbD_eq fun i hi => by
    obtain rfl : i = 0 := by omega
    simp
  rw [hpower, BitVec.extractLsb'_append_extractLsb'_eq_extractLsb' (show 11 = 6 + 5 from rfl),
    BitVec.extractLsb'_append_extractLsb'_eq_extractLsb' (show 6 = 4 + 2 from rfl),
    BitVec.extractLsb'_append_extractLsb'_eq_extractLsb' (show 4 = 1 + 3 from rfl),
    BitVec.extractLsb'_append_extractLsb'_eq_extractLsb' (show 1 = 0 + 1 from rfl)]
  exact BitVec.extractLsb'_eq_self

/-- A word that is a command is the packed command (R74). -/
theorem packCommand_of_unpackCommand {w : CommandWord} {c : Command} (h : unpackCommand w = some c) :
    packCommand c = w := by
  unfold unpackCommand at h
  split at h
  · cases h
  · rename_i hrsv
    obtain ⟨m, hm, rfl⟩ := Option.map_eq_some_iff.1 h
    have hfields := commandWord_fields w
    rw [Classical.not_not.1 hrsv, ← Mode.code_of_ofCode hm] at hfields
    rw [packCommand, Fan.code_ofCode]
    exact hfields

namespace Machine

/-- Settles O24: the fields of a packed word, the two inverses, and the illegal words. -/
theorem commandWordFields : Obligations.CommandWordFields := by
  refine ⟨fun c => ⟨unpackCommand_packCommand c, packCommand_power c, ?_, ?_, packCommand_deg c, packCommand_reserved c⟩,
    fun w c h => packCommand_of_unpackCommand h, unpackCommand_eq_none_iff⟩
  · rw [packCommand_mode, Mode.code_eq]
  · rw [packCommand_fan, Fan.code_eq]

/-! ### Bytes and bit pulses (R101, R105, R107) -/

/-- Bit pulse `i` of an unpacked byte is its bit `7 - i`. -/
theorem byte_eq_of_bits {b c : Byte} (h : ∀ i, i < 8 → b.getLsbD (7 - i) = c.getLsbD (7 - i)) : b = c := by
  refine BitVec.eq_of_getLsbD_eq fun k hk => ?_
  have hbit := h (7 - k) (by omega)
  rwa [show 7 - (7 - k) = k by omega] at hbit

/-- Packing the pulses of an unpacked byte gives it back (R105, R107). -/
theorem packBits_b2p (cfg : Config) (b : Byte) : packBits (pulseBits (b2p cfg b)) = b := by
  refine byte_eq_of_bits fun i hi => Bool.eq_iff_iff.2 ?_
  rw [packBits_pulseBits_getLsbD (b2p_length cfg b) (b2p_getElem? cfg b hi), nominalPulse_cat]
  cases b.getLsbD (7 - i) <;> simp

/-- Unpacking a packed sequence of bit pulses gives its categories (R105, R107). -/
theorem b2p_packBits_cat (cfg : Config) {pv : List Pulse} (h : pv.length = 8) (hb : ∀ p ∈ pv, isBit p = true) :
    (b2p cfg (packBits (pulseBits pv))).map (·.cat) = pv.map (·.cat) := by
  refine List.ext_getElem? fun i => ?_
  by_cases hi : i < 8
  · have hp : pv[i]? = some pv[i] := List.getElem?_eq_getElem (by omega)
    have hbit := packBits_pulseBits_getLsbD h hp
    have hcat := (isBit_iff _).1 (hb pv[i] (List.getElem_mem _))
    rw [List.getElem?_map, List.getElem?_map, b2p_getElem? _ _ hi, hp, Option.map_some, Option.map_some, nominalPulse_cat]
    rcases hcat with hc | hc <;> simp [hbit, hc]
  · rw [List.getElem?_eq_none (by simp; omega), List.getElem?_eq_none (by simp; omega)]

/-- The bands lie within 64 bits (log 9). -/
theorem preHi_le_of_widthsOk {cfg : Config} (h : cfg.widthsOk) : cfg.preHi ≤ 2 ^ 64 := by
  obtain ⟨hts, -, hpre, -⟩ := h
  exact Nat.le_trans hpre (Nat.pow_le_pow_right (by decide) hts)

/-- Below the end of the last band are the nominal durations of the bits (R8). -/
theorem nominal_lt_of_preHi_le {cfg : Config} (hb : cfg.bandsOk) {m : Nat} (h : cfg.preHi ≤ m) :
    cfg.nomZeroUs * 1000 < m ∧ cfg.nomOneUs * 1000 < m := by
  obtain ⟨_, _, ⟨_, _⟩, ⟨_, _⟩, ⟨_, _⟩⟩ := hb
  omega

/-- A nominal pulse of an admitted configuration classifies as itself (R8, R101). -/
theorem classify_nominalPulse {cfg : Config} (hbands : cfg.bandsOk) (hwidths : cfg.widthsOk) (b : Bool) :
    classify cfg (nominalPulse cfg b).dur = nominalPulse cfg b := by
  obtain ⟨hzeroFits, honeFits⟩ := nominal_lt_of_preHi_le hbands (preHi_le_of_widthsOk hwidths)
  obtain ⟨-, -, hzeroBand, honeBand, -⟩ := id hbands
  obtain ⟨-, hzero, hone, -⟩ := bandsAreDisjoint cfg (nominalPulse cfg b).dur hbands
  have hcat : (classify cfg (nominalPulse cfg b).dur).cat = (nominalPulse cfg b).cat := by
    cases b with
    | false =>
      have hdur : (nominalPulse cfg false).dur.toNat = cfg.nomZeroUs * 1000 := Nat.mod_eq_of_lt hzeroFits
      exact hzero.2 (hdur ▸ hzeroBand)
    | true =>
      have hdur : (nominalPulse cfg true).dur.toNat = cfg.nomOneUs * 1000 := Nat.mod_eq_of_lt honeFits
      exact hone.2 (hdur ▸ honeBand)
  exact congrArg (Pulse.mk · _) hcat

/-- Settles O23: packing and unpacking are inverse bit by bit, and a nominal duration lies in its own band. -/
theorem bytesSurviveThePulses : Obligations.BytesSurviveThePulses := by
  intro cfg hbands hwidths
  refine ⟨fun b => ?_, fun pv hlen hbits => ?_, fun b p hp => ?_⟩
  · rw [p2b_of_isBit (b2p_length cfg b) (b2p_isBit cfg b), packBits_b2p]
  · have hb : ∀ p ∈ pv, isBit p = true := fun p hp => (isBit_iff p).2 (hbits p hp)
    exact ⟨_, p2b_of_isBit hlen hb, b2p_packBits_cat cfg hlen hb⟩
  · obtain ⟨i, -, rfl⟩ := List.mem_map.1 hp
    exact classify_nominalPulse hbands hwidths _

/-! ### Frames and records (R160, R169, R171) -/

/-- A record is its three bytes (R75). -/
theorem mkRecord_bytes (r : Record) : mkRecord (Record.flags r) (Record.fanAndState r) (Record.tempAndMode r) = r := by
  rw [mkRecord, Record.flags, Record.fanAndState, Record.tempAndMode,
    BitVec.extractLsb'_append_extractLsb'_eq_extractLsb' (show 16 = 8 + 8 from rfl),
    BitVec.extractLsb'_append_extractLsb'_eq_extractLsb' (show 8 = 0 + 8 from rfl)]
  exact BitVec.extractLsb'_eq_self

theorem record_eq_of_bytes {q r : Record} (h : Record.bytes q = Record.bytes r) : q = r := by
  obtain ⟨hflags, hfan, htemp⟩ : Record.flags q = Record.flags r ∧ Record.fanAndState q = Record.fanAndState r ∧
      Record.tempAndMode q = Record.tempAndMode r := by simpa only [Record.bytes, List.cons.injEq, and_true] using h
  rw [← mkRecord_bytes q, ← mkRecord_bytes r, hflags, hfan, htemp]

/-- The bytes of an assembled frame are the record's, each before its complement (R160). -/
theorem byteAt_assemble (cfg : Config) {r : Record} {j : Nat} {b : Byte} (hb : (Record.bytes r)[j]? = some b) :
    byteAt (assemble cfg r) (2 * j) = b ∧ byteAt (assemble cfg r) (2 * j + 1) = ~~~b := by
  have hj : j < 3 := (List.getElem?_eq_some_iff.1 hb).1
  have hlen := assemble_length cfg r
  constructor
  · refine byte_eq_of_bits fun i hi => ?_
    obtain ⟨hplain, -⟩ := assemble_getElem? cfg r hj hi
    rw [byteAt_getLsbD (by omega) hi (show 8 * (2 * j) + i = 16 * j + i by omega ▸ hplain), Record.bytes_getLsbD hb hi]
    cases r.getLsbD (23 - (8 * j + i)) <;> rfl
  · refine byte_eq_of_bits fun i hi => ?_
    obtain ⟨-, hcomplement⟩ := assemble_getElem? cfg r hj hi
    have hnot : (~~~b).getLsbD (7 - i) = !b.getLsbD (7 - i) := by simp [show 7 - i < 8 by omega]
    rw [byteAt_getLsbD (by omega) hi (show 8 * (2 * j + 1) + i = 16 * j + 8 + i by omega ▸ hcomplement), hnot,
      Record.bytes_getLsbD hb hi]
    cases r.getLsbD (23 - (8 * j + i)) <;> rfl

/-- An assembled frame passes the checksum (R160, R169). -/
theorem checksum_assemble (cfg : Config) (r : Record) : checksum (assemble cfg r) = .ok true := by
  obtain ⟨v, hv, hpairs⟩ := checksum_of_isBit (assemble_length cfg r) (assemble_isBit cfg r)
  obtain rfl : v = true := hpairs.2 fun j hj => by
    obtain ⟨hplain, hcomplement⟩ := byteAt_assemble cfg (List.getElem?_eq_getElem (l := Record.bytes r) hj)
    rw [hplain, hcomplement, BitVec.not_not]
  exact hv

/-- F2R of an assembled frame gives its record back (R160, R171). -/
theorem f2r_assemble (cfg : Config) (r : Record) : f2r (assemble cfg r) = .ok r := by
  obtain ⟨q, hq, hbytes⟩ := f2r_of_isBit (.inr ⟨assemble_length cfg r, rfl⟩) (assemble_isBit cfg r)
  obtain ⟨h0, -⟩ := byteAt_assemble cfg (r := r) (j := 0) rfl
  obtain ⟨h1, -⟩ := byteAt_assemble cfg (r := r) (j := 1) rfl
  obtain ⟨h2, -⟩ := byteAt_assemble cfg (r := r) (j := 2) rfl
  obtain rfl : q = r := record_eq_of_bytes (by rw [hbytes, h0, h1, h2]; rfl)
  exact hq

/-- Settles O30: the counts and the length of a frame, its checksum and its record. -/
theorem framesCarryTheirRecord : Obligations.FramesCarryTheirRecord := fun cfg r =>
  ⟨assemble_countP cfg r (.inr rfl), assemble_countP cfg r (.inl rfl), assemble_length cfg r, checksum_assemble cfg r,
    f2r_assemble cfg r⟩

/-! ### Validated frames (R167, R169, R171) -/

/-- Two sequences of 48 bit pulses have equal categories exactly when they have equal bytes. -/
theorem map_cat_eq_iff_byteAt {pv qv : List Pulse} (hp : pv.length = 48) (hq : qv.length = 48)
    (hpb : ∀ p ∈ pv, isBit p = true) (hqb : ∀ q ∈ qv, isBit q = true) :
    pv.map (·.cat) = qv.map (·.cat) ↔ ∀ k, k < 6 → byteAt pv k = byteAt qv k := by
  constructor
  · intro hcat k _
    have hbits : pulseBits pv = pulseBits qv := by
      have hmap := congrArg (List.map fun c => decide (c = Category.one)) hcat
      rwa [List.map_map, List.map_map] at hmap
    rw [byteAt, byteAt, hbits]
  · intro hbytes
    refine List.ext_getElem (by simp [hp, hq]) fun n hn hn' => ?_
    rw [List.length_map, hp] at hn
    have hpn : pv[8 * (n / 8) + n % 8]? = some pv[n] := by
      rw [Nat.div_add_mod]; exact List.getElem?_eq_getElem (by omega)
    have hqn : qv[8 * (n / 8) + n % 8]? = some qv[n] := by
      rw [Nat.div_add_mod]; exact List.getElem?_eq_getElem (by omega)
    have hbit : decide (pv[n].cat = .one) = decide (qv[n].cat = .one) := by
      rw [← byteAt_getLsbD (by omega) (by omega) hpn, ← byteAt_getLsbD (by omega) (by omega) hqn,
        hbytes (n / 8) (by omega)]
    have hiff := cat_ne_iff (hpb _ (List.getElem_mem (by omega : n < pv.length)))
      (hqb _ (List.getElem_mem (by omega : n < qv.length)))
    rw [List.getElem_map, List.getElem_map]
    exact Classical.not_not.1 fun hne => hiff.1 hne hbit

/-- The checksum of 48 bit pulses holds exactly when their categories are those of the frame of their record (R169). -/
theorem checksum_iff_assemble (cfg : Config) {f : List Pulse} {r : Record} (hlen : f.length = 48)
    (hb : ∀ p ∈ f, isBit p = true) (hr : Record.bytes r = [byteAt f 0, byteAt f 2, byteAt f 4]) :
    (∀ j, j < 3 → byteAt f (2 * j) = ~~~byteAt f (2 * j + 1)) ↔ f.map (·.cat) = (assemble cfg r).map (·.cat) := by
  rw [map_cat_eq_iff_byteAt hlen (assemble_length cfg r) hb (assemble_isBit cfg r)]
  have hbyte : ∀ j, j < 3 → (Record.bytes r)[j]? = some (byteAt f (2 * j)) := fun j hj => by
    rw [hr]
    match j, hj with
    | 0, _ | 1, _ | 2, _ => rfl
  constructor
  · intro hpairs k hk
    obtain ⟨j, rfl | rfl⟩ : ∃ j, k = 2 * j ∨ k = 2 * j + 1 := ⟨k / 2, by omega⟩
    · exact (byteAt_assemble cfg (hbyte j (by omega))).1.symm
    · rw [(byteAt_assemble cfg (hbyte j (by omega))).2, hpairs j (by omega), BitVec.not_not]
  · intro hbytes j hj
    obtain ⟨-, hcomplement⟩ := byteAt_assemble cfg (hbyte j hj)
    rw [hbytes (2 * j + 1) (by omega), hcomplement, BitVec.not_not]

/-- Settles O35: a frame of 48 bit pulses has six bytes, so neither CHECKSUM nor F2R can fault on it. -/
theorem validatedFramesNeverFault : Obligations.ValidatedFramesNeverFault := by
  intro cfg pv f h
  obtain ⟨hcount, rfl, -⟩ := validate_some h
  have hlen : ((pv.filter isBit).take 48).length = 48 := by rw [List.length_take, hcount]; rfl
  have hb : ∀ p ∈ (pv.filter isBit).take 48, isBit p = true := fun p hp =>
    (List.mem_filter.1 (List.mem_of_mem_take hp)).2
  obtain ⟨v, hv, hpairs⟩ := checksum_of_isBit hlen hb
  obtain ⟨r, hr, hbytes⟩ := f2r_of_isBit (.inr ⟨hlen, rfl⟩) hb
  exact ⟨hlen, fun p hp => (isBit_iff p).1 (hb p hp), (List.take_sublist _ _).trans (List.filter_sublist), v, r, hv, hr,
    hpairs.trans (checksum_iff_assemble cfg hlen hb hbytes)⟩

end Machine
end Sys2Proof

/-! PROOFS. Commands and their records (41_command_model.md section 2), and the source's scenario A (R131). -/

namespace Sys2Proof

/-! ### The codes of a record made of nibbles (R52, R54, R55) -/

section
variable (flags : Byte) (fan state temp mode : Nibble)

@[simp] theorem Record.fanCode_append : Record.fanCode (flags ++ fan ++ state ++ temp ++ mode) = fan := by
  unfold Record.fanCode
  repeat rw [BitVec.extractLsb'_append_eq_of_le (by omega)]
  exact BitVec.extractLsb'_append_eq_right

@[simp] theorem Record.stateCode_append : Record.stateCode (flags ++ fan ++ state ++ temp ++ mode) = state := by
  unfold Record.stateCode
  repeat rw [BitVec.extractLsb'_append_eq_of_le (by omega)]
  exact BitVec.extractLsb'_append_eq_right

@[simp] theorem Record.tempCode_append : Record.tempCode (flags ++ fan ++ state ++ temp ++ mode) = temp := by
  unfold Record.tempCode
  repeat rw [BitVec.extractLsb'_append_eq_of_le (by omega)]
  exact BitVec.extractLsb'_append_eq_right

@[simp] theorem Record.modeCode_append : Record.modeCode (flags ++ fan ++ state ++ temp ++ mode) = mode :=
  BitVec.extractLsb'_append_eq_right

end

namespace Machine

/-! ### Commands through their records (R132, R135) -/

/-- Of the modes but FanOnly only Dry has Dry's code (R131, R138). -/
theorem modeCode_eq_dry_iff {k : Codes} (hk : k.ok) {m : Mode} (hm : m ≠ .fanOnly) : modeCode k m = k.modeDry ↔ m = .dry := by
  constructor
  · intro hcode
    have hdry : modeOf k (modeCode k .dry) = some .dry := modeOf_modeCode hk (by decide)
    exact Option.some.inj ((modeOf_modeCode hk hm).symm.trans (hcode ▸ hdry))
  · rintro rfl
    rfl

/-- An on record with codes of a mode but FanOnly and of a degree is read as they say, unless it is FanOnly's (R135). -/
theorem dec_on_record {k : Codes} (hk : k.ok) {m : Mode} (f : Fan) {d : BitVec 5} {t : Nibble} (hm : m ≠ .fanOnly)
    (ht : (d.toNat = 0 ∧ t = k.tempOff) ∨ (d.toNat, t) ∈ k.tempTable) (hnot : t = k.tempOff → m ≠ .dry) :
    dec k (k.flagsByte ++ fanCode k f ++ k.stateOn ++ t ++ modeCode k m) = some ⟨true, m, f, d⟩ := by
  have hfan : ¬ isFanOnly k (k.flagsByte ++ fanCode k f ++ k.stateOn ++ t ++ modeCode k m) = true := by
    rw [isFanOnly_iff, Record.tempCode_append, Record.modeCode_append, modeCode_eq_dry_iff hk hm]
    exact fun h => hnot h.1 h.2
  refine dec_on hk (Record.stateCode_append ..) hfan ?_ ?_ ?_
  · rw [Record.fanCode_append, fanOf_fanCode hk]
  · rw [Record.modeCode_append, modeOf_modeCode hk hm]
  · rw [Record.tempCode_append, degOf_eq_some_iff hk]
    exact ht

/-- An on record with Dry's code and the off temperature is FanOnly's (R135). -/
theorem dec_on_fanOnly_record {k : Codes} (hk : k.ok) (f : Fan) :
    dec k (k.flagsByte ++ fanCode k f ++ k.stateOn ++ k.tempOff ++ k.modeDry) = some ⟨true, .fanOnly, f, 0#5⟩ := by
  refine dec_on_fanOnly hk (Record.stateCode_append ..) ((isFanOnly_iff _ _).2 ⟨?_, ?_⟩) ?_
  · exact Record.tempCode_append ..
  · exact Record.modeCode_append ..
  · rw [Record.fanCode_append, fanOf_fanCode hk]

/-- An off record is read for its mode, Dry's code being FanOnly's beside the off temperature (R135). -/
theorem dec_off_record {k : Codes} (hk : k.ok) (m : Mode) :
    dec k (k.flagsByte ++ k.fanOff ++ k.stateOff ++ k.tempOff ++ modeCode k m) =
      some ⟨false, if m = .dry then .fanOnly else m, .auto, 0#5⟩ := by
  have hstate := Record.stateCode_append k.flagsByte k.fanOff k.stateOff k.tempOff (modeCode k m)
  have htemp := Record.tempCode_append k.flagsByte k.fanOff k.stateOff k.tempOff (modeCode k m)
  have hmode := Record.modeCode_append k.flagsByte k.fanOff k.stateOff k.tempOff (modeCode k m)
  by_cases hdry : modeCode k m = k.modeDry
  · have hm : (if m = .dry then .fanOnly else m) = Mode.fanOnly := by
      by_cases hfan : m = .fanOnly
      · subst hfan; rfl
      · rw [if_pos ((modeCode_eq_dry_iff hk hfan).1 hdry)]
    rw [hm]
    exact dec_off_fanOnly hstate ((isFanOnly_iff _ _).2 ⟨htemp, hmode.trans hdry⟩)
  · have hfan : m ≠ .fanOnly := by rintro rfl; exact hdry rfl
    have hm : m ≠ .dry := by rintro rfl; exact hdry rfl
    rw [if_neg hm]
    refine dec_off hstate (fun h => hdry (hmode.symm.trans ((isFanOnly_iff _ _).1 h).2)) ?_
    rw [hmode, modeOf_modeCode hk hfan]

/-- Every degree from 17 to 30 has a code, which is not the off code (R131, R138). -/
theorem exists_tempCode {k : Codes} (hk : k.ok) {d : Nat} (h17 : 17 ≤ d) (h30 : d ≤ 30) :
    ∃ t, (d, t) ∈ k.tempTable ∧ t ≠ k.tempOff := by
  obtain ⟨hdegs, -, hoff, -⟩ := hk
  have hd : d ∈ k.tempTable.map (·.1) := by rw [hdegs, List.mem_range'_1]; omega
  obtain ⟨⟨_, t⟩, hrow, rfl⟩ := List.mem_map.1 hd
  exact ⟨t, hrow, fun ht => hoff (List.mem_map.2 ⟨_, hrow, ht⟩)⟩

/-- A command that is on, of another mode than FanOnly and of a degree with a code, is encoded with it (R132). -/
theorem enc_on_of_code {k : Codes} (hk : k.ok) {m : Mode} (f : Fan) {d : BitVec 5} {t : Nibble} (hm : m ≠ .fanOnly)
    (ht : (d.toNat = 0 ∧ t = k.tempOff) ∨ (d.toNat, t) ∈ k.tempTable) :
    enc k ⟨true, m, f, d⟩ = .ok (k.flagsByte ++ fanCode k f ++ k.stateOn ++ t ++ modeCode k m) :=
  enc_on_ok (onTempCode_of_some hm ((tempCode_eq_some_iff hk _ t).2 ht))

/-- Settles O28: the record of each command, and what it is read as. -/
theorem commandsSurviveTheRecord : Obligations.CommandsSurviveTheRecord := by
  intro k hk
  refine ⟨fun m f d hm h17 h30 => ?_, fun m f hm hdry => ?_, fun f => ?_, fun f d => ?_, fun m f d => ?_⟩
  · obtain ⟨t, hrow, hoff⟩ := exists_tempCode hk h17 h30
    exact ⟨_, enc_on_of_code hk f hm (.inr hrow), dec_on_record hk f hm (.inr hrow) (absurd · hoff)⟩
  · exact ⟨_, enc_on_of_code hk f hm (.inl ⟨rfl, rfl⟩), dec_on_record hk f hm (.inl ⟨rfl, rfl⟩) fun _ => hdry⟩
  · exact ⟨_, enc_on_of_code hk f (by decide) (.inl ⟨rfl, rfl⟩), dec_on_fanOnly_record hk f⟩
  · exact ⟨_, enc_on_ok (onTempCode_fanOnly k true f d), dec_on_fanOnly_record hk f⟩
  · exact ⟨_, enc_off k m f d, dec_off_record hk m⟩

/-! ### Scenario A (R131) -/

/-- The codes of scenario A are fixed by the source, whatever the rest of the table (R131, R138). -/
theorem enc_scenarioA {k : Codes} (hk : k.ok) : enc k ⟨true, .cool, .high, 22#5⟩ = .ok 0xB23F70#24 := by
  obtain ⟨-, -, -, -, -, -, hflags, hfan, hstate, hmode, htemp⟩ := id hk
  have hrow : ((22#5).toNat, 0x7#4) ∈ k.tempTable := (lookup_tempTable_eq_some_iff hk 22 0x7#4).1 htemp
  rw [enc_on_of_code hk .high (by decide) (.inr hrow), fanCode, modeCode, hflags, hfan, hstate, hmode]
  rfl

/-- Settles O26: the codes of scenario A are the same in every admitted table, and every frame passes its checksum. -/
theorem scenarioA : Obligations.ScenarioA := by
  refine ⟨fun cfg hk => ⟨enc_scenarioA hk, checksum_assemble cfg _⟩, fun s hk hs => ?_⟩
  have hword : 0x05B1#16 = packCommand ⟨true, .cool, .high, 22#5⟩ := by decide
  rw [hword]
  exact exec_encode_ok hs (enc_scenarioA hk)

end Machine
end Sys2Proof

/-! PROOFS. What a codec request answers, by its operands and the configuration alone (R58, D34), and which request raises
which fault (R222, R223). -/

namespace Sys2Proof

/-- The codec's opcodes (D34). -/
def Opcode.isCodec (op : Opcode) : Bool :=
  decide (op ∈ [Opcode.classify, .p2b, .b2p, .encode, .decode, .assemble, .timing, .validate, .checksum, .f2r])

namespace Machine

/-! ### Codec requests -/

/-- What a codec request answers in a healthy block, or the fault it raises; the other requests are given the response
of a request without a result, which nothing uses. -/
def codecAnswer (cfg : Config) : Instr → Except FaultCause Response
  | .classify d => .ok ⟨.ok, .pulse (classify cfg d)⟩
  | .p2b pv => (p2b pv).map fun b => ⟨.ok, .byte b⟩
  | .b2p b => .ok ⟨.ok, .pulses (b2p cfg b)⟩
  | .encode c => (encodeWord cfg.codes c).map fun r => ⟨.ok, .record r⟩
  | .decode r => .ok ((dec cfg.codes r).elim ⟨.absent, .none⟩ fun c => ⟨.ok, .command (packCommand c)⟩)
  | .assemble r => .ok ⟨.ok, .pulses (assemble cfg r)⟩
  | .timing r => .ok ⟨.ok, .timing (timing cfg r)⟩
  | .validate pv => .ok ((validate pv).elim ⟨.absent, .none⟩ fun f => ⟨.ok, .pulses f⟩)
  | .checksum pv => (checksum pv).map fun v => ⟨.ok, .bit v⟩
  | .f2r pv => (f2r pv).map fun r => ⟨.ok, .record r⟩
  | .status | .edge _ _ | .tick _ | .abort | .lineFault | .reserved _ _ => .ok ⟨.ok, .none⟩

/-- The next state of a codec request: its response, or its fault. -/
def State.reply (s : State) (op : Opcode) : Except FaultCause Response → State
  | .ok resp => s.respond resp.status resp.result
  | .error c => s.raise c op

theorem answer_eq_reply {α : Type} (s : State) (op : Opcode) (x : Except FaultCause α) (f : α → Result) :
    s.answer op (x.map f) = s.reply op (x.map fun a => ⟨.ok, f a⟩) := by
  cases x <;> rfl

/-- A healthy block answers a codec request by its operands and the configuration alone (R58, D34). -/
theorem exec_codec_of_healthy {i : Instr} {s : State} (hi : i.opcode.isCodec = true) (hs : s.faultCause = 0#4) :
    exec i s = .next (s.reply i.opcode (codecAnswer s.cfg i)) := by
  cases i with
  | classify d => exact exec_classify_of_healthy d hs
  | b2p b => exact exec_b2p_of_healthy b hs
  | assemble r => exact exec_assemble_of_healthy r hs
  | timing r => exact exec_timing_of_healthy r hs
  | p2b pv => exact (exec_p2b_of_healthy pv hs).trans (congrArg _ (answer_eq_reply ..))
  | encode c => exact (exec_encode_of_healthy c hs).trans (congrArg _ (answer_eq_reply ..))
  | checksum pv => exact (exec_checksum_of_healthy pv hs).trans (congrArg _ (answer_eq_reply ..))
  | f2r pv => exact (exec_f2r_of_healthy pv hs).trans (congrArg _ (answer_eq_reply ..))
  | decode r =>
    cases hd : dec s.cfg.codes r with
    | some c => simp [exec_decode_some hs hd, State.reply, codecAnswer, hd]
    | none => simp [exec_decode_none hs hd, State.reply, codecAnswer, hd]
  | validate pv =>
    cases hv : validate pv with
    | some f => simp [exec_validate_some hs hv, State.reply, codecAnswer, hv]
    | none => simp [exec_validate_none hs hv, State.reply, codecAnswer, hv]
  | status | edge | tick | abort | lineFault | reserved => simp [Opcode.isCodec, Instr.opcode] at hi

/-- Settles O45: STATUS and a codec request that raises no fault only respond, with what responding does not change. -/
theorem pureRequestsRepeat : Obligations.PureRequestsRepeat := by
  intro i s t hi h hcause
  by_cases hstatus : i = .status
  · subst hstatus
    cases h
    exact ⟨_, rfl, rfl⟩
  · by_cases hs : s.faultCause = 0#4
    · have hcodec : i.opcode.isCodec = true := by
        rcases List.mem_cons.1 hi with hop | hop
        · exact absurd (by cases i <;> first | rfl | cases hop) hstatus
        · exact decide_eq_true hop
      have hexec := exec_codec_of_healthy hcodec hs
      cases hans : codecAnswer s.cfg i with
      | ok resp =>
        rw [hexec, hans] at h
        cases h
        refine ⟨resp, rfl, ?_⟩
        rw [exec_codec_of_healthy hcodec (hcause.trans hs)]
        exact congrArg (fun x => Host.Outcome.next (State.reply _ i.opcode x)) hans
      | error c =>
        rw [hexec, hans] at h
        cases h
        exact absurd (hcause.trans hs) (FaultCause.code_ne_zero c)
    · rw [exec_of_faulted hs hstatus] at h
      cases h
      exact ⟨_, rfl, exec_of_faulted hs hstatus⟩

/-- Settles O46: the answer is that of the configuration, which the two states share. -/
theorem codecIgnoresDecoder : Obligations.CodecIgnoresDecoder := by
  intro i s u hi hcfg hs hu
  have hexec := exec_codec_of_healthy (decide_eq_true hi) hs
  have hexec' := exec_codec_of_healthy (decide_eq_true hi) hu
  rw [← hcfg] at hexec'
  cases hans : codecAnswer s.cfg i with
  | ok resp =>
    rw [hans] at hexec hexec'
    exact ⟨resp, _, _, hexec, hexec', rfl, rfl, hs.trans hu.symm⟩
  | error c =>
    rw [hans] at hexec hexec'
    exact ⟨⟨.faulted, .none⟩, _, _, hexec, hexec', rfl, rfl, rfl⟩

/-! ### Which request raises which fault (R222, R223) -/

/-- The fault of an answer, if it is one. -/
def faultOf : Except FaultCause Response → Option FaultCause
  | .error c => some c
  | .ok _ => none

@[simp] theorem faultOf_ok (resp : Response) : faultOf (.ok resp) = none := rfl

@[simp] theorem faultOf_map_eq_some_iff {α : Type} (x : Except FaultCause α) (f : α → Response) (c : FaultCause) :
    faultOf (x.map f) = some c ↔ x = .error c := by
  cases x <;> simp [faultOf, Except.map]

/-- The fault that an instruction raises in a healthy block. -/
def raisedCause (s : State) : Instr → Option FaultCause
  | .reserved _ _ => some .illegalOp
  | .edge _ ts => if s.runState = .running ∧ ts.toNat < s.lastEdgeTime.toNat then some .nonmonotonicTs else none
  | i => faultOf (codecAnswer s.cfg i)

/-- The code that the fault register then holds (R29). -/
def causeCode (c : Option FaultCause) : Nibble := c.elim 0#4 FaultCause.code

theorem causeCode_eq_iff (o : Option FaultCause) (c : FaultCause) : causeCode o = c.code ↔ o = some c := by
  rcases o with _ | d
  · cases c <;> decide
  · cases c <;> cases d <;> decide

theorem causeCode_le (o : Option FaultCause) : (causeCode o).toNat ≤ 6 := by
  rcases o with _ | d
  · decide
  · cases d <;> decide

theorem reply_faultCause {s : State} (hs : s.faultCause = 0#4) (op : Opcode) (x : Except FaultCause Response) :
    (s.reply op x).faultCause = causeCode (faultOf x) := by
  cases x with
  | ok resp => exact hs
  | error c => rfl

/-- The fault register after EDGE in a healthy block (R191). -/
theorem exec_edge_faultCause {e : EdgeType} {ts : Nanos} {s t : State} (h : exec (.edge e ts) s = .next t)
    (hs : s.faultCause = 0#4) : t.faultCause = causeCode (raisedCause s (.edge e ts)) := by
  by_cases hr : s.runState = .running
  · by_cases hts : ts.toNat < s.lastEdgeTime.toNat
    · rw [exec_edge_of_nonmonotonic e hs hr hts] at h
      cases h
      simp [raisedCause, hr, hts, causeCode]
    · rw [exec_edge_of_ordered e hs hr (Nat.not_lt.1 hts)] at h
      cases h
      simp [raisedCause, hts, causeCode, hs]
  · rw [exec_of_stopped (.inl rfl) hs hr] at h
    cases h
    simp [raisedCause, hr, causeCode, hs]

/-- TICK raises no fault (R223). -/
theorem exec_tick_keeps_healthy {now : Nanos} {s t : State} (h : exec (.tick now) s = .next t)
    (hs : s.faultCause = 0#4) : t.faultCause = 0#4 := by
  by_cases hr : s.runState = .running
  · by_cases hdue : s.flushDue now = true
    · rw [exec_tick_of_due hs hr hdue] at h
      cases h
      exact hs
    · rw [exec_tick_of_not_due hs hr hdue] at h
      cases h
      exact hs
  · rw [exec_of_stopped (.inr rfl) hs hr] at h
    cases h
    exact hs

/-- The fault register after an instruction in a healthy block (R222, R223). -/
theorem exec_faultCause {i : Instr} {s t : State} (h : exec i s = .next t) (hs : s.faultCause = 0#4) :
    t.faultCause = causeCode (raisedCause s i) := by
  cases i with
  | status =>
    cases h
    exact hs
  | tick now => exact exec_tick_keeps_healthy h hs
  | abort =>
    rw [exec_abort_of_healthy hs] at h
    cases h
    exact (endLoop_faultCause ..).trans hs
  | lineFault =>
    rw [exec_lineFault_of_healthy hs] at h
    cases h
    exact (endLoop_faultCause ..).trans hs
  | edge e ts => exact exec_edge_faultCause h hs
  | reserved rest b =>
    rw [exec_reserved_of_healthy rest b hs] at h
    cases h
    rfl
  | classify | p2b | b2p | encode | decode | assemble | timing | validate | checksum | f2r =>
    rw [exec_codec_of_healthy rfl hs] at h
    cases h
    exact reply_faultCause hs _ _

/-- A vector operation checks the length, then that every pulse is a bit pulse (R105, R169, R171, R224). -/
theorem vector_error_iff {α : Type} {x : Except FaultCause α} {pv : List Pulse} {fits : Prop} (c : FaultCause)
    (hlen : ¬ fits → x = .error .badLength) (hbad : fits → (∃ p ∈ pv, isBit p = false) → x = .error .notABit)
    (hok : fits → (∀ p ∈ pv, isBit p = true) → ∃ v, x = .ok v) :
    x = .error c ↔ (c = .badLength ∧ ¬ fits) ∨
      (c = .notABit ∧ (∃ p ∈ pv, p.cat = .preamble ∨ p.cat = .invalid) ∧ fits) := by
  by_cases hfits : fits
  · by_cases hb : ∃ p ∈ pv, isBit p = false
    · have hb' : ∃ p ∈ pv, p.cat = .preamble ∨ p.cat = .invalid := by simpa only [isBit_false_iff] using hb
      rw [hbad hfits hb]
      simp [hfits, hb', eq_comm (a := FaultCause.notABit)]
    · have hb' : ¬ ∃ p ∈ pv, p.cat = .preamble ∨ p.cat = .invalid := by simpa only [isBit_false_iff] using hb
      obtain ⟨v, rfl⟩ := hok hfits (by simpa using hb)
      simp [hfits, hb']
  · rw [hlen hfits]
    simp [hfits, eq_comm (a := FaultCause.badLength)]

theorem p2b_eq_error_iff (pv : List Pulse) (c : FaultCause) : p2b pv = .error c ↔ (c = .badLength ∧ ¬ pv.length = 8) ∨
    (c = .notABit ∧ (∃ p ∈ pv, p.cat = .preamble ∨ p.cat = .invalid) ∧ pv.length = 8) :=
  vector_error_iff c p2b_of_length_ne p2b_of_not_isBit fun hlen hb => ⟨_, p2b_of_isBit hlen hb⟩

theorem checksum_eq_error_iff (pv : List Pulse) (c : FaultCause) :
    checksum pv = .error c ↔ (c = .badLength ∧ ¬ pv.length = 48) ∨
      (c = .notABit ∧ (∃ p ∈ pv, p.cat = .preamble ∨ p.cat = .invalid) ∧ pv.length = 48) :=
  vector_error_iff c checksum_of_length_ne checksum_of_not_isBit fun hlen hb => ⟨_, checksum_ok hlen hb⟩

theorem f2r_eq_error_iff (pv : List Pulse) (c : FaultCause) :
    f2r pv = .error c ↔ (c = .badLength ∧ ¬ (pv.length = 24 ∨ pv.length = 48)) ∨
      (c = .notABit ∧ (∃ p ∈ pv, p.cat = .preamble ∨ p.cat = .invalid) ∧ (pv.length = 24 ∨ pv.length = 48)) :=
  vector_error_iff c (fun hlen => f2r_of_length_ne (not_or.1 hlen).1 (not_or.1 hlen).2) f2r_of_not_isBit
    fun hlen hb => hlen.elim (fun h24 => ⟨_, f2r_24 h24 hb⟩) fun h48 => ⟨_, f2r_48 h48 hb⟩

/-- A command is encoded unless it is on, of another mode than FanOnly and of a degree without a code (R132). -/
theorem enc_eq_error_iff {k : Codes} (hk : k.ok) (p : Bool) (m : Mode) (f : Fan) (d : BitVec 5) (e : FaultCause) :
    enc k ⟨p, m, f, d⟩ = .error e ↔
      e = .unmappedTemp ∧ p = true ∧ m ≠ .fanOnly ∧ d.toNat ≠ 0 ∧ ¬ (17 ≤ d.toNat ∧ d.toNat ≤ 30) := by
  cases p with
  | false => simp [enc_off]
  | true =>
    by_cases hm : m = .fanOnly
    · subst hm
      simp [enc_on_ok (onTempCode_fanOnly k true f d)]
    · by_cases hdeg : d.toNat ≠ 0 ∧ ¬ (17 ≤ d.toNat ∧ d.toNat ≤ 30)
      · obtain ⟨hzero, hrange⟩ := hdeg
        have hcode : onTempCode k ⟨true, m, f, d⟩ = .error .unmappedTemp :=
          onTempCode_of_none hm (tempCode_eq_none hk hzero hrange)
        rw [enc_on_error hcode]
        simp only [Except.error.injEq, eq_comm (a := FaultCause.unmappedTemp)]
        exact ⟨fun he => ⟨he, trivial, hm, hzero, hrange⟩, And.left⟩
      · obtain ⟨t, ht⟩ : ∃ t, (d.toNat = 0 ∧ t = k.tempOff) ∨ (d.toNat, t) ∈ k.tempTable := by
          by_cases hzero : d.toNat = 0
          · exact ⟨k.tempOff, .inl ⟨hzero, rfl⟩⟩
          · obtain ⟨t, hrow, -⟩ := exists_tempCode hk (d := d.toNat) (by omega) (by omega)
            exact ⟨t, .inr hrow⟩
        rw [enc_on_of_code hk f hm ht]
        simp only [reduceCtorEq, false_iff]
        exact fun ⟨_, _, _, h⟩ => hdeg h

/-- The faults of ENCODE (R133). -/
theorem encodeWord_eq_error_iff {k : Codes} (hk : k.ok) (w : CommandWord) (e : FaultCause) :
    encodeWord k w = .error e ↔ (e = .illegalEncoding ∧
        (5 ≤ (w.extractLsb' 1 3 : BitVec 3).toNat ∨ w.extractLsb' 11 5 ≠ 0#5)) ∨
      (e = .unmappedTemp ∧ ∃ (m : Mode) (f : Fan) (d : BitVec 5), w = packCommand ⟨true, m, f, d⟩ ∧ m ≠ .fanOnly ∧
        d.toNat ≠ 0 ∧ ¬ (17 ≤ d.toNat ∧ d.toNat ≤ 30)) := by
  rw [← unpackCommand_eq_none_iff]
  cases hw : unpackCommand w with
  | none =>
    have hnot : ∀ c, w ≠ packCommand c := by
      rintro c rfl
      simp at hw
    simp [encodeWord, hw, hnot, eq_comm (a := FaultCause.illegalEncoding)]
  | some c =>
    obtain ⟨p, m, f, d⟩ := c
    obtain rfl := packCommand_of_unpackCommand hw
    rw [encodeWord_packCommand, enc_eq_error_iff hk]
    constructor
    · rintro ⟨rfl, rfl, hm, hdeg⟩
      exact .inr ⟨rfl, m, f, d, rfl, hm, hdeg⟩
    · rintro (⟨-, hnone⟩ | ⟨rfl, m', f', d', hpack, hm, hdeg⟩)
      · cases hnone
      · rw [hpack, unpackCommand_packCommand] at hw
        cases hw
        exact ⟨rfl, rfl, hm, hdeg⟩

theorem exists_eq_between {α : Type} {P Q : α → Prop} {a : α} : (∃ x, P x ∧ a = x ∧ Q x) ↔ P a ∧ Q a :=
  ⟨fun ⟨_, hp, rfl, hq⟩ => ⟨hp, hq⟩, fun ⟨hp, hq⟩ => ⟨a, hp, rfl, hq⟩⟩

theorem exists_eq_pair {α β : Type} {P : α → β → Prop} {a : α} {b : β} :
    (∃ x y, (a = x ∧ b = y) ∧ P x y) ↔ P a b :=
  ⟨fun ⟨_, _, ⟨rfl, rfl⟩, h⟩ => h, fun h => ⟨a, b, ⟨rfl, rfl⟩, h⟩⟩

/-- Settles O17: each cause is raised by the instructions whose answer is that fault. -/
theorem faultCauseTable : Obligations.FaultCauseTable := by
  intro i s t hk hs h
  have hcode : ∀ c : FaultCause, t.faultCause = c.code ↔ raisedCause s i = some c := fun c => by
    rw [exec_faultCause h hs, causeCode_eq_iff]
  refine ⟨exec_faultCause h hs ▸ causeCode_le _, (hcode .illegalOp).trans ?_, (hcode .illegalEncoding).trans ?_,
    (hcode .badLength).trans ?_, (hcode .notABit).trans ?_, (hcode .unmappedTemp).trans ?_,
    (hcode .nonmonotonicTs).trans ?_⟩
  all_goals cases i <;> simp [raisedCause, codecAnswer, Instr.opcode, p2b_eq_error_iff, checksum_eq_error_iff,
    f2r_eq_error_iff, encodeWord_eq_error_iff hk, exists_eq_between, exists_eq_pair]

end Machine

end Sys2Proof

/-! PROOFS. What every step keeps: the edge record (R24, R27), the observation (R32), the order of the pulses (R201), the
invariant of the record (R25 to R29, R193, R194), and a healthy block on an ordered line (R252, R260). -/

namespace Sys2Proof.Machine

/-! ### The edge record (R24, R27) -/

/-- The edge counter saturates at a value that it can hold and that is not 0 (R8, R27). -/
theorem edgeCountMax_bounds {cfg : Config} (h : cfg.widthsOk) : 1 ≤ cfg.edgeCountMax ∧ cfg.edgeCountMax < 2 ^ 32 := by
  obtain ⟨-, ⟨hlo, hhi⟩, -⟩ := h
  have h1 : 2 ^ 1 ≤ 2 ^ cfg.ecWidth := Nat.pow_le_pow_right (by decide) hlo
  have h2 : 2 ^ cfg.ecWidth ≤ 2 ^ 32 := Nat.pow_le_pow_right (by decide) hhi
  unfold Config.edgeCountMax
  omega

/-- A processed edge adds one to the counter, saturating (R27, R191). -/
theorem processEdge_edgeCount_toNat {s : State} (hw : s.cfg.widthsOk) (e : EdgeType) (ts : Nanos) :
    (s.processEdge e ts).edgeCount.toNat = min (s.edgeCount.toNat + 1) s.cfg.edgeCountMax := by
  obtain ⟨-, hmax⟩ := edgeCountMax_bounds hw
  have hcount : (s.processEdge e ts).edgeCount = BitVec.ofNat 32 (min (s.edgeCount.toNat + 1) s.cfg.edgeCountMax) := by
    rcases processEdge_cases s e ts with ⟨_, _, h⟩ | ⟨_, h⟩ <;> simp [h]
  rw [hcount, BitVec.toNat_ofNat, Nat.mod_eq_of_lt (Nat.lt_of_le_of_lt (Nat.min_le_right _ _) hmax)]

@[simp] theorem processEdge_lastEdgeTime (s : State) (e : EdgeType) (ts : Nanos) :
    (s.processEdge e ts).lastEdgeTime = ts := by
  rcases processEdge_cases s e ts with ⟨_, _, h⟩ | ⟨_, h⟩ <;> simp [h]

/-- Once an edge has been processed one has been seen (R27). -/
theorem processEdge_seen {s : State} (hw : s.cfg.widthsOk) (e : EdgeType) (ts : Nanos) :
    (s.processEdge e ts).edgeCount ≠ 0#32 := fun hzero => by
  obtain ⟨hmax, -⟩ := edgeCountMax_bounds hw
  have hcount := processEdge_edgeCount_toNat hw e ts
  rw [hzero, BitVec.toNat_zero] at hcount
  omega

/-- Settles O41: of all an instruction can do only processing an edge moves the edge record. -/
theorem onlyEdgesMoveTheEdgeRecord : Obligations.OnlyEdgesMoveTheEdgeRecord := by
  intro i s t hw h
  rcases exec_cases h with ⟨_, _, rfl, _⟩ | ⟨_, _, _, rfl⟩ | ⟨e, ts, hi, hs, hr, hts, rfl⟩ |
    ⟨_, _, _, _, _, rfl⟩ | ⟨_, _, _, rfl⟩ | ⟨_, _, _, rfl⟩
  case inr.inr.inl =>
    exact ⟨.inr ⟨e, ts, hi, hr, hs, hts, processEdge_lastEdgeTime s e ts, processEdge_edgeCount_toNat hw e ts⟩,
      fun _ => processEdge_seen hw e ts⟩
  all_goals exact ⟨.inl ⟨rfl, rfl⟩, id⟩

/-! ### The observation (R32) -/

/-- Serving a request gives one response (R70). -/
theorem serve_responds_once {r : Request} {s t : State} (h : serve r s = .next t) :
    ∃ resp, t.responses = s.responses ++ [resp] := by
  rcases serve_cases h with ⟨_, _, _, hi⟩ | ⟨_, _, rfl⟩ | ⟨_, rfl⟩ | ⟨_, _, rfl⟩
  · obtain ⟨resp, hresp, -⟩ := exec_responds_once hi
    exact ⟨resp, hresp⟩
  all_goals exact ⟨_, rfl⟩

/-- A step gives at most one response, and none at a reset (R32, R70; log 16). -/
theorem step_responses {s t : State} (h : step s = .next t) :
    ∃ rs : List Response, t.responses = s.responses ++ rs ∧ rs.length ≤ 1 := by
  rcases step_cases h with ⟨_, rfl⟩ | ⟨_, _, rfl⟩ | ⟨_, _, _, _, _, _, _, rfl⟩ | ⟨_, _, _, _, _, _, _, _, _, _, hv, rfl⟩
  · exact ⟨[], by simp⟩
  · exact ⟨[], by simp⟩
  · exact ⟨[], by simp⟩
  · obtain ⟨resp, hresp⟩ := serve_responds_once hv
    exact ⟨[resp], hresp, Nat.le_refl _⟩

/-- Settles O43: of the accumulator's accesses only a flush emits, one burst, and a step responds at most once. -/
theorem observationOnlyGrows : Obligations.ObservationOnlyGrows := by
  intro s t h
  refine ⟨?_, step_responses h⟩
  rcases accumulatorAccesses s t h with ⟨-, hout⟩ | ⟨-, -, hout⟩ | ⟨-, -, hout⟩ | ⟨-, hout, -⟩
  · exact ⟨[], by simp [hout]⟩
  · exact ⟨[], by simp [hout]⟩
  · exact ⟨_, hout, Nat.le_refl _⟩
  · exact ⟨[], by simp [hout]⟩

/-! ### The order of the pulses (R201) -/

/-- Serving a request does not move the place in the stream (R22). -/
theorem serve_keeps_position {r : Request} {s t : State} (h : serve r s = .next t) : t.position = s.position := by
  rcases serve_cases h with ⟨_, _, _, hi⟩ | ⟨_, _, rfl⟩ | ⟨_, rfl⟩ | ⟨_, _, rfl⟩
  · exact exec_keeps_position hi
  all_goals rfl

/-- A step takes the next place of the stream, if there is one (R7; log 1). -/
theorem step_remaining {s t : State} (h : step s = .next t) : t.remaining = s.remaining.tail := by
  have hstream : t.stream = s.stream := (inputIsNeverWritten s t h).2
  rcases step_cases h with ⟨hrem, rfl⟩ | ⟨_, hrem, rfl⟩ | ⟨_, _, _, _, hrem, _, _, rfl⟩ |
    ⟨_, _, _, _, _, _, _, v, hrem, _, hv, rfl⟩
  · rw [hrem]; rfl
  · rw [hrem]; exact remaining_advance hrem
  · rw [hrem]; exact remaining_advance hrem
  · rw [hrem]
    have hplace := serve_keeps_position hv
    exact (remaining_congr (s := s.advance) hstream hplace).trans (remaining_advance hrem)

/-- A longer run is a step and a run from its next state. -/
theorem run_succ_eq_next {k : Nat} {s t : State} (h : Host.Core.run core (k + 1) s = .next t) :
    ∃ u, step s = .next u ∧ Host.Core.run core k u = .next t := by
  cases hu : step s with
  | next u => exact ⟨u, rfl, (run_succ_of_step k hu).symm.trans h⟩
  | fault f =>
    have hstep : core.step s = .fault f := hu
    simp only [Host.Core.run, hstep] at h
    cases h
  | refused r =>
    have hstep : core.step s = .refused r := hu
    simp only [Host.Core.run, hstep] at h
    cases h

/-- A step that is no reset adds at most one pulse to those delivered or pending, at the end (R51, R201). -/
theorem step_delivered {s t : State} (h : step s = .next t) (hreset : ∀ rest, s.remaining ≠ .reset :: rest) :
    ∃ ps : List Pulse, t.delivered = s.delivered ++ ps ∧ ps.length ≤ 1 := by
  rcases accumulatorAccesses s t h with ⟨hp, hout⟩ | ⟨p, hp, hout⟩ | ⟨hp, -, hout⟩ | ⟨-, -, rest, hrem⟩
  · exact ⟨[], by simp [State.delivered, hp, hout]⟩
  · exact ⟨[p], by simp [State.delivered, hp, hout]⟩
  · exact ⟨[], by simp [State.delivered, hp, hout]⟩
  · exact absurd hrem (hreset rest)

/-- Over a run without reset the pulses delivered or pending grow at the end, by at most one a step (R201). -/
theorem run_delivered {n : Nat} {s t : State} (hreset : ∀ a ∈ s.remaining, a ≠ .reset)
    (h : Host.Core.run core n s = .next t) : ∃ ps : List Pulse, t.delivered = s.delivered ++ ps ∧ ps.length ≤ n := by
  induction n generalizing s with
  | zero =>
    cases h
    exact ⟨[], by simp⟩
  | succ n ih =>
    obtain ⟨u, hstep, hrun⟩ := run_succ_eq_next h
    obtain ⟨ps, hps, hlen⟩ := step_delivered hstep fun rest hrem => hreset _ (hrem ▸ List.mem_cons_self) rfl
    have hreset' : ∀ a ∈ u.remaining, a ≠ .reset := fun a ha =>
      hreset a (List.mem_of_mem_tail (step_remaining hstep ▸ ha))
    obtain ⟨qs, hqs, hlen'⟩ := ih hreset' hrun
    exact ⟨ps ++ qs, by rw [hqs, hps, List.append_assoc], by rw [List.length_append]; omega⟩

/-- Settles O44: a run is steps that add at the end, and a falling edge with room appends its pulse. -/
theorem pulsesAreDeliveredInOrder : Obligations.PulsesAreDeliveredInOrder := by
  refine ⟨fun n s t hreset h => run_delivered hreset h, fun s ts hs hr hseen hts hroom =>
    ⟨_, exec_falling_edge_of_room hs hr hseen hts hroom, ?_⟩⟩
  exact (List.append_assoc _ _ _).symm

/-! ### The invariant (R25 to R29, R193, R194) -/

/-- The state after reset of an admitted configuration has nothing in it (R34). -/
theorem resetAt_inv {cfg : Config} (h : cfg.ok) : (State.resetAt cfg).Inv where
  admitted := h
  withinCap := Nat.zero_le _
  ovfFull := Bool.noConfusion
  unseenEmpty := fun _ => ⟨rfl, rfl⟩
  countFits := Nat.zero_le _
  timeFits := Nat.two_pow_pos _
  pendingMeasured := by simp [State.resetAt]
  faultPair := rfl
  burstsOk := by simp [State.resetAt]
  takenEmitted := Nat.le_refl _
  placeInStream := Nat.le_refl _

/-- Settles O59: the hardware's configuration is one of the admitted ones. -/
theorem invariantHoldsAtReset : Obligations.InvariantHoldsAtReset :=
  ⟨resetAt_inv hardwareConfigurationIsAdmitted, fun _ => resetAt_inv⟩

/-! Each operation over the state keeps the invariant. -/

section
variable {s : State}

theorem State.Inv.respond (h : s.Inv) (st : Status) (r : Result) : (s.respond st r).Inv := { h with }

theorem State.Inv.raise (h : s.Inv) {c : FaultCause} {op : Opcode} (hpair : faultPairOk c.code op.code = true) :
    (s.raise c op).Inv := { h with faultPair := hpair }

theorem State.Inv.withRunState (h : s.Inv) (r : RunState) : { s with runState := r }.Inv := { h with }

theorem State.Inv.withAgents (h : s.Inv) (tasks : List HostTask) (events : List LineEvent) (next : Nat) :
    { s with hostTasks := tasks, lineEvents := events, timerNext := next }.Inv := { h with }

theorem State.Inv.withBurstsTaken (h : s.Inv) (tasks : List HostTask) {n : Nat} (hn : n ≤ s.out.length) :
    { s with hostTasks := tasks, burstsTaken := n }.Inv := { h with takenEmitted := hn }

theorem State.Inv.advance (h : s.Inv) {a : Arrival} {rest : List Arrival} (hrem : s.remaining = a :: rest) :
    s.advance.Inv := { h with placeInStream := position_lt_of_remaining hrem }

/-- Reset clears the record and leaves the rest (R250). -/
theorem State.Inv.applyReset (h : s.Inv) : s.applyReset.Inv :=
  { resetAt_inv h.admitted with
    burstsOk := h.burstsOk, takenEmitted := h.takenEmitted, placeInStream := h.placeInStream }

/-- A flush empties an accumulator that is not empty, and emits it (R197, R201). -/
theorem State.Inv.flush (h : s.Inv) (hpending : s.pending ≠ []) : s.flush.Inv := by
  have hmeasured : s.pending.all (measured s.cfg) = true := List.all_eq_true.2 fun p hp => (h.pendingMeasured p hp).1
  have hburst : Burst.ok s.cfg ⟨s.pending, s.pendingOvf⟩ = true := by
    have hcap := h.withinCap
    have hfull := h.ovfFull
    cases hovf : s.pendingOvf <;> simp_all [Burst.ok]
  refine { h with
    withinCap := Nat.zero_le _, ovfFull := Bool.noConfusion, unseenEmpty := fun h0 => ⟨rfl, (h.unseenEmpty h0).2⟩,
    pendingMeasured := by simp, burstsOk := fun b hb => ?_, takenEmitted := ?_ }
  · rcases List.mem_append.1 hb with hold | hnew
    · exact h.burstsOk b hold
    · rwa [List.mem_singleton.1 hnew]
  · exact Nat.le_trans h.takenEmitted (by simp)

/-- Appending a measured pulse keeps the accumulator within its capacity, and the overflow bit marks a full one (R194). -/
theorem State.Inv.append (h : s.Inv) (hseen : s.edgeCount ≠ 0#32) {p : Pulse} (hp : measured s.cfg p = true)
    (hfits : p.dur.toNat < 2 ^ s.cfg.tsWidth) : (s.append p).Inv := by
  have hcap := h.withinCap
  rcases append_cases s p with ⟨hroom, happend⟩ | ⟨hfull, happend⟩
  · rw [happend]
    refine { h with
      withinCap := by simpa [Nat.succ_le_iff] using hroom, ovfFull := fun hovf => ?_, unseenEmpty := fun h0 => absurd h0 hseen,
      pendingMeasured := fun q hq => ?_ }
    · have hlen := h.ovfFull hovf
      omega
    · rcases List.mem_append.1 hq with hold | hnew
      · exact h.pendingMeasured q hold
      · rw [List.mem_singleton.1 hnew]
        exact ⟨hp, hfits⟩
  · rw [happend]
    exact { h with ovfFull := fun _ => Nat.le_antisymm hcap (Nat.not_lt.1 hfull) }

/-- Marking an edge keeps its time and the counter within their widths (R24, R27). -/
theorem State.Inv.markEdge (h : s.Inv) {ts : Nanos} (hts : ts.toNat < 2 ^ s.cfg.tsWidth) : (s.markEdge ts).Inv := by
  obtain ⟨-, hw, -⟩ := h.admitted
  obtain ⟨hmax, hbound⟩ := edgeCountMax_bounds hw
  have hcount : (s.markEdge ts).edgeCount.toNat = min (s.edgeCount.toNat + 1) s.cfg.edgeCountMax := by
    rw [markEdge_edgeCount, BitVec.toNat_ofNat, Nat.mod_eq_of_lt (Nat.lt_of_le_of_lt (Nat.min_le_right _ _) hbound)]
  refine { h with
    unseenEmpty := fun h0 => ?_, countFits := hcount ▸ Nat.min_le_right _ _, timeFits := hts }
  rw [h0, BitVec.toNat_zero] at hcount
  omega

/-- An interval is not longer than the time of the edge that ends it (R193). -/
theorem interval_toNat_le (ts : Nanos) : (s.interval ts).toNat ≤ ts.toNat :=
  Nat.le_trans (Nat.mod_le _ _) (Nat.sub_le _ _)

theorem measured_classify (cfg : Config) (d : Nanos) : measured cfg (classify cfg d) = true := beq_self_eq_true _

theorem State.Inv.processEdge (h : s.Inv) (e : EdgeType) {ts : Nanos} (hts : ts.toNat < 2 ^ s.cfg.tsWidth) :
    (s.processEdge e ts).Inv := by
  rcases processEdge_cases s e ts with ⟨-, hseen, hp⟩ | ⟨-, hp⟩
  · rw [hp]
    have hfits : (s.interval ts).toNat < 2 ^ s.cfg.tsWidth := Nat.lt_of_le_of_lt (interval_toNat_le ts) hts
    exact (h.append hseen (measured_classify ..) hfits).markEdge ((append_cfg s _).symm ▸ hts)
  · rw [hp]
    exact h.markEdge hts

end

/-- An instruction within TS_WIDTH bits keeps the invariant. -/
theorem exec_keeps_inv {i : Instr} {s t : State} (h : s.Inv) (hw : i.inWidth s.cfg = true) (hexec : exec i s = .next t) :
    t.Inv := by
  rcases exec_cases hexec with ⟨_, _, rfl, _⟩ | ⟨_, _, hpair, rfl⟩ | ⟨e, ts, rfl, _, _, _, rfl⟩ |
    ⟨_, _, _, _, hdue, rfl⟩ | ⟨_, _, _, rfl⟩ | ⟨_, _, _, rfl⟩
  · exact h.respond _ _
  · exact h.raise hpair
  · exact (h.processEdge e (of_decide_eq_true hw)).respond _ _
  · exact (h.flush (pending_ne_nil_of_flushDue hdue)).respond _ _
  · exact (h.withRunState _).respond _ _
  · exact (h.withRunState _).respond _ _

/-- ILLEGAL_ENCODING may be recorded with every opcode but 0xF (R222). -/
theorem faultPairOk_illegalEncoding {op : Opcode} (h : op ≠ .reserved) :
    faultPairOk FaultCause.illegalEncoding.code op.code = true := by
  cases op <;> first | rfl | exact absurd rfl h

/-- Serving a request keeps the invariant. -/
theorem serve_keeps_inv {r : Request} {s t : State} (h : s.Inv) (hserve : serve r s = .next t) : t.Inv := by
  rcases serve_cases hserve with ⟨_, _, hw, hi⟩ | ⟨_, _, rfl⟩ | ⟨_, rfl⟩ | ⟨_, hop, rfl⟩
  · exact exec_keeps_inv h hw hi
  · exact h.respond _ _
  · exact h.respond _ _
  · exact h.raise (faultPairOk_illegalEncoding hop)

/-- Settles O60: each thing a step can do keeps the invariant. -/
theorem stepKeepsInvariant : Obligations.StepKeepsInvariant := by
  intro s t h hstep
  rcases step_cases hstep with ⟨_, rfl⟩ | ⟨_, hrem, rfl⟩ | ⟨_, _, tasks, n, hrem, _, hn, rfl⟩ |
    ⟨_, _, _, _, _, _, tasks, v, hrem, _, hv, rfl⟩
  · exact h
  · exact (h.advance hrem).applyReset
  · have htaken := h.takenEmitted
    exact (h.advance hrem).withBurstsTaken tasks (show n ≤ s.out.length by omega)
  · have hserved := serve_keeps_inv ((h.advance hrem).withAgents _ _ _) hv
    exact hserved.withAgents tasks v.lineEvents v.timerNext

/-! ### A line in order (R252, R260) -/

@[simp] theorem processEdge_lineEvents (s : State) (e : EdgeType) (ts : Nanos) :
    (s.processEdge e ts).lineEvents = s.lineEvents := by
  rcases processEdge_cases s e ts with ⟨_, _, h⟩ | ⟨_, h⟩ <;> simp [h]

/-- No instruction takes an event of the edge source. -/
theorem exec_keeps_lineEvents {i : Instr} {s t : State} (h : exec i s = .next t) : t.lineEvents = s.lineEvents := by
  rcases exec_cases h with ⟨_, _, rfl, _⟩ | ⟨_, _, _, rfl⟩ | ⟨_, _, _, _, _, _, rfl⟩ |
    ⟨_, _, _, _, _, rfl⟩ | ⟨_, _, _, rfl⟩ | ⟨_, _, _, rfl⟩ <;> simp

/-- Only EDGE moves `last_edge_time`, to its timestamp (R24). -/
theorem exec_lastEdgeTime_cases {i : Instr} {s t : State} (h : exec i s = .next t) :
    t.lastEdgeTime = s.lastEdgeTime ∨ ∃ e ts, i = .edge e ts ∧ t.lastEdgeTime = ts := by
  rcases exec_cases h with ⟨_, _, rfl, _⟩ | ⟨_, _, _, rfl⟩ | ⟨e, ts, hi, _, _, _, rfl⟩ |
    ⟨_, _, _, _, _, rfl⟩ | ⟨_, _, _, rfl⟩ | ⟨_, _, _, rfl⟩
  case inr.inr.inl => exact .inr ⟨e, ts, hi, processEdge_lastEdgeTime s e ts⟩
  all_goals exact .inl rfl

/-- A request that encodes an instruction runs it, if a healthy block goes on at all (R83; log 3). -/
theorem exec_of_serve_encode {i : Instr} {s t : State} (hwf : i.wf = true) (hs : s.faultCause = 0#4)
    (h : serve (encode i) s = .next t) : exec i s = .next t := by
  cases hw : i.inWidth s.cfg with
  | true => exact (serve_of_decode (decode_encode hwf) hw).symm.trans h
  | false =>
    rw [serve_of_wide (decode_encode hwf) hw, rejectRequest_bundleShape_of_healthy _ hs] at h
    cases h

/-- Timestamps in order from a time on are in order from an earlier time on. -/
theorem lineOrdered_of_le {u t : Nat} {events : List LineEvent} (h : lineOrdered t events = true) (hut : u ≤ t) :
    lineOrdered u events = true := by
  induction events generalizing u t with
  | nil => rfl
  | cons v events ih =>
    cases v with
    | failure => exact ih h hut
    | edge e ts =>
      obtain ⟨hts, hrest⟩ := Bool.and_eq_true_iff.1 h
      exact Bool.and_eq_true_iff.2 ⟨decide_eq_true (Nat.le_trans hut (of_decide_eq_true hts)), hrest⟩

/-- What an ordered line keeps: the block is healthy, the turns left are the edge source's and the timer's, and the events
left are in order from the last edge on. -/
structure State.OrderedLine (s : State) : Prop where
  healthy : s.faultCause = 0#4
  turns : ∀ a ∈ s.remaining, a = .edgeSource ∨ a = .timer
  ordered : lineOrdered s.lastEdgeTime.toNat s.lineEvents = true

/-- An instruction that raises no fault and, if it is an EDGE, comes before the events left, keeps the line in order. -/
theorem exec_keeps_ordered {i : Instr} {s t : State} (h : exec i s = .next t) (hs : s.faultCause = 0#4)
    (hraise : raisedCause s i = none) (hline : lineOrdered s.lastEdgeTime.toNat s.lineEvents = true)
    (hedge : ∀ e ts, i = .edge e ts → lineOrdered ts.toNat s.lineEvents = true) :
    t.faultCause = 0#4 ∧ lineOrdered t.lastEdgeTime.toNat t.lineEvents = true := by
  refine ⟨(exec_faultCause h hs).trans (by rw [hraise]; rfl), ?_⟩
  rw [exec_keeps_lineEvents h]
  rcases exec_lastEdgeTime_cases h with hlast | ⟨e, ts, hi, hlast⟩
  · rwa [hlast]
  · rw [hlast]
    exact hedge e ts hi

/-- An event of an ordered line, served, leaves the line in order. -/
theorem serve_event_keeps_ordered {v : LineEvent} {more : List LineEvent} {s t : State} (hs : s.faultCause = 0#4)
    (hmore : s.lineEvents = more) (hline : lineOrdered s.lastEdgeTime.toNat (v :: more) = true)
    (h : serve v.issue s = .next t) : t.faultCause = 0#4 ∧ lineOrdered t.lastEdgeTime.toNat t.lineEvents = true := by
  subst hmore
  cases v with
  | failure =>
    exact exec_keeps_ordered (exec_of_serve_encode (i := .lineFault) rfl hs h) hs rfl hline fun _ _ hi => by cases hi
  | edge e ts =>
    obtain ⟨hts, hrest⟩ := Bool.and_eq_true_iff.1 hline
    have hle : s.lastEdgeTime.toNat ≤ ts.toNat := of_decide_eq_true hts
    refine exec_keeps_ordered (exec_of_serve_encode (i := .edge e ts) rfl hs h) hs
      (if_neg fun hlt => Nat.not_lt.2 hle hlt.2) (lineOrdered_of_le hrest hle) ?_
    rintro _ _ ⟨⟩
    exact hrest

/-- A step keeps the line in order (R252, R260). -/
theorem step_keeps_orderedLine {s t : State} (h : s.OrderedLine) (hstep : step s = .next t) : t.OrderedLine := by
  have hturns : ∀ a ∈ t.remaining, a = .edgeSource ∨ a = .timer := fun a ha =>
    h.turns a (List.mem_of_mem_tail (step_remaining hstep ▸ ha))
  cases hrem : s.remaining with
  | nil =>
    rw [step_nil hrem] at hstep
    cases hstep
    exact h
  | cons a rest =>
    rcases h.turns a (hrem ▸ List.mem_cons_self) with rfl | rfl
    · cases hev : s.lineEvents with
      | nil =>
        obtain rfl := Host.Outcome.next.inj (((step_cons hrem).trans
          (edgeSourceTurn_of_no_event (s := s.advance) hev)).symm.trans hstep)
        exact ⟨h.healthy, hturns, h.ordered⟩
      | cons v more =>
        rw [step_of_event hrem hev] at hstep
        obtain ⟨hs, hline⟩ := serve_event_keeps_ordered (s := { s.advance with lineEvents := more }) h.healthy rfl
          (hev ▸ h.ordered) hstep
        exact ⟨hs, hturns, hline⟩
    · by_cases hfits : s.timerNext < 2 ^ s.cfg.tsWidth
      · rw [step_of_timer hrem hfits] at hstep
        obtain ⟨hs, hline⟩ := exec_keeps_ordered hstep h.healthy rfl h.ordered fun _ _ hi => by cases hi
        exact ⟨hs, hturns, hline⟩
      · have hrefused : step s = .refused .clockWrap := (step_cons hrem).trans (if_pos (Nat.not_lt.1 hfits))
        rw [hrefused] at hstep
        cases hstep

/-- Settles O51: every step keeps a line in order, and with it a healthy block. -/
theorem orderedLineNeverFaults : Obligations.OrderedLineNeverFaults := fun n _ _ hs hturns hline hrun =>
  (run_invariant (p := State.OrderedLine) (fun _ _ => step_keeps_orderedLine) n ⟨hs, hturns, hline⟩ hrun).healthy

end Sys2Proof.Machine

/-! PROOFS. The pseudo-operations of the host (R87, R88; log 12). -/

namespace Sys2Proof.Machine

/-! ### The host's turns in a row -/

/-- The state some places further on, with other tasks of the host and more responses. -/
def State.staged (s : State) (places : Nat) (tasks : List HostTask) (rs : List Response) : State :=
  { s with position := s.position + places, hostTasks := tasks, responses := s.responses ++ rs }

@[simp] theorem staged_faultCause (s : State) (n : Nat) (tasks : List HostTask) (rs : List Response) :
    (s.staged n tasks rs).faultCause = s.faultCause := rfl
@[simp] theorem staged_cfg (s : State) (n : Nat) (tasks : List HostTask) (rs : List Response) :
    (s.staged n tasks rs).cfg = s.cfg := rfl
@[simp] theorem staged_hostTasks (s : State) (n : Nat) (tasks : List HostTask) (rs : List Response) :
    (s.staged n tasks rs).hostTasks = tasks := rfl
@[simp] theorem staged_remaining (s : State) (n : Nat) (tasks : List HostTask) (rs : List Response) :
    (s.staged n tasks rs).remaining = s.remaining.drop n := by
  simp [State.staged, State.remaining, Nat.add_comm]

@[simp] theorem staged_staged (s : State) (m n : Nat) (tasks tasks' : List HostTask) (rs rs' : List Response) :
    (s.staged m tasks rs).staged n tasks' rs' = s.staged (m + n) tasks' (rs ++ rs') := by
  simp [State.staged, Nat.add_assoc]

section
variable {s : State} {rest : List Arrival} {task : HostTask} {more : List HostTask} {i : Instr}

/-- A host's turn at a task that issues an instruction runs it, and puts what follows in front (log 12). -/
theorem step_of_task {v : State} {resp : Response} (hrem : s.remaining = .host :: rest)
    (htasks : s.hostTasks = task :: more) (hissue : task.issue = some (encode i)) (hwf : i.wf = true)
    (hw : i.inWidth s.cfg = true) (hexec : exec i { s.advance with hostTasks := more } = .next v)
    (hresp : v.responses.getLast? = some resp) :
    step s = .next { v with hostTasks := task.next resp ++ v.hostTasks } := by
  have hserve : serve (encode i) { s.advance with hostTasks := more } = .next v := by
    rw [serve_of_decode (decode_encode hwf) (by exact hw), hexec]
  have hturn : hostTurn s.advance = .next (v.continueHost task) := hostTurn_of_issue (s := s.advance) htasks hissue hserve
  rw [step_cons hrem, arrive, hturn, State.continueHost, hresp]

/-- A host's turn at a task whose codec request is answered. -/
theorem step_of_answered_task {resp : Response} (hs : s.faultCause = 0#4) (hrem : s.remaining = .host :: rest)
    (htasks : s.hostTasks = task :: more) (hissue : task.issue = some (encode i)) (hcodec : i.opcode.isCodec = true)
    (hwf : i.wf = true) (hw : i.inWidth s.cfg = true) (hans : codecAnswer s.cfg i = .ok resp) :
    step s = .next (s.staged 1 (task.next resp ++ more) [resp]) := by
  have hexec := exec_codec_of_healthy (s := { s.advance with hostTasks := more }) hcodec hs
  have hreply : codecAnswer { s.advance with hostTasks := more }.cfg i = .ok resp := hans
  rw [hreply] at hexec
  exact step_of_task hrem htasks hissue hwf hw hexec (by simp [State.reply])

/-- A host's turn at a task whose codec request raises a fault (R221). -/
theorem step_of_faulting_task {c : FaultCause} (hs : s.faultCause = 0#4) (hrem : s.remaining = .host :: rest)
    (htasks : s.hostTasks = task :: more) (hissue : task.issue = some (encode i)) (hcodec : i.opcode.isCodec = true)
    (hwf : i.wf = true) (hw : i.inWidth s.cfg = true) (hans : codecAnswer s.cfg i = .error c) :
    step s = .next { s.staged 1 (task.next ⟨.faulted, .none⟩ ++ more) [⟨.faulted, .none⟩] with
      faultCause := c.code, faultOp := i.opcode.code } := by
  have hexec := exec_codec_of_healthy (s := { s.advance with hostTasks := more }) hcodec hs
  have hreply : codecAnswer { s.advance with hostTasks := more }.cfg i = .error c := hans
  rw [hreply] at hexec
  exact step_of_task hrem htasks hissue hwf hw hexec (by simp [State.reply])

end

/-- A host with nothing to do passes its turns (log 14). -/
theorem run_idle_host {k : Nat} {s : State} {rest : List Arrival} (hrem : s.remaining = List.replicate k .host ++ rest)
    (htasks : s.hostTasks = []) : Host.Core.run core k s = .next (s.staged k [] []) := by
  induction k generalizing s with
  | zero => simp [State.staged, ← htasks]
  | succ k ih =>
    have hstep : step s = .next (s.staged 1 [] []) := by
      rw [step_cons hrem, arrive, hostTurn_of_no_task (s := s.advance) htasks]
      simp [State.staged, State.advance, ← htasks]
    rw [run_succ_of_step k hstep, ih (by simp [hrem, List.replicate_succ]) rfl, staged_staged, Nat.add_comm]
    rfl

/-! ### SEND (R87) -/

/-- Settles O52: the turns at ENCODE and at TIMING of its record, or the turn at ENCODE and one with nothing to do. -/
theorem sendAnswersTimingList : Obligations.SendAnswersTimingList := by
  rintro s done c rest hs hrem htasks rfl
  refine ⟨fun r hr => ?_, fun cause hcause => ?_⟩
  · have hencode : step s = .next (s.staged 1 [.request (encode (.timing r))] [⟨.ok, .record r⟩]) :=
      step_of_answered_task (i := .encode c) hs hrem htasks rfl rfl rfl rfl (congrArg (Except.map _) hr)
    have htiming := step_of_answered_task (s := s.staged 1 [.request (encode (.timing r))] [⟨.ok, .record r⟩])
      (i := .timing r) hs (by rw [staged_remaining, hrem]; rfl) rfl rfl rfl rfl rfl rfl
    rw [run_succ_of_step 1 hencode, run_succ_of_step 0 htiming, staged_staged]
    rfl
  · have hencode := step_of_faulting_task (i := .encode c) hs hrem htasks rfl rfl rfl rfl
      (congrArg (Except.map _) hcause)
    rw [run_succ_of_step 1 hencode]
    refine (run_idle_host (rest := rest) ?_ rfl).trans ?_
    · exact remaining_advance hrem
    · simp [State.staged, HostTask.next, Instr.opcode, Opcode.code]

/-! ### RECEIVE_CHECK (R88) -/

/-- A host with one task is at the start of that task's stages. -/
theorem staged_zero {s : State} {tasks : List HostTask} (h : s.hostTasks = tasks) : s.staged 0 tasks [] = s := by
  subst h
  simp [State.staged]

/-- One stage of a pseudo-operation: its request is answered, and the next stage is the host's only task (log 12). -/
theorem run_stage {s : State} {n k : Nat} {rest : List Arrival} {task : HostTask} {i : Instr} {resp : Response}
    {rs : List Response} (hs : s.faultCause = 0#4) (hrem : s.remaining.drop n = .host :: rest)
    (hissue : task.issue = some (encode i)) (hcodec : i.opcode.isCodec = true) (hwf : i.wf = true)
    (hw : i.inWidth s.cfg = true) (hans : codecAnswer s.cfg i = .ok resp) :
    Host.Core.run core (k + 1) (s.staged n [task] rs) =
      Host.Core.run core k (s.staged (n + 1) (task.next resp) (rs ++ [resp])) := by
  have hstep := step_of_answered_task (s := s.staged n [task] rs) hs ((staged_remaining ..).trans hrem) rfl hissue hcodec
    hwf hw hans
  rw [run_succ_of_step k hstep, staged_staged, List.append_nil]

/-- After the last stage of a pseudo-operation the host passes its turns. -/
theorem run_after_stages {s : State} {n k : Nat} {rest : List Arrival} {rs : List Response}
    (hrem : s.remaining.drop n = List.replicate k .host ++ rest) :
    Host.Core.run core k (s.staged n [] rs) = .next (s.staged (n + k) [] rs) := by
  rw [run_idle_host ((staged_remaining ..).trans hrem) rfl, staged_staged, List.append_nil]

/-- Durations that fit, fit in any part of a vector. -/
theorem pulses_inWidth {cfg : Config} {pv f : List Pulse} (hpv : ∀ p ∈ pv, p.dur.toNat < 2 ^ cfg.tsWidth)
    (hf : ∀ p ∈ f, p ∈ pv) : (f.all fun p => decide (p.dur.toNat < 2 ^ cfg.tsWidth)) = true :=
  List.all_eq_true.2 fun p hp => decide_eq_true (hpv p (hf p hp))

section
variable {s : State} {n k : Nat} {rest : List Arrival} {rs : List Response} {f : List Pulse}

/-- CHECKSUM goes on to F2R on 1 and drops the burst on 0 (R88). -/
theorem run_checksum_stage {v : Bool} (hs : s.faultCause = 0#4) (hrem : s.remaining.drop n = .host :: rest)
    (hlen : f.length = 48) (hw : (Instr.checksum f).inWidth s.cfg = true) (h : checksum f = .ok v) :
    Host.Core.run core (k + 1) (s.staged n [.receiveChecksum f] rs) =
      Host.Core.run core k (s.staged (n + 1) (if v then [.receiveRecord f] else []) (rs ++ [⟨.ok, .bit v⟩])) := by
  have hwf : (Instr.checksum f).wf = true := decide_eq_true (show f.length ≤ 65535 by omega)
  have hstage := run_stage (k := k) (task := .receiveChecksum f) (i := .checksum f) (rs := rs) hs hrem rfl rfl hwf hw
    (congrArg (Except.map _) h)
  cases v <;> exact hstage

/-- F2R goes on to DECODE of its record (R88). -/
theorem run_f2r_stage {r : Record} (hs : s.faultCause = 0#4) (hrem : s.remaining.drop n = .host :: rest)
    (hlen : f.length = 48) (hw : (Instr.f2r f).inWidth s.cfg = true) (h : f2r f = .ok r) :
    Host.Core.run core (k + 1) (s.staged n [.receiveRecord f] rs) =
      Host.Core.run core k (s.staged (n + 1) [.receiveDecode r] (rs ++ [⟨.ok, .record r⟩])) :=
  have hwf : (Instr.f2r f).wf = true := decide_eq_true (show f.length ≤ 65535 by omega)
  run_stage (task := .receiveRecord f) (i := .f2r f) hs hrem rfl rfl hwf hw (congrArg (Except.map _) h)

/-- DECODE is the last stage, whatever it answers (R88). -/
theorem run_decode_stage {r : Record} {resp : Response} (hs : s.faultCause = 0#4)
    (hrem : s.remaining.drop n = .host :: rest) (h : codecAnswer s.cfg (.decode r) = .ok resp) :
    Host.Core.run core 1 (s.staged n [.receiveDecode r] rs) = .next (s.staged (n + 1) [] (rs ++ [resp])) :=
  run_stage (k := 0) (task := .receiveDecode r) (i := .decode r) hs hrem rfl rfl rfl rfl h

end

/-- Settles O53: the stages up to the one that ends the pipeline, and the turns left over. -/
theorem receiveCheckPipeline : Obligations.ReceiveCheckPipeline := by
  rintro s done pv rest hs hlen hdur hrem htasks rfl
  have hidle : ∀ n, n ≤ 4 → s.remaining.drop n = List.replicate (4 - n) .host ++ rest := fun n hn => by
    rw [hrem]
    match n, hn with
    | 0, _ | 1, _ | 2, _ | 3, _ | 4, _ => rfl
  have hvalidate : ∀ {resp : Response}, codecAnswer s.cfg (.validate pv) = .ok resp → Host.Core.run core 4 s =
      Host.Core.run core 3 (s.staged 1 (HostTask.next (.receiveCheck pv) resp) [resp]) := fun hans => by
    have hwf : (Instr.validate pv).wf = true := decide_eq_true hlen
    have hstage := run_stage (k := 3) (task := .receiveCheck pv) (i := .validate pv) (rs := []) hs (hidle 0 (by omega))
      rfl rfl hwf (pulses_inWidth hdur fun _ => id) hans
    rwa [staged_zero htasks] at hstage
  have hchecksum : ∀ {f : List Pulse} {v : Bool}, validate pv = some f → checksum f = .ok v → Host.Core.run core 4 s =
      Host.Core.run core 2 (s.staged 2 (if v then [.receiveRecord f] else []) [⟨.ok, .pulses f⟩, ⟨.ok, .bit v⟩]) :=
    fun {f v} hf hv => by
    obtain ⟨hflen, -, hsub, -⟩ := validatedFramesNeverFault s.cfg pv f hf
    rw [hvalidate (resp := ⟨.ok, .pulses f⟩) (by rw [codecAnswer, hf]; rfl)]
    exact run_checksum_stage hs (hidle 1 (by omega)) hflen (pulses_inWidth hdur fun p hp => hsub.subset hp) hv
  have hdecode : ∀ {f : List Pulse} {r : Record} {resp : Response}, validate pv = some f → checksum f = .ok true →
      f2r f = .ok r → codecAnswer s.cfg (.decode r) = .ok resp → Host.Core.run core 4 s =
        .next (s.staged 4 [] [⟨.ok, .pulses f⟩, ⟨.ok, .bit true⟩, ⟨.ok, .record r⟩, resp]) :=
    fun {f r resp} hf hv hr hans => by
    obtain ⟨hflen, -, hsub, -⟩ := validatedFramesNeverFault s.cfg pv f hf
    have hw := pulses_inWidth hdur fun p hp => hsub.subset hp
    rw [hchecksum hf hv, if_pos rfl, run_f2r_stage hs (hidle 2 (by omega)) hflen hw hr]
    exact run_decode_stage hs (hidle 3 (by omega)) hans
  refine ⟨fun hnone => ?_, fun f hf hv => ?_, fun f r hf hv hr hd => ?_, fun f r c hf hv hr hd => ?_⟩
  · rw [hvalidate (resp := ⟨.absent, .none⟩) (by rw [codecAnswer, hnone]; rfl)]
    exact run_after_stages (hidle 1 (by omega))
  · rw [hchecksum hf hv]
    exact run_after_stages (hidle 2 (by omega))
  · exact hdecode hf hv hr (by rw [codecAnswer, hd]; rfl)
  · exact hdecode hf hv hr (by rw [codecAnswer, hd]; rfl)

end Sys2Proof.Machine

/-! PROOFS. Trains of edges (43_edge_decoder.md section 2, R191 to R195). -/

namespace Sys2Proof.Machine

/-- The state after EDGE requests processed one after another, each at its place in the stream. -/
def State.afterEdges : State → List (EdgeType × Nanos) → State
  | s, [] => s
  | s, (e, ts) :: es => ((s.advance.processEdge e ts).respond .ok .none).afterEdges es

/-- A train of edges in order runs to the state after its edges, and the run goes on from there (R191). -/
theorem run_edges {es : List (EdgeType × Nanos)} {s : State} {rest : List Arrival} (k : Nat) (hs : s.faultCause = 0#4)
    (hr : s.runState = .running) (hrem : s.remaining = es.map (fun x => .request (encode (.edge x.1 x.2))) ++ rest)
    (hfits : ∀ x ∈ es, x.2.toNat < 2 ^ s.cfg.tsWidth) (hordered : edgesOrdered s.lastEdgeTime.toNat es = true) :
    Host.Core.run core (es.length + k) s = Host.Core.run core k (s.afterEdges es) ∧ (s.afterEdges es).remaining = rest := by
  induction es generalizing s with
  | nil => exact ⟨by rw [List.length_nil, Nat.zero_add]; rfl, hrem⟩
  | cons x es ih =>
    obtain ⟨e, ts⟩ := x
    obtain ⟨hts, hordered'⟩ := Bool.and_eq_true_iff.1 hordered
    have hstep : step s = .next ((s.advance.processEdge e ts).respond .ok .none) :=
      (step_of_request hrem (decode_encode rfl) (decide_eq_true (hfits _ List.mem_cons_self))).trans
        (exec_edge_of_ordered (s := s.advance) e hs hr (of_decide_eq_true hts))
    have hrem' := (step_remaining hstep).trans (congrArg List.tail hrem)
    have hrun := ih (s := (s.advance.processEdge e ts).respond .ok .none) (by simpa using hs) (by simpa using hr) hrem'
      (fun x hx => by simpa using hfits x (List.mem_cons_of_mem _ hx)) (by simpa using hordered')
    rw [List.length_cons, Nat.add_right_comm, run_succ_of_step _ hstep]
    exact hrun

section
variable (s : State) (es : List (EdgeType × Nanos))

@[simp] theorem afterEdges_cfg : (s.afterEdges es).cfg = s.cfg := by
  induction es generalizing s with
  | nil => rfl
  | cons x es ih => exact (ih _).trans (by simp)

@[simp] theorem afterEdges_out : (s.afterEdges es).out = s.out := by
  induction es generalizing s with
  | nil => rfl
  | cons x es ih => exact (ih _).trans (by simp)

@[simp] theorem afterEdges_faultCause : (s.afterEdges es).faultCause = s.faultCause := by
  induction es generalizing s with
  | nil => rfl
  | cons x es ih => exact (ih _).trans (by simp)

@[simp] theorem afterEdges_runState : (s.afterEdges es).runState = s.runState := by
  induction es generalizing s with
  | nil => rfl
  | cons x es ih => exact (ih _).trans (by simp)

/-- The last edge's timestamp is the one recorded (R24). -/
theorem afterEdges_lastEdgeTime :
    (s.afterEdges es).lastEdgeTime = ((es.map Prod.snd).getLast?).getD s.lastEdgeTime := by
  induction es generalizing s with
  | nil => rfl
  | cons x es ih =>
    rw [List.map_cons, List.getLast?_cons]
    exact (ih _).trans (by rw [respond_lastEdgeTime, processEdge_lastEdgeTime]; rfl)

end

/-- Every edge is counted, up to the counter's largest value (R27). -/
theorem afterEdges_edgeCount {s : State} (hw : s.cfg.widthsOk) (hmax : s.edgeCount.toNat ≤ s.cfg.edgeCountMax)
    (es : List (EdgeType × Nanos)) :
    (s.afterEdges es).edgeCount.toNat = min (s.edgeCount.toNat + es.length) s.cfg.edgeCountMax := by
  induction es generalizing s with
  | nil => exact (Nat.min_eq_left hmax).symm
  | cons x es ih =>
    have hcount := processEdge_edgeCount_toNat (s := s.advance) hw x.1 x.2
    have hrest := ih (s := (s.advance.processEdge x.1 x.2).respond .ok .none) (by simpa using hw)
      (by simp only [respond_edgeCount, respond_cfg, processEdge_cfg]; rw [hcount]; exact Nat.min_le_right _ _)
    simp only [respond_edgeCount, respond_cfg, processEdge_cfg, hcount] at hrest
    rw [State.afterEdges, hrest, List.length_cons]
    simp
    omega

/-- An edge after an earlier edge leaves what was pending followed by its pulse, cut at the capacity, and sets the overflow
bit if its pulse was dropped (R194). -/
theorem processEdge_accumulates {s : State} (hseen : s.edgeCount ≠ 0#32) (hcap : s.pending.length ≤ s.cfg.pendingCap)
    (e : EdgeType) (ts : Nanos) :
    (s.processEdge e ts).pending = (s.pending ++ edgePulses s.cfg s.lastEdgeTime.toNat [(e, ts)]).take s.cfg.pendingCap ∧
    (s.processEdge e ts).pendingOvf = (s.pendingOvf ||
      decide (s.cfg.pendingCap < s.pending.length + (edgePulses s.cfg s.lastEdgeTime.toNat [(e, ts)]).length)) := by
  cases e with
  | rising =>
    rw [processEdge_of_no_pulse ts (.inl rfl)]
    simp [edgePulses, List.take_of_length_le hcap, Nat.not_lt.2 hcap]
  | falling =>
    rw [processEdge_falling_of_seen ts hseen]
    rcases append_cases s (classify s.cfg (s.interval ts)) with ⟨hroom, happend⟩ | ⟨hfull, happend⟩
    · have hlen : ¬ s.cfg.pendingCap < s.pending.length + 1 := by omega
      rw [happend, List.take_of_length_le (by simp [edgePulses]; omega)]
      exact ⟨rfl, by simp [edgePulses, hlen]⟩
    · have hlen : s.cfg.pendingCap < s.pending.length + 1 := by omega
      have heq : s.pending.length = s.cfg.pendingCap := by omega
      rw [happend, ← heq]
      simp [edgePulses]

/-- The pulses of a train are its first edge's and the rest's. -/
theorem edgePulses_cons (cfg : Config) (last : Nat) (e : EdgeType) (ts : Nanos) (es : List (EdgeType × Nanos)) :
    edgePulses cfg last ((e, ts) :: es) = edgePulses cfg last [(e, ts)] ++ edgePulses cfg ts.toNat es := by
  cases e <;> rfl

/-- Cutting before appending what is cut again changes nothing. -/
theorem take_take_append {α : Type} (l m : List α) (n : Nat) : (l.take n ++ m).take n = (l ++ m).take n := by
  rcases Nat.le_total l.length n with h | h
  · rw [List.take_of_length_le h]
  · rw [List.take_append_of_le_length (by simp [h]), List.take_append_of_le_length h, List.take_take, Nat.min_self]

/-- A train leaves what was pending followed by its pulses, cut at the capacity, and sets the overflow bit if any was
dropped (R191 to R195). -/
theorem afterEdges_accumulates {s : State} (hw : s.cfg.widthsOk) (hseen : s.edgeCount ≠ 0#32)
    (hcap : s.pending.length ≤ s.cfg.pendingCap) (es : List (EdgeType × Nanos)) :
    (s.afterEdges es).pending = (s.pending ++ edgePulses s.cfg s.lastEdgeTime.toNat es).take s.cfg.pendingCap ∧
    (s.afterEdges es).pendingOvf = (s.pendingOvf ||
      decide (s.cfg.pendingCap < s.pending.length + (edgePulses s.cfg s.lastEdgeTime.toNat es).length)) := by
  induction es generalizing s with
  | nil => simp [State.afterEdges, edgePulses, List.take_of_length_le hcap, Nat.not_lt.2 hcap]
  | cons x es ih =>
    obtain ⟨e, ts⟩ := x
    obtain ⟨hpending, hovf⟩ : (s.advance.processEdge e ts).pending =
          (s.pending ++ edgePulses s.cfg s.lastEdgeTime.toNat [(e, ts)]).take s.cfg.pendingCap ∧
        (s.advance.processEdge e ts).pendingOvf = (s.pendingOvf ||
          decide (s.cfg.pendingCap < s.pending.length + (edgePulses s.cfg s.lastEdgeTime.toNat [(e, ts)]).length)) :=
      processEdge_accumulates (s := s.advance) hseen hcap e ts
    obtain ⟨hpendings, hovfs⟩ := ih (s := (s.advance.processEdge e ts).respond .ok .none) (by simpa using hw)
      (processEdge_seen (s := s.advance) hw e ts) (by
        rw [respond_pending, respond_cfg, processEdge_cfg, hpending]
        exact List.length_take_le _ _)
    simp only [respond_pending, respond_pendingOvf, respond_cfg, processEdge_cfg, respond_lastEdgeTime,
      processEdge_lastEdgeTime, hpending, hovf, advance_cfg] at hpendings hovfs
    rw [State.afterEdges, edgePulses_cons]
    refine ⟨?_, ?_⟩
    · rw [hpendings, take_take_append, List.append_assoc]
    · rw [hovfs, Bool.or_assoc, ← Bool.decide_or, List.length_take, List.length_append, List.length_append]
      exact congrArg _ (decide_eq_decide.2 (by omega))

/-- Settles O49: the run of the train, and the fields of the state after it. -/
theorem edgeTrainsAccumulate : Obligations.EdgeTrainsAccumulate := by
  rintro s es ps hs hr hseen hw hcap hmax hrem hfits hordered rfl
  obtain ⟨hrun, -⟩ := run_edges (rest := []) 0 hs hr (by rwa [List.append_nil]) hfits hordered
  obtain ⟨hpending, hovf⟩ := afterEdges_accumulates hw hseen hcap es
  exact ⟨s.afterEdges es, hrun, hpending, hovf, afterEdges_out s es, (afterEdges_faultCause s es).trans hs,
    (afterEdges_runState s es).trans hr, afterEdges_edgeCount hw hmax es⟩

end Sys2Proof.Machine

/-! PROOFS. The quiet period and the periodic timer (43_edge_decoder.md section 5; log 5). -/

namespace Sys2Proof.Machine

/-- The states of a quiet period: a healthy decoder in its loop, no edge since `limit - IDLE_NS`, and `k` turns of the
timer left, each at a time that fits. -/
structure State.Quiet (s : State) (limit k : Nat) : Prop where
  healthy : s.faultCause = 0#4
  running : s.runState = .running
  widths : s.cfg.tsWidth ≤ 64
  limit_eq : limit = s.lastEdgeTime.toNat + s.cfg.idleNs
  turns : s.remaining = List.replicate k .timer
  fits : s.timerNext + k * s.cfg.tickPeriodNs ≤ 2 ^ s.cfg.tsWidth
  period_pos : 0 < s.cfg.tickPeriodNs

/-- A turn of the timer that keeps the loop and the last edge leaves a quiet period with one turn less. -/
theorem State.Quiet.next {s u : State} {limit k : Nat} (h : s.Quiet limit (k + 1)) (hstep : step s = .next u)
    (hs : u.faultCause = s.faultCause) (hr : u.runState = s.runState) (hlast : u.lastEdgeTime = s.lastEdgeTime)
    (hnext : u.timerNext = s.timerNext + s.cfg.tickPeriodNs) : u.Quiet limit k := by
  obtain ⟨hcfg, -⟩ := inputIsNeverWritten s u hstep
  have hfits := h.fits
  rw [Nat.succ_mul] at hfits
  exact ⟨hs.trans h.healthy, hr.trans h.running, hcfg ▸ h.widths, by rw [hlast, hcfg]; exact h.limit_eq,
    by rw [step_remaining hstep, h.turns]; rfl, by rw [hnext, hcfg]; omega, hcfg ▸ h.period_pos⟩

/-- One turn of the timer in a quiet period: it flushes what is pending if it comes after the limit, and a quiet period with
one turn less is left (R196, R233). -/
theorem State.Quiet.step {s : State} {limit k : Nat} (h : s.Quiet limit (k + 1)) :
    ∃ u, Machine.step s = .next u ∧ u.Quiet limit k ∧ u.timerNext = s.timerNext + s.cfg.tickPeriodNs ∧ u.cfg = s.cfg ∧
      (s.pending ≠ [] → limit < s.timerNext → u.out = s.out ++ [⟨s.pending, s.pendingOvf⟩] ∧ u.pending = []) ∧
      ((s.pending = [] ∨ s.timerNext ≤ limit) → u.out = s.out ∧ u.pending = s.pending ∧ u.pendingOvf = s.pendingOvf) := by
  have htime : s.timerNext < 2 ^ s.cfg.tsWidth := by
    have hfits := h.fits
    have hperiod := h.period_pos
    rw [Nat.succ_mul] at hfits
    omega
  have hnat : (BitVec.ofNat 64 s.timerNext).toNat = s.timerNext :=
    Nat.mod_eq_of_lt (Nat.lt_of_lt_of_le htime (Nat.pow_le_pow_right (by decide) h.widths))
  have hexec := step_of_timer h.turns htime
  have hdueIff : ({ s.advance with timerNext := s.timerNext + s.cfg.tickPeriodNs } : State).flushDue
      (BitVec.ofNat 64 s.timerNext) = true ↔ s.pending ≠ [] ∧ limit < s.timerNext := by
    rw [flushDue_iff, hnat, h.limit_eq]
    rfl
  by_cases hdue : s.pending ≠ [] ∧ limit < s.timerNext
  · rw [exec_tick_of_due (by exact h.healthy) (by exact h.running) (hdueIff.2 hdue)] at hexec
    exact ⟨_, hexec, h.next hexec rfl rfl rfl rfl, rfl, rfl, fun _ _ => ⟨rfl, rfl⟩,
      fun hnot => absurd hdue fun ⟨hpending, hlate⟩ => hnot.elim hpending (Nat.not_le.2 hlate)⟩
  · rw [exec_tick_of_not_due (by exact h.healthy) (by exact h.running) (mt hdueIff.1 hdue)] at hexec
    exact ⟨_, hexec, h.next hexec rfl rfl rfl rfl, rfl, rfl, fun hpending hlate => absurd ⟨hpending, hlate⟩ hdue,
      fun _ => ⟨rfl, rfl, rfl⟩⟩

/-- Over a quiet period the pending pulses are flushed once, at the first tick after the limit (R196). -/
theorem run_quiet {s : State} {limit k : Nat} (h : s.Quiet limit k) :
    ∃ t, Host.Core.run core k s = .next t ∧
      ((s.pending = [] ∨ ∀ j, j < k → s.timerNext + j * s.cfg.tickPeriodNs ≤ limit) →
        t.out = s.out ∧ t.pending = s.pending) ∧
      (s.pending ≠ [] → (∃ j, j < k ∧ limit < s.timerNext + j * s.cfg.tickPeriodNs) →
        t.out = s.out ++ [⟨s.pending, s.pendingOvf⟩] ∧ t.pending = []) := by
  induction k generalizing s with
  | zero => exact ⟨s, rfl, fun _ => ⟨rfl, rfl⟩, fun _ ⟨j, hj, _⟩ => absurd hj (Nat.not_lt_zero j)⟩
  | succ k ih =>
    obtain ⟨u, hstep, hquiet, hnext, hcfg, hflush, hkeep⟩ := h.step
    obtain ⟨t, hrun, hbefore, hafter⟩ := ih hquiet
    have hshift : ∀ j, u.timerNext + j * u.cfg.tickPeriodNs = s.timerNext + (j + 1) * s.cfg.tickPeriodNs := fun j => by
      rw [hnext, hcfg, Nat.succ_mul]
      omega
    simp only [hshift] at hbefore hafter
    refine ⟨t, (run_succ_of_step k hstep).trans hrun, fun hearly => ?_, fun hpending hlate => ?_⟩
    · obtain ⟨hout, hp, -⟩ := hkeep (hearly.imp_right fun hall => by simpa using hall 0 (Nat.succ_pos k))
      obtain ⟨hout', hp'⟩ := hbefore (hearly.imp hp.trans fun hall j hj => hall (j + 1) (Nat.succ_lt_succ hj))
      exact ⟨hout'.trans hout, hp'.trans hp⟩
    · rcases Nat.lt_or_ge limit s.timerNext with hnow | hnow
      · obtain ⟨hout, hp⟩ := hflush hpending hnow
        obtain ⟨hout', hp'⟩ := hbefore (.inl hp)
        exact ⟨hout'.trans hout, hp'.trans hp⟩
      · obtain ⟨hout, hp, hovf⟩ := hkeep (.inr hnow)
        obtain ⟨j, hj, hlim⟩ := hlate
        cases j with
        | zero => exact absurd hnow (by simpa using hlim)
        | succ j =>
          rw [← hp, ← hovf, ← hout]
          exact hafter (hp ▸ hpending) ⟨j, Nat.lt_of_succ_lt_succ hj, hlim⟩

/-- The first tick after a limit comes within one period of it. -/
theorem first_tick_after {next period limit : Nat} (hperiod : 0 < period) (hnext : next ≤ limit + period) :
    ∃ j, limit < next + j * period ∧ next + j * period ≤ limit + period ∧ ∀ i, i < j → next + i * period ≤ limit := by
  by_cases hlate : limit < next
  · exact ⟨0, by omega, by omega, fun i hi => absurd hi (Nat.not_lt_zero i)⟩
  · have hgap := Nat.div_add_mod (limit - next) period
    have hrest := Nat.mod_lt (limit - next) hperiod
    rw [Nat.mul_comm] at hgap
    refine ⟨(limit - next) / period + 1, by rw [Nat.succ_mul]; omega, by rw [Nat.succ_mul]; omega, fun i hi => ?_⟩
    have hearlier := Nat.mul_le_mul_right period (Nat.le_of_lt_succ hi)
    omega

/-- Settles O48: the run of the timer's turns, and the first tick after the limit. -/
theorem quietPeriodFlushesOnce : Obligations.QuietPeriodFlushesOnce := by
  rintro s limit period hs hr hpending hw hlimit rfl hperiod
  refine ⟨fun k hrem hfits => ?_, first_tick_after hperiod⟩
  obtain ⟨hts, -⟩ := hw
  obtain ⟨t, hrun, hbefore, hafter⟩ := run_quiet ⟨hs, hr, hts, hlimit, hrem, hfits, hperiod⟩
  exact ⟨t, hrun, fun hearly => hbefore (.inr hearly), hafter hpending⟩

end Sys2Proof.Machine

/-! PROOFS. A whole transmission (95_test_vectors.md program P3; R253, R254): its edges, the pulses they yield, and the burst
that gives the record back. -/

namespace Sys2Proof.Machine

/-! ### The edges of a list of durations -/

/-- An edge after each of some durations in µs, from a time in ns on, the types alternating. -/
def edgesAfter (falls : Bool) (t : Nat) : List Nat → List (EdgeType × Nanos)
  | [] => []
  | d :: ds =>
    (if falls then .falling else .rising, BitVec.ofNat 64 (t + 1000 * d)) :: edgesAfter (!falls) (t + 1000 * d) ds

theorem edgesAfter_eq_map (t : Nat) (ds : List Nat) (p : Nat) :
    edgesAfter (p % 2 = 0) t ds = (List.range ds.length).map fun i =>
      (if (i + p) % 2 = 0 then .falling else .rising, BitVec.ofNat 64 (t + 1000 * (ds.take (i + 1)).sum)) := by
  induction ds generalizing t p with
  | nil => rfl
  | cons d ds ih =>
    have hparity : (!decide (p % 2 = 0)) = decide ((p + 1) % 2 = 0) := by
      rw [← decide_not]; exact decide_eq_decide.2 (by omega)
    rw [edgesAfter, hparity, ih, List.length_cons, List.range_succ_eq_map, List.map_cons, List.map_map]
    congr 1
    · simp
    · refine List.map_congr_left fun i _ => ?_
      simp [Nat.add_assoc, Nat.add_comm 1 p, Nat.mul_add]

/-- A transmission falls at its start, and has an edge after each entry of the timing list, rising first. -/
theorem transmissionEdges_eq (cfg : Config) (r : Record) (t0 : Nat) :
    transmissionEdges cfg r t0 =
      (.falling, BitVec.ofNat 64 t0) :: edgesAfter false t0 ((timing cfg r).map (·.toNat)) := by
  have hafter := edgesAfter_eq_map t0 ((timing cfg r).map (·.toNat)) 1
  rw [List.length_map, timing_length] at hafter
  rw [transmissionEdges, List.range_succ_eq_map, List.map_cons, List.map_map]
  congr 1
  exact hafter.symm

section
variable {falls : Bool} {t : Nat} {ds : List Nat}

@[simp] theorem edgesAfter_length : (edgesAfter falls t ds).length = ds.length := by
  induction ds generalizing falls t with
  | nil => rfl
  | cons d ds ih => rw [edgesAfter, List.length_cons, ih, List.length_cons]

/-- Without a wrap of the clock the edges are in order (R260). -/
theorem edgesAfter_ordered (h : t + 1000 * ds.sum < 2 ^ 64) : edgesOrdered t (edgesAfter falls t ds) = true := by
  induction ds generalizing falls t with
  | nil => rfl
  | cons d ds ih =>
    rw [List.sum_cons] at h
    have htime : (BitVec.ofNat 64 (t + 1000 * d)).toNat = t + 1000 * d := Nat.mod_eq_of_lt (by omega)
    rw [edgesAfter, edgesOrdered, htime, ih (by omega)]
    simp

/-- The last edge comes when all the durations have passed. -/
theorem edgesAfter_last : (((edgesAfter falls t ds).map Prod.snd).getLast?).getD (BitVec.ofNat 64 t) =
    BitVec.ofNat 64 (t + 1000 * ds.sum) := by
  induction ds generalizing falls t with
  | nil => rfl
  | cons d ds ih =>
    rw [edgesAfter, List.map_cons, List.getLast?_cons, Option.getD_some, ih, List.sum_cons, Nat.mul_add, Nat.add_assoc]

end

/-- The durations of pairs in a row. -/
def pairDurations (ps : List (Nat × Nat)) : List Nat := ps.flatMap fun p => [p.1, p.2]

/-- Each pair of durations whose second ends at a falling edge yields the pulse of the second; a duration left over ends at a
rising edge and yields none (R191 to R195). -/
theorem edgePulses_edgesAfter (cfg : Config) {t : Nat} {ps : List (Nat × Nat)} {d : Nat}
    (h : t + 1000 * (pairDurations ps ++ [d]).sum < 2 ^ 64) :
    edgePulses cfg t (edgesAfter false t (pairDurations ps ++ [d])) =
      ps.map fun p => classify cfg (BitVec.ofNat 64 (1000 * p.2)) := by
  induction ps generalizing t with
  | nil => rfl
  | cons p ps ih =>
    obtain ⟨a, b⟩ := p
    have hsum : (pairDurations ((a, b) :: ps) ++ [d]).sum = a + (b + (pairDurations ps ++ [d]).sum) := by
      simp [pairDurations]
    rw [hsum] at h
    have ha : (BitVec.ofNat 64 (t + 1000 * a)).toNat = t + 1000 * a := Nat.mod_eq_of_lt (by omega)
    have hb : (BitVec.ofNat 64 (t + 1000 * a + 1000 * b)).toNat = t + 1000 * a + 1000 * b := Nat.mod_eq_of_lt (by omega)
    have hrest := ih (t := t + 1000 * a + 1000 * b) (by omega)
    show classify cfg (BitVec.ofNat 64 ((BitVec.ofNat 64 (t + 1000 * a + 1000 * b)).toNat -
      (BitVec.ofNat 64 (t + 1000 * a)).toNat)) :: edgePulses cfg (BitVec.ofNat 64 (t + 1000 * a + 1000 * b)).toNat
        (edgesAfter false (t + 1000 * a + 1000 * b) (pairDurations ps ++ [d])) = _
    rw [ha, hb, hrest, Nat.add_sub_cancel_left]
    rfl

/-! ### The pulses of a transmission -/

/-- The gap before each symbol, and the symbol. -/
def symbolPairs (cfg : Config) (fr : List Pulse) : List (Nat × Nat) :=
  fr.map fun p => ((gap cfg).toNat, (bitTime cfg p).toNat)

/-- The two entries of a preamble. -/
def preamblePair (cfg : Config) : Nat × Nat := ((BitVec.ofNat 32 cfg.nomPreUs).toNat, (BitVec.ofNat 32 cfg.nomPreUs).toNat)

/-- The last gap of the first repetition, and the separator. -/
def separatorPair (cfg : Config) : Nat × Nat := ((gap cfg).toNat, (BitVec.ofNat 32 cfg.sepUs).toNat)

/-- The entries of a timing list in pairs, but for its last gap. -/
def transmissionPairs (cfg : Config) (r : Record) : List (Nat × Nat) :=
  preamblePair cfg :: symbolPairs cfg (assemble cfg r) ++
    separatorPair cfg :: preamblePair cfg :: symbolPairs cfg (assemble cfg r)

theorem gap_symbolEntries (cfg : Config) (fr : List Pulse) : (gap cfg).toNat :: (symbolEntries cfg fr).map (·.toNat) =
    pairDurations (symbolPairs cfg fr) ++ [(gap cfg).toNat] := by
  induction fr with
  | nil => rfl
  | cons p fr ih =>
    rw [symbolEntries_cons, List.map_cons, List.map_cons, ih]
    rfl

/-- The entries of a repetition in pairs: preamble, then each gap with the symbol after it, then the last gap. -/
theorem rep_pairs (cfg : Config) (r : Record) : (rep cfg (assemble cfg r)).map (·.toNat) =
    pairDurations (preamblePair cfg :: symbolPairs cfg (assemble cfg r)) ++ [(gap cfg).toNat] := by
  have hgaps := gap_symbolEntries cfg (assemble cfg r)
  rw [rep_assemble]
  exact congrArg (fun l => _ :: _ :: l) hgaps

/-- The timing list is its pairs and its last gap (R165). -/
theorem timing_pairs (cfg : Config) (r : Record) :
    (timing cfg r).map (·.toNat) = pairDurations (transmissionPairs cfg r) ++ [(gap cfg).toNat] := by
  rw [timing, List.map_append, List.map_append, rep_pairs]
  simp [transmissionPairs, separatorPair, pairDurations]

/-- The timing list of a frame of the hardware lasts 179 128 µs (R166). -/
theorem sum_transmissionPairs (r : Record) :
    (pairDurations (transmissionPairs Config.hw r) ++ [(gap Config.hw).toNat]).sum = 179128 := by
  rw [← timing_pairs, sum_timing (by decide) r]
  rfl

/-- The symbol of a pulse of a frame lasts as long as the pulse, which classifies as itself (R101, R164). -/
theorem classify_symbol {cfg : Config} (hbands : cfg.bandsOk) (hwidths : cfg.widthsOk) {r : Record} {p : Pulse}
    (hp : p ∈ assemble cfg r) : classify cfg (BitVec.ofNat 64 (1000 * (bitTime cfg p).toNat)) = p := by
  obtain ⟨b, rfl⟩ : ∃ b, p = nominalPulse cfg b := by
    simp only [assemble, b2p, List.mem_flatMap, List.mem_append, List.mem_map] at hp
    obtain ⟨-, -, ⟨i, -, rfl⟩ | ⟨i, -, rfl⟩⟩ := hp <;> exact ⟨_, rfl⟩
  have hdur : BitVec.ofNat 64 (1000 * (bitTime cfg (nominalPulse cfg b)).toNat) = (nominalPulse cfg b).dur := by
    obtain ⟨-, -, -, hzero, hone, -⟩ := hwidths
    cases b with
    | false =>
      have htime : (bitTime cfg (nominalPulse cfg false)).toNat = cfg.nomZeroUs := Nat.mod_eq_of_lt hzero
      rw [htime, Nat.mul_comm]
      rfl
    | true =>
      have htime : (bitTime cfg (nominalPulse cfg true)).toNat = cfg.nomOneUs := Nat.mod_eq_of_lt hone
      rw [htime, Nat.mul_comm]
      rfl
  rw [hdur, classify_nominalPulse hbands hwidths]

/-- The pulses of the edges of the hardware's transmission after the first edge. -/
def transmissionPulses (r : Record) : List Pulse :=
  (transmissionPairs Config.hw r).map fun p => classify Config.hw (BitVec.ofNat 64 (1000 * p.2))

/-- They are a preamble and the frame, the separator, a preamble and the frame (R164, R165). -/
theorem transmissionPulses_eq (r : Record) :
    transmissionPulses r =
      ⟨.preamble, 4400000#64⟩ :: assemble Config.hw r ++
        ⟨.preamble, 5000000#64⟩ :: ⟨.preamble, 4400000#64⟩ :: assemble Config.hw r := by
  have hsymbols : ((symbolPairs Config.hw (assemble Config.hw r)).map fun p =>
      classify Config.hw (BitVec.ofNat 64 (1000 * p.2))) = assemble Config.hw r := by
    rw [symbolPairs, List.map_map]
    exact (List.map_congr_left fun p hp => classify_symbol (by decide) (by decide) hp).trans (List.map_id _)
  rw [transmissionPulses, transmissionPairs, List.map_append, List.map_cons, List.map_cons, List.map_cons, hsymbols]
  rfl

/-- Two copies of a frame with no other bit pulses around them validate to the frame (R167). -/
theorem validate_of_filter {cfg : Config} {r : Record} {pv : List Pulse}
    (h : pv.filter isBit = assemble cfg r ++ assemble cfg r) : validate pv = some (assemble cfg r) := by
  have hlen := assemble_length cfg r
  have htake : (pv.filter isBit).take 48 = assemble cfg r := by rw [h, ← hlen, List.take_left]
  have hdrop : (pv.filter isBit).drop 48 = assemble cfg r := by rw [h, ← hlen, List.drop_left]
  rw [validate_of_repeats (by rw [h, List.length_append, hlen]) (by rw [htake, hdrop]), htake]

/-- What comes before the preamble of a transmission does not matter to VALIDATE if it is no bit pulse. -/
theorem validate_transmission {r : Record} {before : List Pulse} (h : ∀ p ∈ before, isBit p = false) :
    validate (before ++ transmissionPulses r) = some (assemble Config.hw r) := by
  have hbefore : before.filter isBit = [] := List.filter_eq_nil_iff.2 fun p hp => by simp [h p hp]
  have hframe : (assemble Config.hw r).filter isBit = assemble Config.hw r :=
    List.filter_eq_self.2 (assemble_isBit Config.hw r)
  refine validate_of_filter ?_
  rw [transmissionPulses_eq, List.filter_append, List.filter_append, hbefore, List.filter_cons_of_neg (by decide),
    List.filter_cons_of_neg (by decide), List.filter_cons_of_neg (by decide), hframe, List.nil_append]

/-! ### The first edge -/

/-- The pulse of a transmission's first edge: the inter-burst pulse if an edge came before, otherwise none (R192, R254). -/
theorem processEdge_first {s : State} {ts : Nanos} (hbands : s.cfg.bandsOk) (hcap : 0 < s.cfg.pendingCap)
    (hpending : s.pending = []) (hquiet : s.edgeCount ≠ 0#32 → s.lastEdgeTime.toNat + s.cfg.preHi ≤ ts.toNat) :
    (s.processEdge .falling ts).pendingOvf = s.pendingOvf ∧
    (s.processEdge .falling ts).pending.length = (if s.edgeCount = 0#32 then 0 else 1) ∧
    ∀ p ∈ (s.processEdge .falling ts).pending, isBit p = false := by
  by_cases hseen : s.edgeCount = 0#32
  · rw [processEdge_of_no_pulse ts (.inr hseen), if_pos hseen]
    exact ⟨rfl, congrArg List.length hpending, fun p hp => absurd (hpending ▸ hp : p ∈ []) List.not_mem_nil⟩
  · have hlong : s.cfg.preHi ≤ (s.interval ts).toNat := by
      have hinterval : (s.interval ts).toNat = ts.toNat - s.lastEdgeTime.toNat := Nat.mod_eq_of_lt (by omega)
      have := hquiet hseen
      omega
    have hinvalid := classifyCategory_of_preHi_le hbands hlong
    rw [processEdge_falling_of_seen ts hseen, append_of_room _ _ (by rwa [hpending]), if_neg hseen]
    refine ⟨rfl, by simp [hpending], fun p hp => ?_⟩
    obtain rfl : p = classify s.cfg (s.interval ts) := by simpa [hpending] using hp
    rw [isBit, classify, hinvalid]

/-! ### The burst -/

@[simp] theorem transmissionPulses_length (r : Record) : (transmissionPulses r).length = 99 := by
  rw [transmissionPulses_eq, List.length_append, List.length_cons, List.length_cons, List.length_cons, assemble_length]

/-- The edges of the hardware's transmission after the first. -/
def laterEdges (r : Record) (t0 : Nat) : List (EdgeType × Nanos) :=
  edgesAfter false t0 (pairDurations (transmissionPairs Config.hw r) ++ [(gap Config.hw).toNat])

theorem transmissionEdges_hw (r : Record) (t0 : Nat) :
    transmissionEdges Config.hw r t0 = (.falling, BitVec.ofNat 64 t0) :: laterEdges r t0 := by
  rw [transmissionEdges_eq, timing_pairs, laterEdges]

section
variable {r : Record} {t0 : Nat} (hfits : t0 + 179128000 < 2 ^ 64)
include hfits

theorem duration_fits :
    t0 + 1000 * (pairDurations (transmissionPairs Config.hw r) ++ [(gap Config.hw).toNat]).sum < 2 ^ 64 := by
  rwa [sum_transmissionPairs]

theorem start_toNat : (BitVec.ofNat 64 t0).toNat = t0 := Nat.mod_eq_of_lt (by omega)

theorem edgePulses_laterEdges : edgePulses Config.hw t0 (laterEdges r t0) = transmissionPulses r :=
  edgePulses_edgesAfter Config.hw (duration_fits hfits)

/-- The edges of a transmission are in order, from any edge before it on. -/
theorem transmissionEdges_ordered {last : Nat} (hlast : last ≤ t0) :
    edgesOrdered last (transmissionEdges Config.hw r t0) = true := by
  rw [transmissionEdges_hw, edgesOrdered, start_toNat hfits, laterEdges, edgesAfter_ordered (duration_fits hfits)]
  simpa using hlast

/-- Once its first edge is processed, the edges of a transmission leave its pulses pending after at most one pulse before
them, none of them dropped. -/
theorem afterEdges_laterEdges {s : State} (hcfg : s.cfg = Config.hw) (hseen : s.edgeCount ≠ 0#32)
    (hlast : s.lastEdgeTime = BitVec.ofNat 64 t0) (hroom : s.pending.length ≤ 1) :
    (s.afterEdges (laterEdges r t0)).pending = s.pending ++ transmissionPulses r ∧
      (s.afterEdges (laterEdges r t0)).pendingOvf = s.pendingOvf ∧
      (s.afterEdges (laterEdges r t0)).lastEdgeTime.toNat = t0 + 179128000 := by
  have hcap : s.cfg.pendingCap = 256 := by rw [hcfg]; rfl
  obtain ⟨hpending, hovf⟩ := afterEdges_accumulates (by rw [hcfg]; decide) hseen (by omega) (laterEdges r t0)
  rw [hcap, hcfg, hlast, start_toNat hfits, edgePulses_laterEdges hfits] at hpending hovf
  refine ⟨?_, ?_, ?_⟩
  · rw [hpending]
    exact List.take_of_length_le (by simp; omega)
  · rw [hovf, decide_eq_false (by simp; omega), Bool.or_false]
  · rw [afterEdges_lastEdgeTime, hlast, laterEdges, edgesAfter_last, sum_transmissionPairs, BitVec.toNat_ofNat]
    exact Nat.mod_eq_of_lt hfits

/-- The edges of a transmission leave its pulses pending, after the inter-burst pulse if an edge came before, and nothing
dropped (R254). -/
theorem afterEdges_transmission {s : State} (hcfg : s.cfg = Config.hw) (hpending : s.pending = [])
    (hquiet : s.edgeCount ≠ 0#32 → s.lastEdgeTime.toNat + 100000000 < t0) :
    ∃ before : List Pulse, before.length = (if s.edgeCount = 0#32 then 0 else 1) ∧ (∀ p ∈ before, isBit p = false) ∧
      (s.afterEdges (transmissionEdges Config.hw r t0)).pending = before ++ transmissionPulses r ∧
      (s.afterEdges (transmissionEdges Config.hw r t0)).pendingOvf = s.pendingOvf ∧
      (s.afterEdges (transmissionEdges Config.hw r t0)).lastEdgeTime.toNat = t0 + 179128000 := by
  obtain ⟨hfirstOvf, hfirstLen, hfirstBits⟩ := processEdge_first (s := s.advance) (ts := BitVec.ofNat 64 t0)
    (by rw [advance_cfg, hcfg]; decide) (by rw [advance_cfg, hcfg]; decide) hpending (fun hseen => by
      rw [start_toNat hfits, advance_cfg, hcfg]
      exact Nat.le_trans (Nat.add_le_add_left (by decide : Config.hw.preHi ≤ 100000000) _) (Nat.le_of_lt (hquiet hseen)))
  have hroom : (s.advance.processEdge .falling (BitVec.ofNat 64 t0)).pending.length ≤ 1 := by
    rw [hfirstLen]; split <;> decide
  obtain ⟨hall, hovf, hlast⟩ := afterEdges_laterEdges (r := r) hfits
    (s := (s.advance.processEdge .falling (BitVec.ofNat 64 t0)).respond .ok .none) (by simpa using hcfg)
    (processEdge_seen (s := s.advance) (by rw [advance_cfg, hcfg]; decide) _ _) (by simp) hroom
  rw [respond_pending] at hall
  rw [respond_pendingOvf] at hovf
  rw [transmissionEdges_hw, State.afterEdges]
  exact ⟨_, hfirstLen, hfirstBits, hall, hovf.trans hfirstOvf, hlast⟩

end

/-- Settles O50: the run of the transmission's edges, the flush, and the round trip of the frame in the burst. -/
theorem transmissionIsReceived : Obligations.TransmissionIsReceived := by
  intro s r t0 now hcfg hs hr hpending hovf hlast hquiet hnow hrem
  have hfits : t0 + 179128000 < 2 ^ 64 := by omega
  obtain ⟨hrun, hrem'⟩ := run_edges 1 hs hr hrem (fun x _ => by rw [hcfg]; exact x.2.isLt)
    (transmissionEdges_ordered hfits hlast)
  obtain ⟨before, hlen, hbits, hburst, hkept, htime⟩ := afterEdges_transmission (r := r) hfits hcfg hpending hquiet
  generalize hu : s.afterEdges (transmissionEdges Config.hw r t0) = u at hrun hrem' hburst hkept htime
  have hucfg : u.cfg = Config.hw := by rw [← hu, afterEdges_cfg, hcfg]
  have hus : u.faultCause = 0#4 := by rw [← hu, afterEdges_faultCause, hs]
  have hur : u.runState = .running := by rw [← hu, afterEdges_runState, hr]
  have huout : u.out = s.out := by rw [← hu, afterEdges_out]
  have hburstLen : u.pending.length = (if s.edgeCount = 0#32 then 99 else 100) := by
    rw [hburst, List.length_append, hlen, transmissionPulses_length]
    split <;> rfl
  have hdue : u.advance.flushDue now = true := (flushDue_iff _ _).2 ⟨fun hnil => by
      rw [show u.pending = [] from hnil] at hburstLen
      revert hburstLen
      split <;> decide, by
    rw [advance_lastEdgeTime, htime, advance_cfg, hucfg]
    exact hnow⟩
  have hstep : step u = .next (u.advance.flush.respond .ok .none) :=
    (step_of_request hrem' (decode_encode rfl) (by rw [hucfg]; exact decide_eq_true now.isLt)).trans
      (exec_tick_of_due (s := u.advance) hus hur hdue)
  have hcount : (transmissionEdges Config.hw r t0).length = 200 := by rw [transmissionEdges, List.length_map, List.length_range]
  rw [hcount, run_succ_of_step 0 hstep] at hrun
  exact ⟨_, u.pending, hrun, by rw [← huout, ← hovf, ← hkept]; rfl, rfl, hus, hburstLen,
    hburst ▸ validate_transmission hbits, checksum_assemble _ _, f2r_assemble _ _⟩

end Sys2Proof.Machine
